-- ==== Sys2Proof/Word.lean ====
section
/-! DEFINITION. The word types of BMSCODEC: octets, texts, and the short character registers (spec 00_scope.md R8, R9;
10_state.md R21, R31). -/

namespace Sys2Proof

/-- An octet, an 8-bit value; read as an ASCII code it is a character (R8). -/
abbrev Octet := BitVec 8

/-- A sequence of octets, lowest position first (R9). -/
abbrev Text := List Octet

/-- A register of two octets; `c0` stands at the lower position. -/
structure Chars2 where
  c0 : Octet
  c1 : Octet
  deriving DecidableEq, Repr

/-- A register of three octets; `c0` stands at the lowest position. -/
structure Chars3 where
  c0 : Octet
  c1 : Octet
  c2 : Octet
  deriving DecidableEq, Repr

/-- A register of four octets; `c0` stands at the lowest position. -/
structure Chars4 where
  c0 : Octet
  c1 : Octet
  c2 : Octet
  c3 : Octet
  deriving DecidableEq, Repr

def Chars2.toList (c : Chars2) : Text := [c.c0, c.c1]

def Chars3.toList (c : Chars3) : Text := [c.c0, c.c1, c.c2]

def Chars4.toList (c : Chars4) : Text := [c.c0, c.c1, c.c2, c.c3]

end Sys2Proof
end

