-- ==== Sys2Proof/Syntax.lean ====
section
/-! DEFINITION. The operations of BMSCODEC, one constructor per row of spec/opcode_table.json (30_encoding.md R100). No
operation has an operand field: operands are registers and buffers (R12, R51). -/

namespace Sys2Proof

inductive Instr where
  /-- `CHKSUM_CALC` (40_primitives_checksums.md R141). -/
  | chksumCalc
  /-- `LCHKSUM_CALC` (40_primitives_checksums.md R146). -/
  | lchksumCalc
  /-- `ENCODE_REQ` (41_frame_codec.md R150). -/
  | encodeReq
  /-- `DECODE_RESP` (41_frame_codec.md R152). -/
  | decodeResp
  /-- `DEC_VERSION` (42_identity.md R181). -/
  | decVersion
  /-- `DEC_SERIAL` (42_identity.md R183). -/
  | decSerial
  /-- `DEC_ANALOG` (43_analog_capacity.md R200). -/
  | decAnalog
  /-- `DEC_CAPACITY` (43_analog_capacity.md R220). -/
  | decCapacity
  /-- `DEC_WARN` (44_warnings.md R231). -/
  | decWarn
  deriving DecidableEq, Repr

end Sys2Proof
end

