-- ==== Sys2Proof/WellFormed.lean ====
section
/-! DEFINITION. The one well-formedness check an operation word has: its code is one of the nine of 30_encoding.md R100
and none of the reserved codes of R101. An `Instr` has no operand, so every `Instr` is well-formed as a term. -/

namespace Sys2Proof

/-- `OP` codes 0x1 to 0x9 are operations; 0x0 and 0xA to 0xF are reserved (R100, R101). -/
def opWellFormed (op : BitVec 4) : Bool :=
  decide (1 ≤ op.toNat) && decide (op.toNat ≤ 9)

/-- An operation carries no operand, so it has no ill-formed term. -/
def Instr.wellFormed (_ : Instr) : Bool := true

end Sys2Proof
end

