-- ==== Sys2Proof/Decode.lean ====
section
/-! DEFINITION. Decoding the 4-bit `OP` code (30_encoding.md R100, R101), total, rejecting by name, and its encoder. -/

namespace Sys2Proof

/-- Why a code is no operation. -/
inductive Reject where
  /-- A reserved code (R101); the machine ends such a start with `Err(IllegalOp, code)` (R266). -/
  | reservedOp (code : BitVec 4)
  deriving DecidableEq, Repr

/-- The operation an `OP` code selects (R100), or its rejection (R101). -/
def decode (op : BitVec 4) : Except Reject Instr :=
  match op.toNat with
  | 0x1 => .ok .chksumCalc
  | 0x2 => .ok .lchksumCalc
  | 0x3 => .ok .encodeReq
  | 0x4 => .ok .decodeResp
  | 0x5 => .ok .decVersion
  | 0x6 => .ok .decSerial
  | 0x7 => .ok .decAnalog
  | 0x8 => .ok .decCapacity
  | 0x9 => .ok .decWarn
  | _ => .error (.reservedOp op)

/-- The `OP` code of an operation (R100). -/
def encode (i : Instr) : BitVec 4 :=
  match i with
  | .chksumCalc => 0x1#4
  | .lchksumCalc => 0x2#4
  | .encodeReq => 0x3#4
  | .decodeResp => 0x4#4
  | .decVersion => 0x5#4
  | .decSerial => 0x6#4
  | .decAnalog => 0x7#4
  | .decCapacity => 0x8#4
  | .decWarn => 0x9#4

/-- The code a table word of `nbits` bits puts into the 4-bit register `OP`: its bits 3 to 0 (opcode_table.json,
"OP": "3:0"; assumption log 10). -/
def opOfTableWord (nbits w : Nat) : BitVec 4 :=
  BitVec.ofNat 4 (w % 2 ^ nbits)

/-- The operation the decoder reads from a word numbered as spec/opcode_table.json numbers it. -/
def decodeTableWord (nbits w : Nat) : Option Instr :=
  match decode (opOfTableWord nbits w) with
  | .ok i => some i
  | .error _ => none

end Sys2Proof
end

