-- ==== Sys2Proof/Config.lean ====
section
/-! DEFINITION. The four parameters the spec leaves OPEN (00_scope.md R6; 70_reset_and_hazards.md R306): what a block is
built with, fixed while it runs. A model takes them as an argument: they stand in `State.cfg`, so a statement over all
states holds for every setting (assumption log 1). -/

namespace Sys2Proof

/-- `ROUND_TIE`: how SOC and SOH round when the exact quotient is an exact tie (R135). -/
inductive RoundTie where
  | halfEven
  | halfUp
  deriving DecidableEq, Repr

/-- `LEAD_SKIP`, in 0 or 2 characters (R6, R201). -/
inductive LeadSkip where
  | zero
  | two
  deriving DecidableEq, Repr

/-- The three state fields a status boolean may be taken from (44_warnings.md R242). -/
inductive BoolField where
  | prot1
  | prot2
  | instr
  deriving DecidableEq, Repr

/-- One entry of `BOOL_MAP`: a field and a bit position of it (R243). -/
structure BitPos where
  field : BoolField
  bit   : Fin 8
  deriving DecidableEq, Repr

/-- `BOOL_MAP`: the bit position of each of the eleven status booleans (R243). -/
structure BoolMap where
  short : BitPos
  odc   : BitPos
  occ   : BitPos
  fully : BitPos
  clim  : BitPos
  cfet  : BitPos
  dfet  : BitPos
  ind   : BitPos
  rev   : BitPos
  acin  : BitPos
  heart : BitPos
  deriving DecidableEq, Repr

/-- The OPEN parameters of a block (R6, R306). -/
structure Params where
  leadSkip : LeadSkip
  hexLower : Bool
  roundTie : RoundTie
  boolMap  : BoolMap
  deriving DecidableEq, Repr

end Sys2Proof
end

