-- ==== Sys2Proof/Machine/Defaults.lean ====
section
/-! DEFINITION. The fixed parameters of 00_scope.md R6 (sizes and field widths) and the values the OPEN parameters have in
the model's reset state (assumption log 1). -/

namespace Sys2Proof.Machine

/-- `INFO_MAX`, octets of the payload buffer (R6, R26). -/
def infoMax : Nat := 4095

/-- `RAW_MAX`, octets of the frame buffer (R6, R25). -/
def rawMax : Nat := 4113

/-- `VAL_W`, characters of an analog or capacity value (R6). -/
def valW : Nat := 4

/-- `COUNT_W`, characters of a count field (R6). -/
def countW : Nat := 2

/-- `SKIP_W`, characters of a skipped field (R6). -/
def skipW : Nat := 2

/-- `CODE_W`, characters of a warning code or a bitfield (R6). -/
def codeW : Nat := 2

/-- `LEAD_SKIP` as a number of characters (R6, R201). -/
def leadChars (l : LeadSkip) : Nat :=
  match l with
  | .zero => 0
  | .two => 2

/-- The default `BOOL_MAP` of 44_warnings.md R243. `occ` is from the spec's source; the ten others are the spec's general
knowledge. PRESUMED, unsafe: assumption log 2. -/
def defaultBoolMap : BoolMap where
  short := ⟨.prot1, 6⟩
  odc   := ⟨.prot1, 5⟩
  occ   := ⟨.prot1, 4⟩
  fully := ⟨.prot2, 7⟩
  clim  := ⟨.instr, 0⟩
  cfet  := ⟨.instr, 1⟩
  dfet  := ⟨.instr, 2⟩
  ind   := ⟨.instr, 3⟩
  rev   := ⟨.instr, 4⟩
  acin  := ⟨.instr, 5⟩
  heart := ⟨.instr, 7⟩

/-- The setting of the reset state: the one 95_test_vectors.md assumes "unless a vector says otherwise". DESIGN CHOICE,
unsafe for a claim about the reset state alone: assumption log 1. -/
def defaultParams : Params where
  leadSkip := .zero
  hexLower := false
  roundTie := .halfEven
  boolMap  := defaultBoolMap

end Sys2Proof.Machine
end

