-- ==== Sys2Proof/Machine/Memory.lean ====
section
/-! DEFINITION. A buffer's octets as plain data (20_memory.md R50): a list of (position, octet) pairs in one canonical
form, positions strictly rising. A position that is not listed has NO VALUE (10_state.md R25, R40; 93_implementation_defined.md
I9, I10): reading it is never a value (assumption log 4). -/

namespace Sys2Proof.Machine

abbrev Memory := List Host.Cell

/-- The octet at a position, if it has a value. -/
def Memory.read (m : Memory) (a : Nat) : Option Octet :=
  match m with
  | [] => none
  | c :: m => if c.1 = a then some c.2 else Memory.read m a

/-- Writes one octet, keeping the positions strictly rising. -/
def Memory.write (m : Memory) (a : Nat) (v : Octet) : Memory :=
  match m with
  | [] => [(a, v)]
  | c :: m =>
    if a < c.1 then (a, v) :: c :: m
    else if a = c.1 then (a, v) :: m
    else c :: Memory.write m a v

/-- The octets `t` standing at `a`, `a+1`, … and nothing else. -/
def Memory.cellsFrom (a : Nat) (t : Text) : Memory :=
  match t with
  | [] => []
  | v :: t => (a, v) :: Memory.cellsFrom (a + 1) t

/-- A buffer replaced whole by a text (R30: "replaced whole or not at all"): positions beyond it have no value (R25). -/
def Memory.ofText (t : Text) : Memory := Memory.cellsFrom 0 t

/-- Octets at and beyond `n` lose their value (R25: "octets at and beyond `RAW_LEN` have no value"). -/
def Memory.truncate (m : Memory) (n : Nat) : Memory :=
  m.filter fun c => decide (c.1 < n)

/-- No position has a value. -/
def Memory.empty : Memory := []

/-- The canonical form: positions strictly rising. No value stands for an unlisted position, so every octet may be
listed. -/
abbrev Memory.wf (m : Memory) : Prop := m.Pairwise fun c d => c.1 < d.1

end Sys2Proof.Machine
end

