-- ==== Sys2Proof/Machine/State.lean ====
section
/-! DEFINITION. The state of BMSCODEC (spec 10_state.md R20 to R40), the reasons a run can stop, the outcome codes' names
(60_exceptions.md R261 to R266), and reset (R40; 70_reset_and_hazards.md R300). Registers are bit vectors of the width the
spec gives. -/

namespace Sys2Proof.Machine

/-- The two operand address spaces (20_memory.md R50). -/
inductive Buffer where
  | raw
  | info
  deriving DecidableEq, Repr

/-- The result groups of 10_state.md R31 to R36. -/
inductive Group where
  | ck
  | lck
  | frame
  | resp
  | idVer
  | idSn
  | analog
  | cap
  | warn
  deriving DecidableEq, Repr

/-- Why a run has no next state. -/
inductive Fault where
  /-- An operation or a host read meets a buffer position that has no value: never written since reset, at or beyond the
  buffer's length, or beyond the buffer (93_implementation_defined.md I9, I10: "fault on read"). Raised by the buffer reads of
  every operation. Safe: the hardware goes on with some octet, of which the model claims nothing. -/
  | noOctet (b : Buffer) (pos : Nat)
  /-- A host read of a result group that is invalid (10_state.md R30; I10). Raised by the host reads of Machine/HostPort.lean.
  Safe. -/
  | invalidGroup (g : Group)
  /-- `START` while `BUSY = 1` (60_exceptions.md R269; I11: stuck, "a model has no move for it"). Raised by `step`. Safe. -/
  | startWhileBusy
  /-- A host read or write of an operand register, a buffer or a length while `BUSY = 1` (10_state.md R21; 20_memory.md R66;
  I11). Raised by the host's accesses. Safe. -/
  | hostWhileBusy
  /-- A host write to a position or of a length that the buffer does not have (60_exceptions.md R294, within `RAW_MAX` and
  `INFO_MAX`). Raised by the host writes. Safe. -/
  | noSuchPosition (b : Buffer) (pos : Nat)
  deriving DecidableEq, Repr

/-- Why an instruction has no meaning. -/
inductive Refusal where
  /-- Raised by an arm of `exec` whose instruction has no meaning yet; no arm does. Safe. -/
  | notModelled (mnemonic : String)
  deriving DecidableEq, Repr

/-- `DETAIL` of a `FramingError` (60_exceptions.md R262). -/
inductive FramingDetail where
  | badSoi
  | truncated
  | badLenid
  deriving DecidableEq, Repr

/-- `DETAIL` of a `ChecksumError` (R263). -/
inductive ChecksumDetail where
  | lchksum
  | chksum
  deriving DecidableEq, Repr

/-- The RTN codes that are errors (30_encoding.md R105). -/
inductive RtnCode where
  | rtn01
  | rtn02
  | rtn03
  | rtn04
  | rtn05
  | rtn06
  | rtn09
  deriving DecidableEq, Repr

/-- `DETAIL` of a `DecodeError` (R264). -/
inductive DecodeDetail where
  | overrun
  | badHex
  | divZero
  | cellMismatch
  | oddLength
  deriving DecidableEq, Repr

/-- `DETAIL` of an `EncodeError` (R264). -/
inductive EncodeDetail where
  | emptyBuffer
  | badLenid
  deriving DecidableEq, Repr

/-- The field identifiers of R265, in the order of their codes 1 to 37. -/
inductive FieldId where
  | lead
  | packs
  | extra
  | cells
  | vcell
  | temps
  | tcell
  | ipack
  | vpack
  | rem
  | rsvd
  | full
  | soc
  | cycles
  | design
  | soh
  | trail
  | flag
  | version
  | bmsSn
  | packSn
  | cellsw
  | cellw
  | tempsw
  | tempw
  | chgw
  | vtotw
  | dsgw
  | prot1
  | prot2
  | instr
  | ctrl
  | fault
  | bal1
  | bal2
  | warn1
  | warn2
  deriving DecidableEq, Repr

/-- The error outcomes `Err(kind, detail[, field])` (R260, R261). Combinations the spec never produces are not
inhabitants (93_implementation_defined.md I8). -/
inductive OpError where
  | framing (d : FramingDetail)
  | checksum (d : ChecksumDetail)
  | protocol (r : RtnCode)
  | decode (d : DecodeDetail) (f : FieldId)
  | encode (d : EncodeDetail)
  | illegalOp (code : BitVec 4)
  deriving DecidableEq, Repr

/-- `STATUS` (10_state.md R28). -/
structure Status where
  busy   : Bool
  done   : Bool
  kind   : BitVec 3
  detail : BitVec 8
  field  : BitVec 6
  deriving DecidableEq, Repr

/-- The working registers (10_state.md R23, R24). The host cannot read them; every operation that reads one has written
it first. -/
structure Work where
  /-- `CUR`, the payload cursor. -/
  cur       : BitVec 12
  /-- `ACC`, the checksum accumulator, the running sum mod 65536. -/
  acc       : BitVec 16
  packs     : BitVec 8
  /-- `P`, the 1-based index of the pack being decoded. -/
  p         : BitVec 8
  cells     : BitVec 8
  cellsPrev : BitVec 8
  temps     : BitVec 8
  vmin      : BitVec 16
  vmax      : BitVec 16
  deriving DecidableEq, Repr

/-- Group CK (10_state.md R31). -/
structure CkGroup where
  val : BitVec 16
  txt : Chars4
  deriving DecidableEq, Repr

/-- Group LCK (R31). -/
structure LckGroup where
  val : BitVec 4
  txt : Octet
  deriving DecidableEq, Repr

/-- Group ID_VER (R33). -/
structure VersionGroup where
  version    : Text
  versionLen : BitVec 11
  deriving DecidableEq, Repr

/-- Group ID_SN (R33). -/
structure SerialGroup where
  bmsSn     : Text
  bmsSnLen  : BitVec 4
  packSn    : Text
  packSnLen : BitVec 4
  deriving DecidableEq, Repr

/-- One `PackAnalogRecord` of group ANALOG (R34). `tcell` and `ipack` are two's complement. -/
structure AnalogRec where
  cells  : BitVec 8
  vcell  : List (BitVec 16)
  vdiff  : BitVec 16
  temps  : BitVec 8
  tcell  : List (BitVec 17)
  ipack  : BitVec 16
  vpack  : BitVec 16
  rem    : BitVec 20
  full   : BitVec 20
  cycles : BitVec 16
  design : BitVec 20
  soc    : BitVec 30
  soh    : BitVec 30
  deriving DecidableEq, Repr

/-- Group ANALOG (R34): `A_PACKS` and the records of packs 1 to `A_PACKS`, in order. -/
structure AnalogGroup where
  packs : BitVec 8
  recs  : List AnalogRec
  deriving DecidableEq, Repr

/-- Group CAP (R35). -/
structure CapGroup where
  rem    : BitVec 20
  full   : BitVec 20
  design : BitVec 20
  soc    : BitVec 30
  soh    : BitVec 30
  deriving DecidableEq, Repr

/-- `SRC` of a flag-list entry, in the order of its codes 1 to 12 (44_warnings.md R240). -/
inductive FlagSrc where
  | cell
  | temp
  | chg
  | vtot
  | dsg
  | prot1
  | prot2
  | instr
  | ctrl
  | fault
  | warn1
  | warn2
  deriving DecidableEq, Repr

/-- A flag-list entry `(SRC, IDX, CODE)` (R240). -/
structure FlagEntry where
  src  : FlagSrc
  idx  : BitVec 8
  code : BitVec 8
  deriving DecidableEq, Repr

/-- The eleven status booleans of a pack (10_state.md R36; 44_warnings.md R242). -/
structure WarnBools where
  short : Bool
  odc   : Bool
  occ   : Bool
  fully : Bool
  clim  : Bool
  cfet  : Bool
  dfet  : Bool
  ind   : Bool
  rev   : Bool
  acin  : Bool
  heart : Bool
  deriving DecidableEq, Repr

/-- One `WarnRecord` of group WARN (R36). -/
structure WarnRec where
  flags : List FlagEntry
  chg   : BitVec 8
  vtot  : BitVec 8
  dsg   : BitVec 8
  prot1 : BitVec 8
  prot2 : BitVec 8
  instr : BitVec 8
  ctrl  : BitVec 8
  fault : BitVec 8
  bal1  : BitVec 8
  bal2  : BitVec 8
  warn1 : BitVec 8
  warn2 : BitVec 8
  bools : WarnBools
  deriving DecidableEq, Repr

/-- Group WARN (R36): `W_PACKS` and the records of packs 1 to `W_PACKS`, in order. -/
structure WarnGroup where
  packs : BitVec 8
  recs  : List WarnRec
  deriving DecidableEq, Repr

/-- The state of the block. An invalid result group is `none`: it "holds no value" (R30). -/
structure State where
  /-- The parameters the block was built with (70_reset_and_hazards.md R306). -/
  cfg        : Params
  /-- `OP` (R21). -/
  op         : BitVec 4
  /-- The value of `OP` latched at `START` (60_exceptions.md R269). -/
  opLatched  : BitVec 4
  ver        : Chars2
  adr        : Chars2
  cid1       : Chars2
  cid2       : Chars2
  lenidOvrEn : Bool
  lenidOvr   : Chars3
  larg       : Chars3
  /-- `RAW` (R25). -/
  raw        : Memory
  rawLen     : BitVec 13
  /-- `INFO` (R26). -/
  info       : Memory
  infoLen    : BitVec 12
  work       : Work
  status     : Status
  /-- `RTN_LATCH` (R29). -/
  rtnLatch   : Chars2
  ck         : Option CkGroup
  lck        : Option LckGroup
  idVer      : Option VersionGroup
  idSn       : Option SerialGroup
  analog     : Option AnalogGroup
  cap        : Option CapGroup
  warn       : Option WarnGroup
  deriving DecidableEq, Repr

/-- Working registers at reset: the spec leaves them unspecified (R40). DESIGN CHOICE zero, unsafe: assumption log 3. -/
def Work.reset : Work where
  cur       := 0
  acc       := 0
  packs     := 0
  p         := 0
  cells     := 0
  cellsPrev := 0
  temps     := 0
  vmin      := 0
  vmax      := 0

/-- `STATUS` at reset (R28, R40). -/
def Status.reset : Status where
  busy   := false
  done   := false
  kind   := 0
  detail := 0
  field  := 0

/-- The reset of a block built with the parameters `cfg` (R40, R300). The registers R40 calls unspecified hold zero octets:
DESIGN CHOICE, unsafe, assumption log 3. No buffer octet has a value (assumption log 4). -/
def State.resetWith (cfg : Params) : State where
  cfg        := cfg
  op         := 0
  opLatched  := 0
  ver        := ⟨0, 0⟩
  adr        := ⟨0, 0⟩
  cid1       := ⟨0, 0⟩
  cid2       := ⟨0, 0⟩
  lenidOvrEn := false
  lenidOvr   := ⟨0, 0, 0⟩
  larg       := ⟨0, 0, 0⟩
  raw        := Memory.empty
  rawLen     := 0
  info       := Memory.empty
  infoLen    := 0
  work       := Work.reset
  status     := Status.reset
  rtnLatch   := ⟨0, 0⟩
  ck         := none
  lck        := none
  idVer      := none
  idSn       := none
  analog     := none
  cap        := none
  warn       := none

/-- The machine right after reset (R300), with the parameters of assumption log 1. -/
def State.reset : State := State.resetWith defaultParams

end Sys2Proof.Machine
end

