-- ==== Sys2Proof/Machine/Flags.lean ====
section
/-! DEFINITION. Every value `STATUS` can be given (10_state.md R28): the numeric codes of 60_exceptions.md R261 to R266, and
the source codes of a flag-list entry (44_warnings.md R240). -/

namespace Sys2Proof.Machine

/-- `DETAIL` of a `FramingError` (R262). -/
def framingCode (d : FramingDetail) : BitVec 8 :=
  match d with
  | .badSoi => 1
  | .truncated => 2
  | .badLenid => 3

/-- `DETAIL` of a `ChecksumError` (R263). -/
def checksumCode (d : ChecksumDetail) : BitVec 8 :=
  match d with
  | .lchksum => 1
  | .chksum => 2

/-- `DETAIL` of a `ProtocolError`: the numeric value of the RTN code (R263; 30_encoding.md R105). -/
def rtnDetail (r : RtnCode) : BitVec 8 :=
  match r with
  | .rtn01 => 1
  | .rtn02 => 2
  | .rtn03 => 3
  | .rtn04 => 4
  | .rtn05 => 5
  | .rtn06 => 6
  | .rtn09 => 9

/-- `DETAIL` of a `DecodeError` (R264). -/
def decodeCode (d : DecodeDetail) : BitVec 8 :=
  match d with
  | .overrun => 1
  | .badHex => 2
  | .divZero => 3
  | .cellMismatch => 4
  | .oddLength => 5

/-- `DETAIL` of an `EncodeError` (R264). -/
def encodeCode (d : EncodeDetail) : BitVec 8 :=
  match d with
  | .emptyBuffer => 1
  | .badLenid => 2

/-- `FIELD`, the code of a field identifier (R265). -/
def fieldCode (f : FieldId) : BitVec 6 :=
  match f with
  | .lead => 1
  | .packs => 2
  | .extra => 3
  | .cells => 4
  | .vcell => 5
  | .temps => 6
  | .tcell => 7
  | .ipack => 8
  | .vpack => 9
  | .rem => 10
  | .rsvd => 11
  | .full => 12
  | .soc => 13
  | .cycles => 14
  | .design => 15
  | .soh => 16
  | .trail => 17
  | .flag => 18
  | .version => 19
  | .bmsSn => 20
  | .packSn => 21
  | .cellsw => 22
  | .cellw => 23
  | .tempsw => 24
  | .tempw => 25
  | .chgw => 26
  | .vtotw => 27
  | .dsgw => 28
  | .prot1 => 29
  | .prot2 => 30
  | .instr => 31
  | .ctrl => 32
  | .fault => 33
  | .bal1 => 34
  | .bal2 => 35
  | .warn1 => 36
  | .warn2 => 37

/-- `STATUS` at a successful end (R271). -/
def okStatus : Status where
  busy   := false
  done   := true
  kind   := 0
  detail := 0
  field  := 0

/-- `STATUS` at an end with a given kind, detail and field (R270). -/
def errStatusOf (kind : BitVec 3) (detail : BitVec 8) (field : BitVec 6) : Status where
  busy   := false
  done   := true
  kind   := kind
  detail := detail
  field  := field

/-- `STATUS` at an end with an error (R261 to R266, R270); `FIELD` is 0 for every kind but `DecodeError`. -/
def errStatus (e : OpError) : Status :=
  match e with
  | .framing d => errStatusOf 1 (framingCode d) 0
  | .checksum d => errStatusOf 2 (checksumCode d) 0
  | .protocol r => errStatusOf 3 (rtnDetail r) 0
  | .decode d f => errStatusOf 4 (decodeCode d) (fieldCode f)
  | .encode d => errStatusOf 5 (encodeCode d) 0
  | .illegalOp c => errStatusOf 6 (c.setWidth 8) 0

/-- The code 1 to 12 of a flag-list source (44_warnings.md R240). -/
def flagSrcCode (s : FlagSrc) : Nat :=
  match s with
  | .cell => 1
  | .temp => 2
  | .chg => 3
  | .vtot => 4
  | .dsg => 5
  | .prot1 => 6
  | .prot2 => 7
  | .instr => 8
  | .ctrl => 9
  | .fault => 10
  | .warn1 => 11
  | .warn2 => 12

end Sys2Proof.Machine
end

