-- ==== Sys2Proof/Machine/Ops.lean ====
section
/-! DEFINITION. The operations every meaning is built from: buffer reads (00_scope.md R11; 20_memory.md R59), the steps of one
operation over the working registers, the start (60_exceptions.md R269), the successful end (R271) and the error entry (R270).
There is no return from an error: "There is nothing to return from" (R272). -/

namespace Sys2Proof.Machine

/-- `len(B)`: the length register of a buffer (R9, R25, R26). -/
def bufLen (b : Buffer) (s : State) : Nat :=
  match b with
  | .raw => s.rawLen.toNat
  | .info => s.infoLen.toNat

/-- The octets held for a buffer. -/
def bufMem (b : Buffer) (s : State) : Memory :=
  match b with
  | .raw => s.raw
  | .info => s.info

/-- `B[i]`, if it has a value: an octet at or beyond the length has none (R25, R59). -/
def octetAt (b : Buffer) (s : State) (i : Nat) : Option Octet :=
  if i < bufLen b s then (bufMem b s).read i else none

/-- A buffer replaced whole by a text, its length the text's (R30, R32): what `ENCODE_REQ` and `DECODE_RESP` write at their end,
and what a host write of a text does once it is allowed. Its callers give it no text longer than the buffer. -/
def putText (b : Buffer) (t : Text) (s : State) : State :=
  match b with
  | .raw => { s with raw := Memory.ofText t, rawLen := BitVec.ofNat 13 t.length }
  | .info => { s with info := Memory.ofText t, infoLen := BitVec.ofNat 12 t.length }

/-- `MemRead(B, a, n)`: the octets `B[a..a+n)` (R11); a position without a value faults (assumption log 4). -/
def memRead (b : Buffer) (s : State) (a n : Nat) : Except Fault Text :=
  match n with
  | 0 => .ok []
  | n + 1 =>
    match octetAt b s a with
    | none => .error (.noOctet b a)
    | some o =>
      match memRead b s (a + 1) n with
      | .error f => .error f
      | .ok t => .ok (o :: t)

/-- The whole valid content `B[0..len(B))` of a buffer. -/
def bufText (b : Buffer) (s : State) : Except Fault Text := memRead b s 0 (bufLen b s)

/-- How a part of an operation ends: with a value, with `raise e`, or stopped; with the working registers as it left
them. -/
inductive Res (α : Type) where
  | ok (a : α) (k : Work)
  | err (e : OpError) (k : Work)
  | fault (f : Fault)
  deriving DecidableEq, Repr

/-- A part of an operation: it reads and writes working registers only (10_state.md R23). What it reads beside them, the
operands, does not change while it runs (20_memory.md R65). -/
abbrev Walk (α : Type) := Work → Res α

/-- A value, nothing done. -/
def Walk.done {α : Type} (a : α) : Walk α := fun k => .ok a k

/-- `raise e` (R11): nothing after it executes. -/
def Walk.raise {α : Type} (e : OpError) : Walk α := fun k => .err e k

/-- One part after another; an error or a stop of the first ends both. -/
def Walk.andThen {α β : Type} (m : Walk α) (f : α → Walk β) : Walk β := fun k =>
  match m k with
  | .ok a k => f a k
  | .err e k => .err e k
  | .fault r => .fault r

/-- Writes working registers. -/
def Walk.set (g : Work → Work) : Walk Unit := fun k => .ok () (g k)

/-- `MemRead` as a part of an operation. -/
def fetchText (b : Buffer) (s : State) (a n : Nat) : Walk Text := fun k =>
  match memRead b s a n with
  | .ok t => .ok t k
  | .error f => .fault f

/-- A result group becomes invalid (R30). Groups FRAME and RESP are a buffer with its length: the length becomes 0 (R32)
and no octet keeps a value (R25, R32; assumption log 8). -/
def invalidate (g : Group) (s : State) : State :=
  match g with
  | .ck => { s with ck := none }
  | .lck => { s with lck := none }
  | .frame => { s with raw := Memory.empty, rawLen := 0 }
  | .resp => { s with info := Memory.empty, infoLen := 0 }
  | .idVer => { s with idVer := none }
  | .idSn => { s with idSn := none }
  | .analog => { s with analog := none }
  | .cap => { s with cap := none }
  | .warn => { s with warn := none }

/-- TAKING AN ERROR, `raise Kind(detail[, field])` (R270): `STATUS` holds the error, `BUSY = 0`, `DONE = 1`; the result group
of the running operation becomes invalid; nothing else changes. -/
def raiseErr (g : Group) (e : OpError) (s : State) : State :=
  invalidate g { s with status := errStatus e }

/-- The error of a start with a reserved code (R266): no result group and no buffer is changed. -/
def raiseIllegal (code : BitVec 4) (s : State) : State :=
  { s with status := errStatus (.illegalOp code) }

/-- The successful end (R271). -/
def finishOk (s : State) : State := { s with status := okStatus }

/-- The end of an operation whose result group is `g`: on a value `STATUS <- Ok` and `commit` writes the group, in the same
transition (R271); on an error R270. -/
def conclude {α : Type} (g : Group) (s : State) (r : Res α) (commit : α → State → State) :
    Host.Outcome State Fault Refusal :=
  match r with
  | .ok a k => .next (commit a (finishOk { s with work := k }))
  | .err e k => .next (raiseErr g e { s with work := k })
  | .fault f => .fault f

/-- `START` (R269): `OP` is latched, `DONE <- 0`, `BUSY <- 1`. -/
def startOp (s : State) : State :=
  { s with opLatched := s.op, status := { s.status with busy := true, done := false } }

/-- The operation the latched code selects (20_memory.md R67). -/
def fetchOp (s : State) : Except Reject Instr := decode s.opLatched

end Sys2Proof.Machine
end

