-- ==== Sys2Proof/Machine/Operands.lean ====
section
/-! DEFINITION. The operand forms: hex digits and fields (40_primitives_checksums.md R120 to R124; 20_memory.md R55, R56) and
the three field primitives at the cursor (R126 to R128). -/

namespace Sys2Proof.Machine

/-- `HexVal(c)` (R120); `lower` is `HEX_LOWER`. -/
def hexVal (lower : Bool) (c : Octet) : Option Nat :=
  if 0x30 ≤ c.toNat ∧ c.toNat ≤ 0x39 then some (c.toNat - 0x30)
  else if 0x41 ≤ c.toNat ∧ c.toNat ≤ 0x46 then some (c.toNat - 0x41 + 10)
  else if 0x61 ≤ c.toNat ∧ c.toNat ≤ 0x66 then
    if lower then some (c.toNat - 0x61 + 10) else none
  else none

/-- `HexChar(v)`, `0 <= v <= 15`: the uppercase digit (R121). -/
def hexChar (v : Nat) : Octet :=
  if v ≤ 9 then BitVec.ofNat 8 (0x30 + v) else BitVec.ofNat 8 (0x41 + (v - 10))

/-- `HexToInt(s)` (R122): big-endian, none when a character has no digit value. -/
def hexToInt (lower : Bool) (t : Text) : Option Nat :=
  match t with
  | [] => some 0
  | c :: t =>
    match hexVal lower c, hexToInt lower t with
    | some d, some v => some (d * 16 ^ t.length + v)
    | _, _ => none

/-- `IntToHex(v, w)` (R123): `w` uppercase digits, most significant first. -/
def intToHex (v w : Nat) : Text :=
  match w with
  | 0 => []
  | w + 1 => hexChar ((v >>> (4 * w)) &&& 15) :: intToHex v w

/-- `HexPairs(s)` (R124, R56): high nibble first. Not defined for an odd length; callers check the length first. -/
def hexPairs (lower : Bool) (t : Text) : Option Text :=
  match t with
  | [] => some []
  | [_] => none
  | c :: d :: t =>
    match hexVal lower c, hexVal lower d, hexPairs lower t with
    | some h, some l, some r => some (BitVec.ofNat 8 (16 * h + l) :: r)
    | _, _, _ => none

/-- `CUR <- CUR + n` (R11, R24). -/
def advance (n : Nat) (k : Work) : Work :=
  { k with cur := BitVec.ofNat 12 (k.cur.toNat + n) }

/-- `PeekField(w, f)` (R127): the overrun test comes before the digit test (R126). -/
def peekField (s : State) (w : Nat) (f : FieldId) : Walk Nat := fun k =>
  if k.cur.toNat + w > s.infoLen.toNat then .err (.decode .overrun f) k
  else
    match memRead .info s k.cur.toNat w with
    | .error r => .fault r
    | .ok t =>
      match hexToInt s.cfg.hexLower t with
      | none => .err (.decode .badHex f) k
      | some v => .ok v k

/-- `ReadField(w, f)` (R126). -/
def readField (s : State) (w : Nat) (f : FieldId) : Walk Nat :=
  (peekField s w f).andThen fun v =>
  (Walk.set (advance w)).andThen fun _ =>
  Walk.done v

/-- `SkipField(w, f)` (R128): the skipped characters are not read. -/
def skipField (s : State) (w : Nat) (f : FieldId) : Walk Unit := fun k =>
  if k.cur.toNat + w > s.infoLen.toNat then .err (.decode .overrun f) k
  else .ok () (advance w k)

/-- `n` fields of one kind, in order. -/
def readFields (s : State) (w : Nat) (f : FieldId) (n : Nat) : Walk (List Nat) :=
  match n with
  | 0 => Walk.done []
  | n + 1 =>
    (readField s w f).andThen fun v =>
    (readFields s w f n).andThen fun vs =>
    Walk.done (v :: vs)

/-- The trailing info-flag heuristic (43_analog_capacity.md R214; 44_warnings.md R244): when characters remain, the two at
the cursor are peeked and passed over unless their value is this pack's `CELLS`. -/
def trailingFlag (s : State) : Walk Unit := fun k =>
  if k.cur.toNat < s.infoLen.toNat then
    ((peekField s countW .flag).andThen fun v k =>
      if v ≠ k.cells.toNat then skipField s skipW .flag k else .ok () k) k
  else .ok () k

end Sys2Proof.Machine
end

