-- ==== Sys2Proof/Machine/Arith.lean ====
section
/-! DEFINITION. The integer arithmetic of 40_primitives_checksums.md R130 to R136: exact, narrowed to the register's width
at the end; no result needs more than its register (R130). -/

namespace Sys2Proof.Machine

/-- Temperature in 0.1 °C: `raw − 2730`, exact and signed (R131), in a signed 17-bit register. -/
def tempOf (raw : Nat) : BitVec 17 := BitVec.ofInt 17 ((raw : Int) - 2730)

/-- `sext_16(raw)` (R132, R10). -/
def sext16 (raw : Nat) : Int := if raw ≤ 32767 then (raw : Int) else (raw : Int) - 65536

/-- Current in 0.01 A (R132), in a signed 16-bit register. -/
def currentOf (raw : Nat) : BitVec 16 := BitVec.ofInt 16 (sext16 raw)

/-- Capacity in mAh: `raw * 10` (R133). -/
def capacityOf (raw : Nat) : BitVec 20 := BitVec.ofNat 20 (raw * 10)

/-- `Pct(a, b)`, `b > 0`, in 0.01 %: the exact quotient `10000 * a / b` to the nearest integer, a tie as `ROUND_TIE`
says (R135). -/
def pct (tie : RoundTie) (a b : Nat) : Nat :=
  let n := 10000 * a
  let q := n / b
  let r := n % b
  if 2 * r < b then q
  else if 2 * r > b then q + 1
  else
    match tie with
    | .halfUp => q + 1
    | .halfEven => if q % 2 = 0 then q else q + 1

/-- A percentage of two raw values, or `DecodeError(DivZero, f)` before `Pct` is evaluated (R136). -/
def ratio (s : State) (f : FieldId) (a b : Nat) : Walk (BitVec 30) :=
  if b = 0 then Walk.raise (.decode .divZero f)
  else Walk.done (BitVec.ofNat 30 (pct s.cfg.roundTie a b))

/-- The running least and greatest cell voltage after one more voltage (R134); the first voltage sets both
(43_analog_capacity.md R200). -/
def noteVoltage (first : Bool) (v : Nat) (k : Work) : Work :=
  if first then { k with vmin := BitVec.ofNat 16 v, vmax := BitVec.ofNat 16 v }
  else
    { k with
      vmin := BitVec.ofNat 16 (min k.vmin.toNat v)
      vmax := BitVec.ofNat 16 (max k.vmax.toNat v) }

/-- `VMAX − VMIN`, and 0 for a pack without cells (R134). -/
def spread (k : Work) : BitVec 16 :=
  if 0 < k.cells.toNat then BitVec.ofNat 16 (k.vmax.toNat - k.vmin.toNat) else 0

end Sys2Proof.Machine
end

