-- ==== Sys2Proof/Machine/Checksum.lean ====
section
/-! DEFINITION. The two checksum functions and operations: `CHKSUM_CALC` (40_primitives_checksums.md R140 to R142) and
`LCHKSUM_CALC` (R145 to R147). -/

namespace Sys2Proof.Machine

/-- The sum of the octets' values. -/
def octetSum (t : Text) : Nat :=
  match t with
  | [] => 0
  | o :: t => o.toNat + octetSum t

/-- `S`: the octet at position 0 is never counted (R140). -/
def chksumSum (buf : Text) : Nat := octetSum buf.tail

/-- `val`: the sum reduced, complemented in 16 bits, plus 1, reduced (R140; 90_conflicts.md C1). -/
def chksumVal (buf : Text) : Nat := ((65535 - chksumSum buf % 65536) + 1) % 65536

/-- `txt`: four uppercase digits (R140, R157). -/
def chksumTxt (buf : Text) : Text := intToHex (chksumVal buf) 4

/-- `ChksumCalc(buf)` (R140), leaving the reduced sum in `ACC`; the empty buffer is unusable (R141). -/
def chksumCalc (buf : Text) : Walk (Nat × Text) :=
  match buf with
  | [] => Walk.raise (.encode .emptyBuffer)
  | _ :: _ =>
    (Walk.set fun k => { k with acc := BitVec.ofNat 16 (chksumSum buf) }).andThen fun _ =>
    Walk.done (chksumVal buf, chksumTxt buf)

/-- The first four octets of a text, as a register. -/
def chars4Of (t : Text) : Chars4 := ⟨t.getD 0 0, t.getD 1 0, t.getD 2 0, t.getD 3 0⟩

/-- `CHKSUM_CALC` (R141). -/
def execChksumCalc (s : State) : Host.Outcome State Fault Refusal :=
  conclude .ck s
    (((fetchText .raw s 0 s.rawLen.toNat).andThen chksumCalc) s.work)
    fun r t => { t with ck := some ⟨BitVec.ofNat 16 r.1, chars4Of r.2⟩ }

/-- The sum of the digit values, none when a character has no digit value (R145). -/
def digitSum (lower : Bool) (t : Text) : Option Nat :=
  match t with
  | [] => some 0
  | c :: t =>
    match hexVal lower c, digitSum lower t with
    | some d, some n => some (d + n)
    | _, _ => none

/-- The 4-bit complement of the reduced digit sum plus 1, reset to 0 when it exceeds 15 (R145). -/
def lchksumVal (sum : Nat) : Nat :=
  let c4 := (15 - sum % 16) + 1
  if c4 > 15 then 0 else c4

/-- `LchksumCalc(chars)` (R145): the value and its character; none when it fails. -/
def lchksumCalc (lower : Bool) (t : Text) : Option (Nat × Octet) :=
  match digitSum lower t with
  | none => none
  | some n => some (lchksumVal n, hexChar (lchksumVal n))

/-- `LCHKSUM_CALC` (R146). -/
def execLchksumCalc (s : State) : Host.Outcome State Fault Refusal :=
  conclude .lck s
    (match lchksumCalc s.cfg.hexLower s.larg.toList with
      | none => .err (.encode .badLenid) s.work
      | some r => .ok r s.work)
    fun r t => { t with lck := some ⟨BitVec.ofNat 4 r.1, r.2⟩ }

end Sys2Proof.Machine
end

