-- ==== Sys2Proof/Machine/Frame.lean ====
section
/-! DEFINITION. The frame operations `ENCODE_REQ` (41_frame_codec.md R150, R161 to R163) and `DECODE_RESP` (R151 to R159),
over the frame offset map of 20_memory.md R60. -/

namespace Sys2Proof.Machine

/-- SOI (30_encoding.md R81). -/
def soi : Octet := 0x7E

/-- EOI (R81). -/
def eoi : Octet := 0x0D

/-- The three LENID characters: the length of INFO, or the override verbatim (R150, R162). -/
def reqLenid (s : State) : Text :=
  if s.lenidOvrEn then s.lenidOvr.toList else intToHex s.infoLen.toNat 3

/-- The LCHKSUM character of a request: `0` for `"000"` (R163), else `LchksumCalc`; none when that fails. -/
def reqLchksum (lower : Bool) (lenid : Text) : Option Octet :=
  if lenid = [0x30, 0x30, 0x30] then some 0x30
  else (lchksumCalc lower lenid).map Prod.snd

/-- `body` of R150: VER through INFO. -/
def reqBody (s : State) (lchk : Octet) (info : Text) : Text :=
  s.ver.toList ++ s.adr.toList ++ s.cid1.toList ++ s.cid2.toList ++ [lchk] ++ reqLenid s ++ info

/-- The frame `ENCODE_REQ` builds (R150): SOI stands at index 0 of what is summed and is not counted (90_conflicts.md C9). -/
def encodeReqWalk (s : State) : Walk Text :=
  match reqLchksum s.cfg.hexLower (reqLenid s) with
  | none => Walk.raise (.encode .badLenid)
  | some lchk =>
    (fetchText .info s 0 s.infoLen.toNat).andThen fun info =>
    (chksumCalc (soi :: reqBody s lchk info)).andThen fun r =>
    Walk.done (soi :: reqBody s lchk info ++ r.2 ++ [eoi])

/-- `ENCODE_REQ` (R150). -/
def execEncodeReq (s : State) : Host.Outcome State Fault Refusal :=
  conclude .frame s (encodeReqWalk s s.work) (putText .raw)

/-- The RTN table (30_encoding.md R105): the two characters are compared, never converted; any other pair is no error
(R106). -/
def rtnError (c : Chars2) : Option RtnCode :=
  if c.c0 = 0x30 then
    if c.c1 = 0x31 then some .rtn01
    else if c.c1 = 0x32 then some .rtn02
    else if c.c1 = 0x33 then some .rtn03
    else if c.c1 = 0x34 then some .rtn04
    else if c.c1 = 0x35 then some .rtn05
    else if c.c1 = 0x36 then some .rtn06
    else if c.c1 = 0x39 then some .rtn09
    else none
  else none

/-- One octet of `RAW` as a part of an operation. -/
def fetchRaw (s : State) (i : Nat) : Walk Octet := fun k =>
  match octetAt .raw s i with
  | none => .fault (.noOctet .raw i)
  | some o => .ok o k

/-- Step 1 (R151) and the RTN pair `RAW[7..9)` of step 2 (R153). -/
def respHead (s : State) : Walk Chars2 :=
  if s.rawLen.toNat = 0 then Walk.raise (.framing .badSoi)
  else
    (fetchRaw s 0).andThen fun o =>
    if o ≠ soi then Walk.raise (.framing .badSoi)
    else if s.rawLen.toNat < 13 then Walk.raise (.framing .truncated)
    else
      (fetchRaw s 7).andThen fun c0 =>
      (fetchRaw s 8).andThen fun c1 =>
      Walk.done ⟨c0, c1⟩

/-- Steps 4 and 5 (R155 to R157): the INFO field of a frame whose length word says `n`. The sum's range is measured from
the end of the buffer (R156; 20_memory.md R63); the last octet is not inspected (R158). -/
def respInfo (s : State) (n : Nat) : Walk Text :=
  if 13 + n + 5 > s.rawLen.toNat then Walk.raise (.framing .truncated)
  else
    (fetchText .raw s 13 n).andThen fun info =>
    (fetchText .raw s (13 + n) 4).andThen fun rx =>
    (fetchText .raw s 0 (s.rawLen.toNat - 5)).andThen fun summed =>
    (chksumCalc summed).andThen fun r =>
    if rx ≠ r.2 then Walk.raise (.checksum .chksum)
    else Walk.done info

/-- Step 3 (R154), then steps 4 and 5: `RAW[9]` is compared as a character with the character `LchksumCalc` produced. -/
def respTail (s : State) (rtn : Chars2) : Walk Text :=
  match rtnError rtn with
  | some code => Walk.raise (.protocol code)
  | none =>
    (fetchText .raw s 10 3).andThen fun lenid =>
    match lchksumCalc s.cfg.hexLower lenid, hexToInt s.cfg.hexLower lenid with
    | some r, some n =>
      (fetchRaw s 9).andThen fun o =>
      if o ≠ r.2 then Walk.raise (.checksum .lchksum)
      else respInfo s n
    | _, _ => Walk.raise (.framing .badLenid)

/-- `DECODE_RESP` (R152): `RTN_LATCH` is written as soon as step 1 has passed (R153), whatever the outcome. -/
def execDecodeResp (s : State) : Host.Outcome State Fault Refusal :=
  match respHead s s.work with
  | .err e k => .next (raiseErr .resp e { s with work := k })
  | .fault f => .fault f
  | .ok rtn k =>
    conclude .resp { s with rtnLatch := rtn } (respTail s rtn k) (putText .info)

end Sys2Proof.Machine
end

