-- ==== Sys2Proof/Machine/Identity.lean ====
section
/-! DEFINITION. The identity decoders `DEC_VERSION` (42_identity.md R181) and `DEC_SERIAL` (R183, R184). Neither uses the
cursor (R180). -/

namespace Sys2Proof.Machine

/-- The pairs of `INFO[a..a+n)` as octets, or `DecodeError(BadHex, f)`. -/
def readPairs (s : State) (a n : Nat) (f : FieldId) : Walk Text :=
  (fetchText .info s a n).andThen fun t =>
  match hexPairs s.cfg.hexLower t with
  | none => Walk.raise (.decode .badHex f)
  | some v => Walk.done v

/-- The version string (R181): spaces are kept. -/
def versionWalk (s : State) : Walk Text :=
  if s.infoLen.toNat % 2 = 1 then Walk.raise (.decode .oddLength .version)
  else readPairs s 0 s.infoLen.toNat .version

/-- `DEC_VERSION` (R181). -/
def execDecVersion (s : State) : Host.Outcome State Fault Refusal :=
  conclude .idVer s (versionWalk s s.work) fun v t =>
    { t with idVer := some ⟨v, BitVec.ofNat 11 (s.infoLen.toNat / 2)⟩ }

/-- `RemoveSpaces(s)`: every octet 0x20, wherever it stands, and no other (R184). -/
def removeSpaces (t : Text) : Text := t.filter fun o => decide (o ≠ 0x20)

/-- The two serials, decoded (R183): every check of the BMS serial before any of the pack serial. -/
def serialWalk (s : State) : Walk (Text × Text) :=
  if s.infoLen.toNat < 30 then Walk.raise (.decode .overrun .bmsSn)
  else
    (readPairs s 0 30 .bmsSn).andThen fun b =>
    if s.infoLen.toNat < 68 then Walk.raise (.decode .overrun .packSn)
    else
      (readPairs s 40 28 .packSn).andThen fun p =>
      Walk.done (removeSpaces b, removeSpaces p)

/-- `DEC_SERIAL` (R183). -/
def execDecSerial (s : State) : Host.Outcome State Fault Refusal :=
  conclude .idSn s (serialWalk s s.work) fun r t =>
    { t with idSn := some ⟨r.1, BitVec.ofNat 4 r.1.length, r.2, BitVec.ofNat 4 r.2.length⟩ }

end Sys2Proof.Machine
end

