-- ==== Sys2Proof/Machine/Analog.lean ====
section
/-! DEFINITION. `DEC_ANALOG` (43_analog_capacity.md R200 to R215) and `DEC_CAPACITY` (R220). -/

namespace Sys2Proof.Machine

/-- `CELLS <- PeekField(2, F_CELLS)`. -/
def peekCells (s : State) : Walk Unit :=
  (peekField s countW .cells).andThen fun c =>
  Walk.set fun k => { k with cells := BitVec.ofNat 8 c }

/-- The cell count of a pack, with the cell-count correction heuristic for packs after the first (R203); the cursor ends
past the count. -/
def analogHead (s : State) : Walk Unit :=
  (peekCells s).andThen fun _ =>
  Walk.andThen (fun k =>
    if 1 < k.p.toNat ∧ k.cells ≠ k.cellsPrev then
      ((skipField s skipW .extra).andThen fun _ =>
       (peekCells s).andThen fun _ k =>
       if k.cells ≠ k.cellsPrev then .err (.decode .cellMismatch .cells) k else .ok () k) k
    else .ok () k) fun _ =>
  skipField s countW .cells

/-- `n` cell voltages with the running minimum and maximum (R204, R134); `first` says that none has been read yet. -/
def readCells (s : State) (n : Nat) (first : Bool) : Walk (List (BitVec 16)) :=
  match n with
  | 0 => Walk.done []
  | n + 1 =>
    (readField s valW .vcell).andThen fun v =>
    (Walk.set (noteVoltage first v)).andThen fun _ =>
    (readCells s n false).andThen fun vs =>
    Walk.done (BitVec.ofNat 16 v :: vs)

/-- The cell voltages of a pack and their spread (R204). -/
def analogCells (s : State) : Walk (List (BitVec 16) × BitVec 16) :=
  Walk.andThen (fun k => readCells s k.cells.toNat true k) fun vs k =>
  .ok (vs, spread k) k

/-- The temperature count and temperatures of a pack (R205). -/
def analogTemps (s : State) : Walk (List (BitVec 17)) :=
  (readField s countW .temps).andThen fun n =>
  (Walk.set fun k => { k with temps := BitVec.ofNat 8 n }).andThen fun _ =>
  (readFields s valW .tcell n).andThen fun ts =>
  Walk.done (ts.map tempOf)

/-- One pack (R200). `DivZero` is raised as soon as the divisor has been read (R210, R212). -/
def analogPack (s : State) : Walk AnalogRec :=
  (analogHead s).andThen fun _ =>
  (analogCells s).andThen fun cv =>
  (analogTemps s).andThen fun ts =>
  (readField s valW .ipack).andThen fun ipack =>
  (readField s valW .vpack).andThen fun vpack =>
  (readField s valW .rem).andThen fun rem =>
  (skipField s skipW .rsvd).andThen fun _ =>
  (readField s valW .full).andThen fun full =>
  (ratio s .soc rem full).andThen fun soc =>
  (readField s valW .cycles).andThen fun cycles =>
  (readField s valW .design).andThen fun design =>
  (ratio s .soh full design).andThen fun soh =>
  (skipField s skipW .trail).andThen fun _ =>
  (trailingFlag s).andThen fun _ k =>
  .ok
    { cells := k.cells
      vcell := cv.1
      vdiff := cv.2
      temps := k.temps
      tcell := ts
      ipack := currentOf ipack
      vpack := BitVec.ofNat 16 vpack
      rem := capacityOf rem
      full := capacityOf full
      cycles := BitVec.ofNat 16 cycles
      design := capacityOf design
      soc := soc
      soh := soh }
    { k with cellsPrev := k.cells }

/-- Packs `p`, `p + 1`, …, `n` of them, in payload order (R202). -/
def analogPacks (s : State) (n p : Nat) : Walk (List AnalogRec) :=
  match n with
  | 0 => Walk.done []
  | n + 1 =>
    (Walk.set fun k => { k with p := BitVec.ofNat 8 p }).andThen fun _ =>
    (analogPack s).andThen fun r =>
    (analogPacks s n (p + 1)).andThen fun rs =>
    Walk.done (r :: rs)

/-- The start of a pack walk: the cursor at 0, the leading characters passed over, the pack count read (R201;
44_warnings.md R232). -/
def readPackCount (s : State) : Walk Nat :=
  (Walk.set fun k => { k with cur := 0 }).andThen fun _ =>
  (skipField s (leadChars s.cfg.leadSkip) .lead).andThen fun _ =>
  (readField s countW .packs).andThen fun n =>
  (Walk.set fun k => { k with packs := BitVec.ofNat 8 n }).andThen fun _ =>
  Walk.done n

/-- The whole walk of `DEC_ANALOG` (R200). -/
def analogWalk (s : State) : Walk AnalogGroup :=
  (readPackCount s).andThen fun n =>
  (analogPacks s n 1).andThen fun rs =>
  Walk.done ⟨BitVec.ofNat 8 n, rs⟩

/-- `DEC_ANALOG` (R200): the group is written whole at the end, or becomes invalid (R215, R270). -/
def execDecAnalog (s : State) : Host.Outcome State Fault Refusal :=
  conclude .analog s (analogWalk s s.work) fun g t => { t with analog := some g }

/-- The walk of `DEC_CAPACITY` (R220): all three fields are read before either percentage is derived. -/
def capacityWalk (s : State) : Walk CapGroup :=
  (Walk.set fun k => { k with cur := 0 }).andThen fun _ =>
  (readField s valW .rem).andThen fun rem =>
  (readField s valW .full).andThen fun full =>
  (readField s valW .design).andThen fun design =>
  (ratio s .soc rem full).andThen fun soc =>
  (ratio s .soh full design).andThen fun soh =>
  Walk.done ⟨capacityOf rem, capacityOf full, capacityOf design, soc, soh⟩

/-- `DEC_CAPACITY` (R220). -/
def execDecCapacity (s : State) : Host.Outcome State Fault Refusal :=
  conclude .cap s (capacityWalk s s.work) fun g t => { t with cap := some g }

end Sys2Proof.Machine
end

