-- ==== Sys2Proof/Machine/Warn.lean ====
section
/-! DEFINITION. `DEC_WARN` (44_warnings.md R231 to R245). -/

namespace Sys2Proof.Machine

/-- The entry of a code, if it is not zero (R234 to R237). -/
def codeEntry (src : FlagSrc) (idx : Nat) (code : Nat) : List FlagEntry :=
  if code ≠ 0 then [⟨src, BitVec.ofNat 8 idx, BitVec.ofNat 8 code⟩] else []

/-- `n` warning codes, the next at 1-based position `idx`; each non-zero one gives an entry (R234, R235). -/
def readCodes (s : State) (f : FieldId) (src : FlagSrc) (n idx : Nat) : Walk (List FlagEntry) :=
  match n with
  | 0 => Walk.done []
  | n + 1 =>
    (readField s codeW f).andThen fun code =>
    (readCodes s f src n (idx + 1)).andThen fun es =>
    Walk.done (codeEntry src idx code ++ es)

/-- The entries of a decoded bitfield, by ascending bit, the index being the bit plus 1 (R238). -/
def bitEntries (src : FlagSrc) (v : Nat) : List FlagEntry :=
  [0, 1, 2, 3, 4, 5, 6, 7].flatMap fun x =>
    if v &&& (1 <<< x) ≠ 0 then [⟨src, BitVec.ofNat 8 (x + 1), 0⟩] else []

/-- `(rec.field >> bit) & 1` (R231, R242). -/
def boolAt (b : BitPos) (prot1 prot2 instr : Nat) : Bool :=
  let v :=
    match b.field with
    | .prot1 => prot1
    | .prot2 => prot2
    | .instr => instr
  decide ((v >>> b.bit.val) &&& 1 = 1)

/-- The eleven booleans, through `BOOL_MAP` (R242, R243). -/
def warnBools (m : BoolMap) (prot1 prot2 instr : Nat) : WarnBools where
  short := boolAt m.short prot1 prot2 instr
  odc   := boolAt m.odc prot1 prot2 instr
  occ   := boolAt m.occ prot1 prot2 instr
  fully := boolAt m.fully prot1 prot2 instr
  clim  := boolAt m.clim prot1 prot2 instr
  cfet  := boolAt m.cfet prot1 prot2 instr
  dfet  := boolAt m.dfet prot1 prot2 instr
  ind   := boolAt m.ind prot1 prot2 instr
  rev   := boolAt m.rev prot1 prot2 instr
  acin  := boolAt m.acin prot1 prot2 instr
  heart := boolAt m.heart prot1 prot2 instr

/-- The two counted lists of a pack (R234, R235); the cell-warning count is held in `CELLS`. -/
def warnLists (s : State) : Walk (List FlagEntry) :=
  (readField s countW .cellsw).andThen fun nc =>
  (Walk.set fun k => { k with cells := BitVec.ofNat 8 nc }).andThen fun _ =>
  (readCodes s .cellw .cell nc 1).andThen fun cs =>
  (readField s countW .tempsw).andThen fun nt =>
  (Walk.set fun k => { k with temps := BitVec.ofNat 8 nt }).andThen fun _ =>
  (readCodes s .tempw .temp nt 1).andThen fun ts =>
  Walk.done (cs ++ ts)

/-- One pack (R231). -/
def warnPack (s : State) : Walk WarnRec :=
  (warnLists s).andThen fun fl =>
  (readField s codeW .chgw).andThen fun chg =>
  (readField s codeW .vtotw).andThen fun vtot =>
  (readField s codeW .dsgw).andThen fun dsg =>
  (readField s codeW .prot1).andThen fun prot1 =>
  (readField s codeW .prot2).andThen fun prot2 =>
  (readField s codeW .instr).andThen fun instr =>
  (readField s codeW .ctrl).andThen fun ctrl =>
  (readField s codeW .fault).andThen fun fault =>
  (readField s codeW .bal1).andThen fun bal1 =>
  (readField s codeW .bal2).andThen fun bal2 =>
  (readField s codeW .warn1).andThen fun warn1 =>
  (readField s codeW .warn2).andThen fun warn2 =>
  (trailingFlag s).andThen fun _ =>
  Walk.done
    { flags :=
        fl ++ codeEntry .chg 0 chg ++ codeEntry .vtot 0 vtot ++ codeEntry .dsg 0 dsg ++
        bitEntries .prot1 prot1 ++ bitEntries .prot2 prot2 ++ bitEntries .instr instr ++
        bitEntries .ctrl ctrl ++ bitEntries .fault fault ++
        bitEntries .warn1 warn1 ++ bitEntries .warn2 warn2
      chg := BitVec.ofNat 8 chg
      vtot := BitVec.ofNat 8 vtot
      dsg := BitVec.ofNat 8 dsg
      prot1 := BitVec.ofNat 8 prot1
      prot2 := BitVec.ofNat 8 prot2
      instr := BitVec.ofNat 8 instr
      ctrl := BitVec.ofNat 8 ctrl
      fault := BitVec.ofNat 8 fault
      bal1 := BitVec.ofNat 8 bal1
      bal2 := BitVec.ofNat 8 bal2
      warn1 := BitVec.ofNat 8 warn1
      warn2 := BitVec.ofNat 8 warn2
      bools := warnBools s.cfg.boolMap prot1 prot2 instr }

/-- Packs `p`, `p + 1`, …, `n` of them, in payload order (R233): no correction heuristic (90_conflicts.md C8). -/
def warnPacks (s : State) (n p : Nat) : Walk (List WarnRec) :=
  match n with
  | 0 => Walk.done []
  | n + 1 =>
    (Walk.set fun k => { k with p := BitVec.ofNat 8 p }).andThen fun _ =>
    (warnPack s).andThen fun r =>
    (warnPacks s n (p + 1)).andThen fun rs =>
    Walk.done (r :: rs)

/-- The whole walk of `DEC_WARN` (R231, R232). -/
def warnWalk (s : State) : Walk WarnGroup :=
  (readPackCount s).andThen fun n =>
  (warnPacks s n 1).andThen fun rs =>
  Walk.done ⟨BitVec.ofNat 8 n, rs⟩

/-- `DEC_WARN` (R231): the group is written whole at the end, or becomes invalid (R245, R270). -/
def execDecWarn (s : State) : Host.Outcome State Fault Refusal :=
  conclude .warn s (warnWalk s s.work) fun g t => { t with warn := some g }

end Sys2Proof.Machine
end

