-- ==== Sys2Proof/Machine/Dispatch.lean ====
section
/-! DEFINITION. One arm per operation (spec 30_encoding.md R100). -/

namespace Sys2Proof.Machine

def exec (i : Instr) (s : State) : Host.Outcome State Fault Refusal :=
  match i with
  | .chksumCalc => Sys2Proof.Machine.execChksumCalc s
  | .lchksumCalc => Sys2Proof.Machine.execLchksumCalc s
  | .encodeReq => Sys2Proof.Machine.execEncodeReq s
  | .decodeResp => Sys2Proof.Machine.execDecodeResp s
  | .decVersion => Sys2Proof.Machine.execDecVersion s
  | .decSerial => Sys2Proof.Machine.execDecSerial s
  | .decAnalog => Sys2Proof.Machine.execDecAnalog s
  | .decCapacity => Sys2Proof.Machine.execDecCapacity s
  | .decWarn => Sys2Proof.Machine.execDecWarn s

end Sys2Proof.Machine
end

