-- ==== Sys2Proof/Machine/Step.lean ====
section
/-! DEFINITION. One step of the machine: the host's `START` and the operation it starts, run to its end as one transition
(spec 60_exceptions.md R269; 20_memory.md R65, R67; assumption log 6). -/

namespace Sys2Proof.Machine

/-- `START`: no move while `BUSY = 1` (R269); `OP` is latched; a reserved code ends at once with `IllegalOp` (R101, R266);
any other runs its operation. -/
def step (s : State) : Host.Outcome State Fault Refusal :=
  if s.status.busy then .fault .startWhileBusy
  else
    match fetchOp (startOp s) with
    | .error (.reservedOp code) => .next (raiseIllegal code (startOp s))
    | .ok i => exec i (startOp s)

/-- The host has written the code to `OP` and the block is idle, so the very next step runs that operation (assumption
log 6). -/
def State.withFetchWord (s : State) (nbits w : Nat) : State :=
  { s with op := opOfTableWord nbits w, status := { s.status with busy := false } }

end Sys2Proof.Machine
end

