-- ==== Sys2Proof/Machine/HostPort.lean ====
section
/-! DEFINITION. The host's accesses beside `START` (spec 10_state.md R20, R21, R30; 60_exceptions.md R280, R294;
70_reset_and_hazards.md R300, R301, R321; assumption log 14). They are moves of the host between two operations, no part of
`step`. The host's accesses are `hostWrite`, the functions `hostRead…` and `hostReset`, and no others. -/

namespace Sys2Proof.Machine

/-- What the host may write: operand registers, buffer octets and buffer lengths (R21, R25, R26, R280). -/
inductive HostWrite where
  | op (v : BitVec 4)
  | ver (c : Chars2)
  | adr (c : Chars2)
  | cid1 (c : Chars2)
  | cid2 (c : Chars2)
  | lenidOvrEn (b : Bool)
  | lenidOvr (c : Chars3)
  | larg (c : Chars3)
  | octet (b : Buffer) (pos : Nat) (v : Octet)
  | length (b : Buffer) (n : Nat)
  /-- A buffer and its length together: the octets of a text and their number (60_exceptions.md R291, R294). -/
  | text (b : Buffer) (t : Text)
  deriving DecidableEq, Repr

/-- The size of a buffer: `RAW_MAX` or `INFO_MAX` (00_scope.md R6). -/
def bufMax (b : Buffer) : Nat :=
  match b with
  | .raw => rawMax
  | .info => infoMax

/-- One octet of a buffer written; the length is a register of its own. -/
def writeOctet (b : Buffer) (pos : Nat) (v : Octet) (s : State) : State :=
  match b with
  | .raw => { s with raw := s.raw.write pos v }
  | .info => { s with info := s.info.write pos v }

/-- A length written: octets at and beyond it have no value (R25; assumption log 9). -/
def writeLength (b : Buffer) (n : Nat) (s : State) : State :=
  match b with
  | .raw => { s with raw := s.raw.truncate n, rawLen := BitVec.ofNat 13 n }
  | .info => { s with info := s.info.truncate n, infoLen := BitVec.ofNat 12 n }

/-- A host write (R21, R280): no move while `BUSY = 1` (R66, R321), none to a position the buffer does not have and none that
would give it a length beyond `RAW_MAX` or `INFO_MAX` (R294; assumption log 13). -/
def hostWrite (w : HostWrite) (s : State) : Host.Outcome State Fault Refusal :=
  if s.status.busy then .fault .hostWhileBusy
  else
    match w with
    | .op v => .next { s with op := v }
    | .ver c => .next { s with ver := c }
    | .adr c => .next { s with adr := c }
    | .cid1 c => .next { s with cid1 := c }
    | .cid2 c => .next { s with cid2 := c }
    | .lenidOvrEn b => .next { s with lenidOvrEn := b }
    | .lenidOvr c => .next { s with lenidOvr := c }
    | .larg c => .next { s with larg := c }
    | .octet b pos v =>
      if pos < bufMax b then .next (writeOctet b pos v s) else .fault (.noSuchPosition b pos)
    | .length b n =>
      if n ≤ bufMax b then .next (writeLength b n s) else .fault (.noSuchPosition b n)
    | .text b t =>
      if t.length ≤ bufMax b then .next (putText b t s) else .fault (.noSuchPosition b t.length)

/-- The registers the host reads while `BUSY = 0`: the operand registers and the two lengths (R21, R280). No working register
is among them (R23). -/
inductive OperandReg where
  | op
  | ver
  | adr
  | cid1
  | cid2
  | lenidOvrEn
  | lenidOvr
  | larg
  | rawLen
  | infoLen
  deriving DecidableEq, Repr

/-- What such a register holds, by its kind. -/
inductive OperandVal where
  | code (v : BitVec 4)
  | pair (c : Chars2)
  | triple (c : Chars3)
  | enable (b : Bool)
  | rawLength (n : BitVec 13)
  | infoLength (n : BitVec 12)
  deriving DecidableEq, Repr

/-- The value a register of the list holds. -/
def operandVal (r : OperandReg) (s : State) : OperandVal :=
  match r with
  | .op => .code s.op
  | .ver => .pair s.ver
  | .adr => .pair s.adr
  | .cid1 => .pair s.cid1
  | .cid2 => .pair s.cid2
  | .lenidOvrEn => .enable s.lenidOvrEn
  | .lenidOvr => .triple s.lenidOvr
  | .larg => .triple s.larg
  | .rawLen => .rawLength s.rawLen
  | .infoLen => .infoLength s.infoLen

/-- A host read of an operand register or of a length: only while `BUSY = 0` (R21, R280). -/
def hostReadOperand (r : OperandReg) (s : State) : Except Fault OperandVal :=
  if s.status.busy then .error .hostWhileBusy else .ok (operandVal r s)

/-- A host read of a buffer octet, only while `BUSY = 0` (R280): one without a value faults (93_implementation_defined.md I9,
I10). -/
def hostReadOctet (b : Buffer) (pos : Nat) (s : State) : Except Fault Octet :=
  if s.status.busy then .error .hostWhileBusy
  else
    match octetAt b s pos with
    | none => .error (.noOctet b pos)
    | some o => .ok o

/-- A host read of `STATUS` (R28, R280): at any time. -/
def hostReadStatus (s : State) : Except Fault Status := .ok s.status

/-- A host read of `RTN_LATCH` (R29, R280). -/
def hostReadRtnLatch (s : State) : Except Fault Chars2 := .ok s.rtnLatch

/-- The contents of a result group, or the fault of one that is invalid (R30; assumption log 7). No host access itself: the
seven below are. -/
def validGroup {α : Type} (g : Group) (v : Option α) : Except Fault α :=
  match v with
  | none => .error (.invalidGroup g)
  | some a => .ok a

def hostReadCk (s : State) : Except Fault CkGroup := validGroup .ck s.ck

def hostReadLck (s : State) : Except Fault LckGroup := validGroup .lck s.lck

def hostReadVersion (s : State) : Except Fault VersionGroup := validGroup .idVer s.idVer

def hostReadSerial (s : State) : Except Fault SerialGroup := validGroup .idSn s.idSn

def hostReadAnalog (s : State) : Except Fault AnalogGroup := validGroup .analog s.analog

def hostReadCap (s : State) : Except Fault CapGroup := validGroup .cap s.cap

def hostReadWarn (s : State) : Except Fault WarnGroup := validGroup .warn s.warn

/-- The reset event (R300, R301), at any time: the parameters are the block's and stay (R306). -/
def hostReset (s : State) : State := State.resetWith s.cfg

end Sys2Proof.Machine
end

