-- ==== Sys2Proof/Safety.lean ====
section
/-! DEFINITION. What counts as a safe state and a safe run, in the terms the statements use: the invariant of the block between
two operations, read from the ranges and counts of spec 10_state.md and the code tables of 60_exceptions.md. -/

namespace Sys2Proof.Machine

/-- A buffer in good order: canonical, within its size, its length within its size, and every octet below the length with
a value (the host's duty, 60_exceptions.md R294). -/
abbrev BufferInv (b : Buffer) (s : State) : Prop :=
  (bufMem b s).wf ∧ (∀ c ∈ bufMem b s, c.1 < bufMax b) ∧ bufLen b s ≤ bufMax b ∧
    ∀ i < bufLen b s, ((bufMem b s).read i).isSome = true

/-- The combinations of `DETAIL` and `FIELD` a `DecodeError` can have (60_exceptions.md R264; 42_identity.md R181, R183;
43_analog_capacity.md R216, R220; 44_warnings.md R245), as numbers of R264 and R265. -/
def decodeErrorLegal (detail field : Nat) : Bool :=
  match detail with
  | 1 => decide (1 ≤ field ∧ field ≤ 37 ∧ field ≠ 13 ∧ field ≠ 16 ∧ field ≠ 19)
  | 2 => decide (1 ≤ field ∧ field ≤ 37 ∧ field ≠ 1 ∧ field ≠ 3 ∧ field ≠ 11 ∧ field ≠ 13 ∧ field ≠ 16 ∧ field ≠ 17)
  | 3 => decide (field = 13 ∨ field = 16)
  | 4 => decide (field = 4)
  | 5 => decide (field = 19)
  | _ => false

/-- The values `KIND`, `DETAIL`, `FIELD` can hold (60_exceptions.md R261 to R266): no other is ever produced
(93_implementation_defined.md I8). -/
def outcomeLegal (kind detail field : Nat) : Bool :=
  match kind with
  | 0 => decide (detail = 0 ∧ field = 0)
  | 1 => decide (1 ≤ detail ∧ detail ≤ 3 ∧ field = 0)
  | 2 => decide (1 ≤ detail ∧ detail ≤ 2 ∧ field = 0)
  | 3 => decide (((1 ≤ detail ∧ detail ≤ 6) ∨ detail = 9) ∧ field = 0)
  | 4 => decodeErrorLegal detail field
  | 5 => decide (1 ≤ detail ∧ detail ≤ 2 ∧ field = 0)
  | 6 => decide ((detail = 0 ∨ (10 ≤ detail ∧ detail ≤ 15)) ∧ field = 0)
  | _ => false

/-- `STATUS` between two operations: not busy, a legal outcome (R28, R65). -/
abbrev StatusInv (st : Status) : Prop :=
  st.busy = false ∧ outcomeLegal st.kind.toNat st.detail.toNat st.field.toNat = true

/-- A capacity triple with its percentages (10_state.md R34, R35): multiples of 10 mAh, full and design never 0, SOC and SOH the
rounded ratios (40_primitives_checksums.md R135). -/
abbrev CapacityInv (tie : RoundTie) (rem full design : BitVec 20) (soc soh : BitVec 30) : Prop :=
  rem.toNat % 10 = 0 ∧ rem.toNat ≤ 655350 ∧
  full.toNat % 10 = 0 ∧ 10 ≤ full.toNat ∧ full.toNat ≤ 655350 ∧
  design.toNat % 10 = 0 ∧ 10 ≤ design.toNat ∧ design.toNat ≤ 655350 ∧
  soc.toNat = pct tie (rem.toNat / 10) (full.toNat / 10) ∧ soc.toNat ≤ 655350000 ∧
  soh.toNat = pct tie (full.toNat / 10) (design.toNat / 10) ∧ soh.toNat ≤ 655350000

/-- A `PackAnalogRecord` (R34): the counts are the lengths of the lists, every value in its range. -/
abbrev AnalogRecInv (tie : RoundTie) (r : AnalogRec) : Prop :=
  r.vcell.length = r.cells.toNat ∧ r.tcell.length = r.temps.toNat ∧
  (∀ t ∈ r.tcell, -2730 ≤ t.toInt ∧ t.toInt ≤ 62805) ∧
  CapacityInv tie r.rem r.full r.design r.soc r.soh

/-- Group ANALOG (R34): one record per pack, all with the first pack's cell count (43_analog_capacity.md R203). -/
abbrev AnalogInv (tie : RoundTie) (g : AnalogGroup) : Prop :=
  g.recs.length = g.packs.toNat ∧ (∀ r ∈ g.recs, AnalogRecInv tie r) ∧
    ∀ r ∈ g.recs, ∀ q ∈ g.recs, r.cells = q.cells

/-- A `WarnRecord` (R36): at most 569 entries (44_warnings.md R240), every boolean the bit `BOOL_MAP` names (R242). -/
abbrev WarnRecInv (m : BoolMap) (r : WarnRec) : Prop :=
  r.flags.length ≤ 569 ∧ r.bools = warnBools m r.prot1.toNat r.prot2.toNat r.instr.toNat

/-- Group WARN (R36): one record per pack. -/
abbrev WarnInv (m : BoolMap) (g : WarnGroup) : Prop :=
  g.recs.length = g.packs.toNat ∧ ∀ r ∈ g.recs, WarnRecInv m r

/-- Group CK (R31): the text is the value in four digits. -/
abbrev CkInv (g : CkGroup) : Prop := g.txt.toList = intToHex g.val.toNat 4

/-- Group LCK (R31): the character is the digit of the value. -/
abbrev LckInv (g : LckGroup) : Prop := g.txt = hexChar g.val.toNat

/-- Group ID_VER (R33): the length register is the length, at most 2047. -/
abbrev VersionInv (g : VersionGroup) : Prop := g.versionLen.toNat = g.version.length

/-- Group ID_SN (R33): the length registers are the lengths, at most 15 and 14; no space is left (42_identity.md R184). -/
abbrev SerialInv (g : SerialGroup) : Prop :=
  g.bmsSnLen.toNat = g.bmsSn.length ∧ g.packSnLen.toNat = g.packSn.length ∧
  g.bmsSn.length ≤ 15 ∧ g.packSn.length ≤ 14 ∧ (0x20#8) ∉ g.bmsSn ∧ (0x20#8) ∉ g.packSn

/-- The block between two operations. -/
structure State.Inv (s : State) : Prop where
  raw    : BufferInv .raw s
  info   : BufferInv .info s
  status : StatusInv s.status
  ck     : ∀ g, s.ck = some g → CkInv g
  lck    : ∀ g, s.lck = some g → LckInv g
  idVer  : ∀ g, s.idVer = some g → VersionInv g
  idSn   : ∀ g, s.idSn = some g → SerialInv g
  analog : ∀ g, s.analog = some g → AnalogInv s.cfg.roundTie g
  cap    : ∀ g, s.cap = some g → CapacityInv s.cfg.roundTie g.rem g.full g.design g.soc g.soh
  warn   : ∀ g, s.warn = some g → WarnInv s.cfg.boolMap g

/-- A start that ends: the run has a next state. -/
def SafeStep (s : State) : Prop := ∃ t, step s = .next t

end Sys2Proof.Machine
end

