-- ==== Sys2Proof/Certificates/Slice0/Obligations.lean ====
section
/-! DEFINITION. The statements about BMSCODEC, each a rule of spec/ or derived from its sections, and the few names they share.
Working registers have no value between operations (10_state.md R23; assumption log 5): where a statement gives the whole next
state it leaves them free (`∃ k`), and `WorkingRegistersChangedByEachOperation` says which of them an operation may change. -/

open Sys2Proof Sys2Proof.Machine

namespace Sys2Proof.Claims

/-! Names shared by the statements, written from the spec's words and not from the model's functions. -/

/-- `STATUS` at the end of an operation (R270, R271): `BUSY = 0`, `DONE = 1`. -/
def ended (kind : BitVec 3) (detail : BitVec 8) (field : BitVec 6) : Status := ⟨false, true, kind, detail, field⟩

/-- The sum of octet values. -/
def total (t : Text) : Nat := (t.map BitVec.toNat).sum

/-- The 16-bit negation of a sum (R142). -/
def negated16 (n : Nat) : Nat := (65536 - n % 65536) % 65536

/-- The 4-bit negation of a sum (R147). -/
def negated4 (n : Nat) : Nat := (16 - n % 16) % 16

/-- Two, three, four uppercase digits of a value, most significant first (R123, R55). -/
def digits2 (v : Nat) : Text := [hexChar (v / 16 % 16), hexChar (v % 16)]
def digits3 (v : Nat) : Text := [hexChar (v / 256 % 16), hexChar (v / 16 % 16), hexChar (v % 16)]
def digits4 (v : Nat) : Text := [hexChar (v / 4096 % 16), hexChar (v / 256 % 16), hexChar (v / 16 % 16), hexChar (v % 16)]

/-- The RTN pairs that are errors, with their codes (30_encoding.md R105). -/
def rtnErrors : List (Text × BitVec 8) :=
  [([0x30, 0x31], 1), ([0x30, 0x32], 2), ([0x30, 0x33], 3), ([0x30, 0x34], 4), ([0x30, 0x35], 5), ([0x30, 0x36], 6),
    ([0x30, 0x39], 9)]

/-- The result group an operation writes (10_state.md R31 to R36). -/
def groupOf (i : Instr) : Group :=
  match i with
  | .chksumCalc => .ck
  | .lchksumCalc => .lck
  | .encodeReq => .frame
  | .decodeResp => .resp
  | .decVersion => .idVer
  | .decSerial => .idSn
  | .decAnalog => .analog
  | .decCapacity => .cap
  | .decWarn => .warn

/-- A group is the same in two states. -/
def SameGroup (g : Group) (s t : State) : Prop :=
  match g with
  | .ck => t.ck = s.ck
  | .lck => t.lck = s.lck
  | .frame => t.raw = s.raw ∧ t.rawLen = s.rawLen
  | .resp => t.info = s.info ∧ t.infoLen = s.infoLen
  | .idVer => t.idVer = s.idVer
  | .idSn => t.idSn = s.idSn
  | .analog => t.analog = s.analog
  | .cap => t.cap = s.cap
  | .warn => t.warn = s.warn

/-- A group holds no value (R30, R32). -/
def GroupInvalid (g : Group) (t : State) : Prop :=
  match g with
  | .ck => t.ck = none
  | .lck => t.lck = none
  | .frame => t.rawLen = 0 ∧ ∀ i, octetAt .raw t i = none
  | .resp => t.infoLen = 0 ∧ ∀ i, octetAt .info t i = none
  | .idVer => t.idVer = none
  | .idSn => t.idSn = none
  | .analog => t.analog = none
  | .cap => t.cap = none
  | .warn => t.warn = none

/-- A group that is a register group holds a value. -/
def GroupValid (g : Group) (t : State) : Prop :=
  match g with
  | .ck => t.ck.isSome = true
  | .lck => t.lck.isSome = true
  | .frame => True
  | .resp => True
  | .idVer => t.idVer.isSome = true
  | .idSn => t.idSn.isSome = true
  | .analog => t.analog.isSome = true
  | .cap => t.cap.isSome = true
  | .warn => t.warn.isSome = true

/-- `DECODE_RESP` ends with an error: INFO and its length hold nothing, `RTN_LATCH` holds `latch`, nothing else changes. -/
def RejectsWith (s : State) (kind : BitVec 3) (detail : BitVec 8) (latch : Chars2) : Prop :=
  ∃ t k, exec .decodeResp s = .next t ∧ (∀ i, octetAt .info t i = none) ∧
    t = { s with info := t.info, infoLen := 0, rtnLatch := latch, work := k, status := ended kind detail 0 }

/-- `DECODE_RESP` ends with `Ok` and the INFO field `info`; nothing else changes. -/
def AcceptsWith (s : State) (info : Text) (latch : Chars2) : Prop :=
  ∃ t k, exec .decodeResp s = .next t ∧ bufText .info t = .ok info ∧
    t = { s with info := t.info, infoLen := BitVec.ofNat 12 info.length, rtnLatch := latch, work := k, status := ended 0 0 0 }

/-- A field of a payload as it stands in it: its identifier (60_exceptions.md R265), whether its characters are read (a field that
is not is passed over), and its characters. -/
structure Field where
  code  : BitVec 6
  read  : Bool
  chars : Text

/-- The identifier of the field in which a payload made of these fields ends when it is cut after `n` characters: the first
that is not whole. -/
def fieldAt (fs : List Field) (n : Nat) : BitVec 6 :=
  match fs with
  | [] => 0
  | f :: fs => if n < f.chars.length then f.code else fieldAt fs (n - f.chars.length)

/-- The raw values of one pack of an analog payload, and the characters of its two skipped fields (30_encoding.md R90). -/
structure PackData where
  volts  : List Nat
  temps  : List Nat
  ipack  : Nat
  vpack  : Nat
  rem    : Nat
  rsvd   : Text
  full   : Nat
  cycles : Nat
  design : Nat
  trail  : Text

/-- The values fit their fields, and neither divisor is zero. -/
structure PackData.Fits (p : PackData) : Prop where
  volts  : p.volts.length < 256
  temps  : p.temps.length < 256
  volt   : ∀ v ∈ p.volts, v < 65536
  temp   : ∀ v ∈ p.temps, v < 65536
  ipack  : p.ipack < 65536
  vpack  : p.vpack < 65536
  rem    : p.rem < 65536
  rsvd   : p.rsvd.length = 2
  full   : p.full < 65536
  cycles : p.cycles < 65536
  design : p.design < 65536
  trail  : p.trail.length = 2
  full0  : p.full ≠ 0
  design0 : p.design ≠ 0

/-- A pack up to and with its full capacity (R90, fields 3 to 11). -/
def PackData.textToFull (p : PackData) : Text :=
  digits2 p.volts.length ++ p.volts.flatMap digits4 ++ digits2 p.temps.length ++ p.temps.flatMap digits4 ++
    digits4 p.ipack ++ digits4 p.vpack ++ digits4 p.rem ++ p.rsvd ++ digits4 p.full

/-- A pack without optional fields (R90, R91). -/
def PackData.text (p : PackData) : Text := p.textToFull ++ digits4 p.cycles ++ digits4 p.design ++ p.trail

/-- The fields of a pack in wire order, with their identifiers (43_analog_capacity.md R200; 60_exceptions.md R265): cells 4, each
voltage 5, temperature count 6, each temperature 7, then current 8, voltage 9, remaining 10, reserved 11, full 12, cycles 14,
design 15, trailing 17. -/
def PackData.fields (p : PackData) : List Field :=
  ⟨4, true, digits2 p.volts.length⟩ :: p.volts.map (fun v => ⟨5, true, digits4 v⟩) ++
    ⟨6, true, digits2 p.temps.length⟩ :: p.temps.map (fun v => ⟨7, true, digits4 v⟩) ++
    [⟨8, true, digits4 p.ipack⟩, ⟨9, true, digits4 p.vpack⟩, ⟨10, true, digits4 p.rem⟩, ⟨11, false, p.rsvd⟩,
      ⟨12, true, digits4 p.full⟩, ⟨14, true, digits4 p.cycles⟩, ⟨15, true, digits4 p.design⟩, ⟨17, false, p.trail⟩]

/-- Packs, each with the stray fields that follow it. -/
def packsText (ps : List (PackData × List Nat)) : Text := ps.flatMap fun p => p.1.text ++ p.2.flatMap digits2

/-- Packs whose stray fields the two heuristics absorb: one common cell count `c`, and after each pack at most two stray fields,
digits that differ from `c` (R203, R214). -/
def Absorbed (c : Nat) (ps : List (PackData × List Nat)) : Prop :=
  ∀ p ∈ ps, p.1.Fits ∧ p.1.volts.length = c ∧ p.2.length ≤ 2 ∧ ∀ v ∈ p.2, v < 256 ∧ v ≠ c

/-- What a record holds of a pack, in the units of 10_state.md R34. -/
def RecordOf (tie : RoundTie) (r : AnalogRec) (p : PackData) : Prop :=
  r.cells.toNat = p.volts.length ∧ r.vcell.map BitVec.toNat = p.volts ∧
  ((p.volts = [] ∧ r.vdiff = 0) ∨
    ∃ lo ∈ p.volts, ∃ hi ∈ p.volts, (∀ v ∈ p.volts, lo ≤ v ∧ v ≤ hi) ∧ r.vdiff.toNat = hi - lo) ∧
  r.temps.toNat = p.temps.length ∧ r.tcell.map BitVec.toInt = p.temps.map (fun v : Nat => (v : Int) - 2730) ∧
  r.ipack.toInt = (if p.ipack ≤ 32767 then (p.ipack : Int) else (p.ipack : Int) - 65536) ∧
  r.vpack.toNat = p.vpack ∧ r.rem.toNat = 10 * p.rem ∧ r.full.toNat = 10 * p.full ∧ r.cycles.toNat = p.cycles ∧
  r.design.toNat = 10 * p.design ∧ r.soc.toNat = pct tie p.rem p.full ∧ r.soh.toNat = pct tie p.full p.design

/-- What the trailing heuristic accepts after the last pack: nothing, or a field of two digits and anything (R214). -/
def Leftover (t : Text) : Prop := t = [] ∨ ∃ v < 256, ∃ r, t = digits2 v ++ r

/-- The raw values of one pack of a warning payload (30_encoding.md R93). -/
structure WarnData where
  cellCodes : List Nat
  tempCodes : List Nat
  chg   : Nat
  vtot  : Nat
  dsg   : Nat
  prot1 : Nat
  prot2 : Nat
  instr : Nat
  ctrl  : Nat
  fault : Nat
  bal1  : Nat
  bal2  : Nat
  warn1 : Nat
  warn2 : Nat

/-- The twelve single fields, in wire order. -/
def WarnData.singles (d : WarnData) : List Nat :=
  [d.chg, d.vtot, d.dsg, d.prot1, d.prot2, d.instr, d.ctrl, d.fault, d.bal1, d.bal2, d.warn1, d.warn2]

/-- The values fit their fields. -/
def WarnData.Fits (d : WarnData) : Prop :=
  d.cellCodes.length < 256 ∧ d.tempCodes.length < 256 ∧ (∀ v ∈ d.cellCodes, v < 256) ∧ (∀ v ∈ d.tempCodes, v < 256) ∧
    ∀ v ∈ d.singles, v < 256

/-- A pack without the optional field (R93, R94). -/
def WarnData.text (d : WarnData) : Text :=
  digits2 d.cellCodes.length ++ d.cellCodes.flatMap digits2 ++ digits2 d.tempCodes.length ++ d.tempCodes.flatMap digits2 ++
    d.singles.flatMap digits2

/-- The fields of a pack in wire order, all read, with their identifiers (44_warnings.md R231; 60_exceptions.md R265): cell count
22, each cell code 23, temperature count 24, each temperature code 25, then the twelve single fields 26 to 37. -/
def WarnData.fields (d : WarnData) : List Field :=
  ⟨22, true, digits2 d.cellCodes.length⟩ :: d.cellCodes.map (fun v => ⟨23, true, digits2 v⟩) ++
    ⟨24, true, digits2 d.tempCodes.length⟩ :: d.tempCodes.map (fun v => ⟨25, true, digits2 v⟩) ++
    [⟨26, true, digits2 d.chg⟩, ⟨27, true, digits2 d.vtot⟩, ⟨28, true, digits2 d.dsg⟩, ⟨29, true, digits2 d.prot1⟩,
      ⟨30, true, digits2 d.prot2⟩, ⟨31, true, digits2 d.instr⟩, ⟨32, true, digits2 d.ctrl⟩, ⟨33, true, digits2 d.fault⟩,
      ⟨34, true, digits2 d.bal1⟩, ⟨35, true, digits2 d.bal2⟩, ⟨36, true, digits2 d.warn1⟩, ⟨37, true, digits2 d.warn2⟩]

/-- Packs, each with the info flag that may follow it. -/
def warnsText (ps : List (WarnData × Option Nat)) : Text := ps.flatMap fun p => p.1.text ++ p.2.toList.flatMap digits2

/-- Between two packs stands a flag that differs from the count before it, or no flag and the count that follows is equal
(R244). -/
def Separated (ps : List (WarnData × Option Nat)) : Prop :=
  match ps with
  | [] => True
  | [p] => ∀ v ∈ p.2, v < 256 ∧ v ≠ p.1.cellCodes.length
  | p :: q :: ps =>
    (match p.2 with
      | some v => v < 256 ∧ v ≠ p.1.cellCodes.length
      | none => q.1.cellCodes.length = p.1.cellCodes.length) ∧ Separated (q :: ps)

/-- The entries of a list of codes: the non-zero ones, with their 1-based positions (R234, R235). -/
def codeFlags (src : FlagSrc) (cs : List Nat) : List (FlagSrc × Nat × Nat) :=
  (cs.zipIdx 1).filterMap fun c => if c.1 = 0 then none else some (src, c.2, c.1)

/-- The entry of a single code (R237). -/
def singleFlag (src : FlagSrc) (c : Nat) : List (FlagSrc × Nat × Nat) := if c = 0 then [] else [(src, 0, c)]

/-- The entries of a bitfield: the bits set, ascending, index bit + 1 (R238). -/
def bitFlags (src : FlagSrc) (v : Nat) : List (FlagSrc × Nat × Nat) :=
  (List.range 8).filterMap fun x => if v.testBit x then some (src, x + 1, 0) else none

/-- The flag list of a pack, in walk order (R240). -/
def WarnData.flags (d : WarnData) : List (FlagSrc × Nat × Nat) :=
  codeFlags .cell d.cellCodes ++ codeFlags .temp d.tempCodes ++ singleFlag .chg d.chg ++ singleFlag .vtot d.vtot ++
    singleFlag .dsg d.dsg ++ bitFlags .prot1 d.prot1 ++ bitFlags .prot2 d.prot2 ++ bitFlags .instr d.instr ++
    bitFlags .ctrl d.ctrl ++ bitFlags .fault d.fault ++ bitFlags .warn1 d.warn1 ++ bitFlags .warn2 d.warn2

/-- The bit a boolean is (R242). -/
def WarnData.bit (d : WarnData) (b : BitPos) : Bool :=
  match b.field with
  | .prot1 => d.prot1.testBit b.bit.val
  | .prot2 => d.prot2.testBit b.bit.val
  | .instr => d.instr.testBit b.bit.val

/-- What a record holds of a pack (10_state.md R36). -/
def WarnRecordOf (m : BoolMap) (r : WarnRec) (d : WarnData) : Prop :=
  r.flags.map (fun e => (e.src, e.idx.toNat, e.code.toNat)) = d.flags ∧
  [r.chg, r.vtot, r.dsg, r.prot1, r.prot2, r.instr, r.ctrl, r.fault, r.bal1, r.bal2, r.warn1, r.warn2].map BitVec.toNat =
    d.singles ∧
  r.bools = ⟨d.bit m.short, d.bit m.odc, d.bit m.occ, d.bit m.fully, d.bit m.clim, d.bit m.cfet, d.bit m.dfet, d.bit m.ind,
    d.bit m.rev, d.bit m.acin, d.bit m.heart⟩

/-- A state with everything that is no operand of an operation erased: working registers, `STATUS`, the latches and every
result group. -/
def operandsOnly (s : State) : State :=
  { s with
    opLatched := 0, work := Work.reset, status := Status.reset, rtnLatch := ⟨0, 0⟩, ck := none, lck := none, idVer := none,
    idSn := none, analog := none, cap := none, warn := none }

/-- The same block with `HEX_LOWER` set to `b`. -/
def withHexLower (b : Bool) (s : State) : State := { s with cfg := { s.cfg with hexLower := b } }

/-- No octet an operation can read as a digit is one of `a` to `f` (R120). -/
def NoLowercase (s : State) : Prop :=
  (∀ b i o, octetAt b s i = some o → ¬(0x61 ≤ o.toNat ∧ o.toNat ≤ 0x66)) ∧
    ∀ o ∈ s.larg.toList ++ s.lenidOvr.toList, ¬(0x61 ≤ o.toNat ∧ o.toNat ≤ 0x66)

end Sys2Proof.Claims

open Sys2Proof.Claims

/-! Reset, start, decoding. -/

/-- R40, R300, the values the spec states: the two enables and lengths 0, `STATUS` all zero, every group invalid, no octet of a
buffer with a value. (What the other registers hold is the model's choice, assumption log 3, and is not stated.) -/
def Obligations.ResetLeavesStatedValues : Prop :=
  ∀ s : State, let r := hostReset s
    r.op = 0 ∧ r.lenidOvrEn = false ∧ r.rawLen = 0 ∧ r.infoLen = 0 ∧ r.status = ⟨false, false, 0, 0, 0⟩ ∧
    (∀ g, GroupInvalid g r) ∧ r.cfg = s.cfg ∧ State.reset = hostReset State.reset

/-- The invariant holds at reset, for every setting of the parameters. -/
def Obligations.InvariantHoldsAtReset : Prop := ∀ cfg : Params, (State.resetWith cfg).Inv

/-- Every step keeps the invariant: buffers canonical and within their sizes, `STATUS` a value the code tables have, result
groups with their counts, lengths and ranges. -/
def Obligations.EveryStepKeepsInvariant : Prop := ∀ s t : State, s.Inv → step s = .next t → t.Inv

/-- R260: on every state of the invariant every operation ends, with `STATUS` holding `Ok` or one `Err` of R261. -/
def Obligations.EveryOperationEndsInOkOrOneError : Prop :=
  ∀ (s : State) (i : Instr), s.Inv →
    (∃ t, exec i s = .next t ∧ t.status.busy = false ∧ t.status.done = true ∧
      outcomeLegal t.status.kind.toNat t.status.detail.toNat t.status.field.toNat = true) ∧
    ∃ t, step { s with op := encode i } = .next t

/-- A few codes of R100's table, written out. -/
def Obligations.OpCodesDecodeAsTabled : Prop :=
  decode 0b0001#4 = .ok .chksumCalc ∧ decode 0b0010#4 = .ok .lchksumCalc ∧ decode 0b0011#4 = .ok .encodeReq ∧
  decode 0b0100#4 = .ok .decodeResp ∧ decode 0b0101#4 = .ok .decVersion ∧ decode 0b0110#4 = .ok .decSerial ∧
  decode 0b0111#4 = .ok .decAnalog ∧ decode 0b1000#4 = .ok .decCapacity ∧ decode 0b1001#4 = .ok .decWarn ∧
  decode 0b0000#4 = .error (.reservedOp 0) ∧ decode 0b1010#4 = .error (.reservedOp 10)

/-- Decoding and encoding agree both ways, and exactly the well-formed codes decode. -/
def Obligations.DecodeAndEncodeAgree : Prop :=
  (∀ i : Instr, decode (encode i) = .ok i ∧ opWellFormed (encode i) = true) ∧
    (∀ op i, decode op = .ok i → encode i = op) ∧ ∀ op, opWellFormed op = false → decode op = .error (.reservedOp op)

/-- R269, R67: a start of an idle block latches `OP`, clears `DONE`, sets `BUSY` and runs the operation the code selects. That a
start and its operation are one step is the model's choice, assumption log 6. -/
def Obligations.StartRunsDecodedOperation : Prop :=
  ∀ (s : State) (i : Instr), s.status.busy = false → decode s.op = .ok i →
    step s = exec i
      { s with opLatched := s.op, status := ⟨true, false, s.status.kind, s.status.detail, s.status.field⟩ }

/-- R101, R266: a reserved code ends at once with `Err(IllegalOp, code)`; nothing but `STATUS` (and the latched code) changes. -/
def Obligations.ReservedCodeEndsIllegalOp : Prop :=
  ∀ s : State, s.status.busy = false → (s.op = 0 ∨ 10 ≤ s.op.toNat) →
    step s = .next { s with opLatched := s.op, status := ended 6 (BitVec.ofNat 8 s.op.toNat) 0 }

/-- R66, R269, R321: while `BUSY = 1` the host has no move: neither a write nor a start. -/
def Obligations.HostHasNoMoveWhileBusy : Prop :=
  ∀ (s : State) (w : HostWrite), s.status.busy = true →
    hostWrite w s = .fault .hostWhileBusy ∧ step s = .fault .startWhileBusy

/-- R305: the outcome of each operation started straight after reset, as far as the spec gives it. -/
def Obligations.OutcomesStraightAfterReset : Prop :=
  ∀ cfg : Params, let s := State.resetWith cfg
    (∃ t, exec .chksumCalc s = .next t ∧ t.status = ended 5 1 0) ∧
    (∃ t, exec .decodeResp s = .next t ∧ t.status = ended 1 1 0) ∧
    (∃ t, exec .decVersion s = .next t ∧ t.status = ended 0 0 0 ∧ t.idVer = some ⟨[], 0⟩) ∧
    (∃ t, exec .decSerial s = .next t ∧ t.status = ended 4 1 20) ∧
    (∃ t, exec .decAnalog s = .next t ∧ t.status = ended 4 1 (if cfg.leadSkip = .zero then 2 else 1)) ∧
    (∃ t, exec .decCapacity s = .next t ∧ t.status = ended 4 1 10) ∧
    ∃ t, exec .decWarn s = .next t ∧ t.status = ended 4 1 (if cfg.leadSkip = .zero then 2 else 1)

/-! Digits, fields, arithmetic. -/

/-- R120: exactly the digits have a value, the lowercase ones only when `HEX_LOWER` is true. -/
def Obligations.HexValAcceptsExactlyTheDigits : Prop :=
  ∀ (lower : Bool) (c : Octet) (d : Nat), hexVal lower c = some d ↔
    (0x30 ≤ c.toNat ∧ c.toNat ≤ 0x39 ∧ d = c.toNat - 0x30) ∨
    (0x41 ≤ c.toNat ∧ c.toNat ≤ 0x46 ∧ d = 10 + (c.toNat - 0x41)) ∨
    (lower = true ∧ 0x61 ≤ c.toNat ∧ c.toNat ≤ 0x66 ∧ d = 10 + (c.toNat - 0x61))

/-- R121, R123: `HexChar` is the uppercase digit; `IntToHex(v, w)` is `w` of them, the one at place `k` from the left being the
digit of `(v >> 4*(w-1-k)) & 15`; `HexToInt` reads it back. -/
def Obligations.IntToHexRendersAndReadsBack : Prop :=
  (∀ v, v ≤ 15 → (hexChar v).toNat = if v ≤ 9 then 0x30 + v else 0x41 + (v - 10)) ∧
  ∀ (lower : Bool) (v w : Nat), v < 16 ^ w →
    (intToHex v w).length = w ∧
    (∀ k, k < w → (intToHex v w)[k]? = some (hexChar ((v >>> (4 * (w - 1 - k))) &&& 15))) ∧
    hexToInt lower (intToHex v w) = some v

/-- R122: `HexToInt` is the big-endian sum of the digit values, below `16^w`, and invalid exactly when a character has no digit
value. -/
def Obligations.HexToIntIsTheBigEndianSum : Prop :=
  ∀ (lower : Bool) (t : Text),
    (hexToInt lower t = none ↔ ∃ c ∈ t, hexVal lower c = none) ∧
    ∀ v, hexToInt lower t = some v →
      v < 16 ^ t.length ∧
      v = ((List.range t.length).map fun k => (hexVal lower (t.getD k 0)).getD 0 * 16 ^ (t.length - 1 - k)).sum

/-- R124, R56: `HexPairs` of an even number of characters: one octet per pair, the first character the high nibble, invalid
exactly when a character has no digit value. -/
def Obligations.HexPairsTakesHighNibbleFirst : Prop :=
  ∀ (lower : Bool) (t : Text), t.length % 2 = 0 →
    (hexPairs lower t = none ↔ ∃ c ∈ t, hexVal lower c = none) ∧
    ∀ v, hexPairs lower t = some v →
      2 * v.length = t.length ∧
      ∀ k, k < v.length → ∃ h l o, t[2 * k]? = some h ∧ t[2 * k + 1]? = some l ∧ v[k]? = some o ∧
        ∃ a b, hexVal lower h = some a ∧ hexVal lower l = some b ∧ o.toNat = 16 * a + b

/-- R135: `Pct(a, b)` is the integer nearest to `10000 * a / b`; an exact tie goes up under half_up and to the even one under
half_even; off a tie the settings agree. -/
def Obligations.PctRoundsToNearest : Prop :=
  ∀ (tie : RoundTie) (a b : Nat), 0 < b →
    2 * (pct tie a b * b) ≤ 20000 * a + b ∧ 20000 * a ≤ 2 * (pct tie a b * b) + b ∧
    (20000 * a % (2 * b) = b →
      (tie = .halfUp → 2 * (pct tie a b * b) = 20000 * a + b) ∧ (tie = .halfEven → pct tie a b % 2 = 0)) ∧
    (20000 * a % (2 * b) ≠ b → pct tie a b = pct .halfEven a b)

/-- R131, R132, R133, R130: the scaled registers hold the exact values for every 16-bit raw value; no result register
overflows. -/
def Obligations.ScaledRegistersHoldExactValues : Prop :=
  ∀ raw : Nat, raw < 65536 →
    (tempOf raw).toInt = (raw : Int) - 2730 ∧
    (currentOf raw).toInt = (if raw ≤ 32767 then (raw : Int) else (raw : Int) - 65536) ∧
    (capacityOf raw).toNat = raw * 10 ∧
    ∀ tie b, 0 < b → (BitVec.ofNat 30 (pct tie raw b)).toNat = pct tie raw b ∧ pct tie raw b ≤ 655350000

/-! The checksums. -/

/-- R142: the closed form and laws of `ChksumCalc`: the negated sum, blind to position 0 and to the order of the counted octets,
changed by any change of one counted octet. -/
def Obligations.ChksumIsTheNegatedSum : Prop :=
  ∀ (o : Octet) (t : Text),
    chksumVal (o :: t) = negated16 (total t) ∧
    (total t + chksumVal (o :: t)) % 65536 = 0 ∧
    (chksumVal (o :: t) = 0 ↔ total t % 65536 = 0) ∧
    (∀ o', chksumVal (o' :: t) = chksumVal (o :: t)) ∧
    (∀ u, t.Perm u → chksumVal (o :: u) = chksumVal (o :: t)) ∧
    ∀ i x, i < t.length → t[i]? ≠ some x → chksumVal (o :: t.set i x) ≠ chksumVal (o :: t)

/-- R147: `LchksumCalc` is the negated digit sum; the reset to 0 fires exactly at residue 0, and residue 15 gives 1. -/
def Obligations.LchksumIsTheNegatedDigitSum : Prop :=
  ∀ (lower : Bool) (t : Text),
    (lchksumCalc lower t = none ↔ ∃ c ∈ t, hexVal lower c = none) ∧
    ∀ r, lchksumCalc lower t = some r →
      r.1 = negated4 ((t.map fun c => (hexVal lower c).getD 0).sum) ∧ r.2 = hexChar r.1 ∧
      (r.1 = 0 ↔ (t.map fun c => (hexVal lower c).getD 0).sum % 16 = 0) ∧
      ((t.map fun c => (hexVal lower c).getD 0).sum % 16 = 15 → r.2 = 0x31)

/-- R317: in a frame of hex characters with `n <= 865` the two readings of the CHKSUM text agree: the sum is not reduced, lies in
1 to 61440, and the four digits need no padding. -/
def Obligations.ChecksumReadingsAgreeOnShortHexFrames : Prop :=
  ∀ (o : Octet) (t : Text), (∀ c ∈ t, 0x30 ≤ c.toNat ∧ c.toNat ≤ 0x46) → 12 ≤ t.length → t.length ≤ 12 + 865 →
    48 * t.length ≤ total t ∧ total t ≤ 70 * t.length ∧ total t % 65536 = total t ∧ 0 < total t ∧ total t ≤ 61440 ∧
    (chksumTxt (o :: t)).head? ≠ some 0x30

/-- R141: `CHKSUM_CALC` writes `CK_VAL`, `CK_TXT` and `STATUS`, or raises `EncodeError(EmptyBuffer)` with the group invalid;
nothing else changes. -/
def Obligations.ChksumCalcWritesValueAndText : Prop :=
  ∀ s : State,
    (s.rawLen = 0 → ∃ k, exec .chksumCalc s = .next { s with ck := none, work := k, status := ended 5 1 0 }) ∧
    ∀ o t, bufText .raw s = .ok (o :: t) → ∃ k g,
      exec .chksumCalc s = .next { s with ck := some g, work := k, status := ended 0 0 0 } ∧
      g.val.toNat = negated16 (total t) ∧ g.txt.toList = digits4 (negated16 (total t))

/-- R146: `LCHKSUM_CALC` writes the negated digit sum of `LARG` and its character, or raises `EncodeError(BadLenid)`; nothing
else changes. -/
def Obligations.LchksumCalcWritesValueAndCharacter : Prop :=
  ∀ s : State,
    (∀ a b c, hexVal s.cfg.hexLower s.larg.c0 = some a → hexVal s.cfg.hexLower s.larg.c1 = some b →
      hexVal s.cfg.hexLower s.larg.c2 = some c → ∃ k g,
        exec .lchksumCalc s = .next { s with lck := some g, work := k, status := ended 0 0 0 } ∧
        g.val.toNat = negated4 (a + b + c) ∧ g.txt = hexChar (negated4 (a + b + c))) ∧
    ((hexVal s.cfg.hexLower s.larg.c0 = none ∨ hexVal s.cfg.hexLower s.larg.c1 = none ∨
      hexVal s.cfg.hexLower s.larg.c2 = none) →
        ∃ k, exec .lchksumCalc s = .next { s with lck := none, work := k, status := ended 5 2 0 })

/-! The frame operations. -/

/-- R150: `ENCODE_REQ` builds the frame from the command registers and INFO, the LENID being INFO's length or the override
verbatim, or raises `EncodeError(BadLenid)` on an override that is no digits, with `RAW_LEN` 0; an octet at or beyond `RAW_LEN`
has no value (R25); nothing else changes. -/
def Obligations.EncodeReqBuildsTheFrame : Prop :=
  ∀ (s : State) (lenid : Text),
    lenid = (if s.lenidOvrEn then s.lenidOvr.toList else digits3 s.infoLen.toNat) →
    (∀ info, bufText .info s = .ok info → (∀ c ∈ lenid, hexVal s.cfg.hexLower c ≠ none) →
      let lchk := hexChar (negated4 ((lenid.map fun c => (hexVal s.cfg.hexLower c).getD 0).sum))
      let body := s.ver.toList ++ s.adr.toList ++ s.cid1.toList ++ s.cid2.toList ++ [lchk] ++ lenid ++ info
      let frame := [0x7E] ++ body ++ digits4 (negated16 (total body)) ++ [0x0D]
      ∃ t k, exec .encodeReq s = .next t ∧ bufText .raw t = .ok frame ∧ (∀ i, frame.length ≤ i → octetAt .raw t i = none) ∧
        t = { s with raw := t.raw, rawLen := BitVec.ofNat 13 (18 + info.length), work := k, status := ended 0 0 0 }) ∧
    ((∃ c ∈ lenid, hexVal s.cfg.hexLower c = none) →
      ∃ t k, exec .encodeReq s = .next t ∧ (∀ i, octetAt .raw t i = none) ∧
        t = { s with raw := t.raw, rawLen := 0, work := k, status := ended 5 2 0 })

/-- R152 with R151, R153 to R159: `DECODE_RESP` takes its steps in order and the first that fails decides the outcome; EOI is
not inspected; the sum's range is measured from the end of the buffer. -/
def Obligations.DecodeRespTakesItsStepsInOrder : Prop :=
  ∀ (s : State) (buf : Text), bufText .raw s = .ok buf →
    let l := s.cfg.hexLower
    let rtn : Chars2 := ⟨buf.getD 7 0, buf.getD 8 0⟩
    (buf.head? ≠ some 0x7E → RejectsWith s 1 1 s.rtnLatch) ∧
    (buf.head? = some 0x7E → buf.length < 13 → RejectsWith s 1 2 s.rtnLatch) ∧
    (buf.head? = some 0x7E → 13 ≤ buf.length →
      (∀ code, (rtn.toList, code) ∈ rtnErrors → RejectsWith s 3 code rtn) ∧
      ((∀ code, (rtn.toList, code) ∉ rtnErrors) →
        ((∃ c ∈ (buf.drop 10).take 3, hexVal l c = none) → RejectsWith s 1 3 rtn) ∧
        (∀ d0 d1 d2, hexVal l (buf.getD 10 0) = some d0 → hexVal l (buf.getD 11 0) = some d1 →
          hexVal l (buf.getD 12 0) = some d2 →
          let n := 256 * d0 + 16 * d1 + d2
          (buf.getD 9 0 ≠ hexChar (negated4 (d0 + d1 + d2)) → RejectsWith s 2 1 rtn) ∧
          (buf.getD 9 0 = hexChar (negated4 (d0 + d1 + d2)) →
            let txt := digits4 (negated16 (total ((buf.take (buf.length - 5)).drop 1)))
            (buf.length < 18 + n → RejectsWith s 1 2 rtn) ∧
            (18 + n ≤ buf.length → (buf.drop (13 + n)).take 4 ≠ txt → RejectsWith s 2 2 rtn) ∧
            (18 + n ≤ buf.length → (buf.drop (13 + n)).take 4 = txt →
              AcceptsWith s ((buf.drop 13).take n) rtn)))))

/-- R164: the round trip. `ENCODE_REQ` and then `DECODE_RESP`, for any header octets, any `CID2` that is none of the seven error
pairs and any INFO, without an override, ends `Ok` with INFO and `INFO_LEN` unchanged. -/
def Obligations.EncodeThenDecodeReturnsInfo : Prop :=
  ∀ (s : State) (info : Text), s.status.busy = false → bufText .info s = .ok info → s.lenidOvrEn = false →
    (∀ code, (s.cid2.toList, code) ∉ rtnErrors) →
    ∃ s1 t t1 u, hostWrite (.op 3) s = .next s1 ∧ step s1 = .next t ∧ hostWrite (.op 4) t = .next t1 ∧ step t1 = .next u ∧
      u.status = ended 0 0 0 ∧ bufText .info u = .ok info ∧ u.infoLen = s.infoLen ∧ u.rtnLatch = s.cid2

/-- R166, R151, R153, R154: in a frame of `18 + n` octets that `DECODE_RESP` accepts, every octet but the last is covered: one
changed octet at any position below `17 + n` is rejected, with the error of the first step that meets it. SOI: `BadSOI`. VER,
ADR, CID1, INFO, CHKSUM: `Chksum`. RTN: `ProtocolError` when the changed pair is listed, else `Chksum`. LCHKSUM: `Lchksum`.
LENID: `BadLenid` when the octet is no digit, `Lchksum` when it is a digit of another value, `Chksum` when it is the same digit
in the other case. (The last octet: `LastOctetIsNotInspected`.) -/
def Obligations.OneChangedOctetIsRejected : Prop :=
  ∀ (s s' t : State) (buf : Text) (i : Nat) (o : Octet), bufText .raw s = .ok buf → exec .decodeResp s = .next t →
    t.status.kind = 0 → buf.length = 18 + t.infoLen.toNat → s'.cfg = s.cfg → bufText .raw s' = .ok (buf.set i o) →
    buf[i]? ≠ some o →
    let ends := fun (kind : BitVec 3) (detail : BitVec 8) =>
      ∃ u, exec .decodeResp s' = .next u ∧ u.status = ended kind detail 0
    let rtn := ((buf.set i o).drop 7).take 2
    let digit := hexVal s.cfg.hexLower
    (i = 0 → ends 1 1) ∧
    ((1 ≤ i ∧ i < 7) ∨ (13 ≤ i ∧ i < 17 + t.infoLen.toNat) → ends 2 2) ∧
    (i = 7 ∨ i = 8 →
      (∀ code, (rtn, code) ∈ rtnErrors → ends 3 code) ∧ ((∀ code, (rtn, code) ∉ rtnErrors) → ends 2 2)) ∧
    (i = 9 → ends 2 1) ∧
    (10 ≤ i → i < 13 →
      (digit o = none → ends 1 3) ∧
      (digit o ≠ none → digit o ≠ digit (buf.getD i 0) → ends 2 1) ∧
      (digit o ≠ none → digit o = digit (buf.getD i 0) → ends 2 2))

/-- R32: after a `DECODE_RESP` that ended with an error no later operation decodes a stale payload: an `Overrun`, or an empty
version string. -/
def Obligations.RejectedPayloadCannotBeDecoded : Prop :=
  ∀ s t : State, exec .decodeResp s = .next t → t.status.kind ≠ 0 →
    (∃ u, exec .decVersion t = .next u ∧ u.status = ended 0 0 0 ∧ u.idVer = some ⟨[], 0⟩) ∧
    ∀ i, i = .decSerial ∨ i = .decAnalog ∨ i = .decCapacity ∨ i = .decWarn →
      ∃ u, exec i t = .next u ∧ u.status.kind = 4 ∧ u.status.detail = 1 ∧ GroupInvalid (groupOf i) u

/-! The identity decoders. -/

/-- R181: `DEC_VERSION` writes the decoded octets and half the payload's length, or raises `OddLength` before `BadHex`; nothing
else changes. -/
def Obligations.DecVersionDecodesWholePayload : Prop :=
  ∀ (s : State) (t : Text), bufText .info s = .ok t →
    (t.length % 2 = 1 → ∃ k, exec .decVersion s = .next { s with idVer := none, work := k, status := ended 4 5 19 }) ∧
    (t.length % 2 = 0 →
      (hexPairs s.cfg.hexLower t = none →
        ∃ k, exec .decVersion s = .next { s with idVer := none, work := k, status := ended 4 2 19 }) ∧
      ∀ v, hexPairs s.cfg.hexLower t = some v → ∃ k g,
        exec .decVersion s = .next { s with idVer := some g, work := k, status := ended 0 0 0 } ∧
        g.version = v ∧ g.versionLen.toNat = t.length / 2 ∧ v.length = t.length / 2)

/-- R183, R184: `DEC_SERIAL` decodes characters 0 to 29 and 40 to 67 and removes every space, checking all of the BMS serial
before the pack serial; nothing else changes. -/
def Obligations.DecSerialDecodesTwoRanges : Prop :=
  ∀ (s : State) (t : Text), bufText .info s = .ok t →
    let l := s.cfg.hexLower
    let b := hexPairs l (t.take 30)
    let p := hexPairs l ((t.drop 40).take 28)
    (t.length < 30 → ∃ k, exec .decSerial s = .next { s with idSn := none, work := k, status := ended 4 1 20 }) ∧
    (30 ≤ t.length → b = none → ∃ k, exec .decSerial s = .next { s with idSn := none, work := k, status := ended 4 2 20 }) ∧
    (30 ≤ t.length → t.length < 68 → b ≠ none →
      ∃ k, exec .decSerial s = .next { s with idSn := none, work := k, status := ended 4 1 21 }) ∧
    (68 ≤ t.length → b ≠ none → p = none →
      ∃ k, exec .decSerial s = .next { s with idSn := none, work := k, status := ended 4 2 21 }) ∧
    (68 ≤ t.length → ∀ x y, b = some x → p = some y → ∃ k g,
      exec .decSerial s = .next { s with idSn := some g, work := k, status := ended 0 0 0 } ∧
      g.bmsSn = x.filter (fun o => o != 0x20) ∧ g.bmsSnLen.toNat = g.bmsSn.length ∧
      g.packSn = y.filter (fun o => o != 0x20) ∧ g.packSnLen.toNat = g.packSn.length)

/-! Analog and capacity. -/

/-- R200 to R215, R314: `DEC_ANALOG` on a payload of packs with one common cell count, at most two stray fields (digits that
differ from the count) after each pack, and leftovers the last trailing heuristic accepts: `Ok`, one record per pack, in order,
every register holding the value R34 gives it; nothing else changes. -/
def Obligations.DecAnalogDecodesMultiPackPayload : Prop :=
  ∀ (s : State) (lead rest : Text) (ps : List (PackData × List Nat)) (c : Nat),
    bufText .info s = .ok (lead ++ digits2 ps.length ++ packsText ps ++ rest) →
    lead.length = leadChars s.cfg.leadSkip → ps.length < 256 →
    (∀ p ∈ ps, p.1.Fits ∧ p.1.volts.length = c ∧ p.2.length ≤ 2 ∧ ∀ v ∈ p.2, v < 256 ∧ v ≠ c) →
    (ps = [] ∨ Leftover rest) →
    ∃ k g, exec .decAnalog s = .next { s with analog := some g, work := k, status := ended 0 0 0 } ∧
      g.packs.toNat = ps.length ∧ List.Forall₂ (RecordOf s.cfg.roundTie) g.recs (ps.map Prod.fst)

/-- R203, R314: three stray fields after the first pack, none equal to its cell count, fail with `CellMismatch`; no record of the
first pack is left. -/
def Obligations.ThreeStrayFieldsFailWithCellMismatch : Prop :=
  ∀ (s : State) (lead rest : Text) (n : Nat) (p : PackData) (x y z : Nat),
    bufText .info s = .ok (lead ++ digits2 n ++ p.text ++ digits2 x ++ digits2 y ++ digits2 z ++ rest) →
    lead.length = leadChars s.cfg.leadSkip → 2 ≤ n → n < 256 → p.Fits → x < 256 → y < 256 → z < 256 →
    x ≠ p.volts.length → y ≠ p.volts.length → z ≠ p.volts.length →
    ∃ k, exec .decAnalog s = .next { s with analog := none, work := k, status := ended 4 4 4 }

/-- R210, R212, R136: a zero full capacity is reported as soon as it has been read, whatever follows; a zero design capacity
likewise. -/
def Obligations.ZeroCapacityIsReportedAtOnce : Prop :=
  ∀ (s : State) (lead rest : Text) (n : Nat) (p q : PackData), p.Fits → q = { p with full := 0 } →
    lead.length = leadChars s.cfg.leadSkip → 1 ≤ n → n < 256 →
    (bufText .info s = .ok (lead ++ digits2 n ++ q.textToFull ++ rest) →
      ∃ k, exec .decAnalog s = .next { s with analog := none, work := k, status := ended 4 3 13 }) ∧
    (bufText .info s = .ok (lead ++ digits2 n ++ p.textToFull ++ digits4 p.cycles ++ digits4 0 ++ rest) →
      ∃ k, exec .decAnalog s = .next { s with analog := none, work := k, status := ended 4 3 16 })

/-- R202, R216, R59: a one-pack analog payload cut short anywhere is an `Overrun` that names the field it is cut in (R265), never a
record. -/
def Obligations.ShortAnalogPayloadIsOverrun : Prop :=
  ∀ (s : State) (lead cut rest : Text) (p : PackData),
    cut ++ rest = lead ++ digits2 1 ++ p.text → rest ≠ [] → bufText .info s = .ok cut →
    lead.length = leadChars s.cfg.leadSkip → p.Fits →
    ∃ k, exec .decAnalog s = .next { s with
      analog := none, work := k,
      status := ended 4 1 (fieldAt (⟨1, false, lead⟩ :: ⟨2, true, digits2 1⟩ :: p.fields) cut.length) }

/-- R201, R232: the head of both pack walks: the leading characters, then the pack count. (The errors of the fields of a pack:
`BrokenAnalogFieldIsNamed`, `BrokenWarnFieldIsNamed`; those of the characters after a pack: `AnalogLeftoverErrors`,
`WarnLeftoverErrors`.) -/
def Obligations.PackCountErrors : Prop :=
  ∀ (s : State) (t : Text) (i : Instr), bufText .info s = .ok t → i = .decAnalog ∨ i = .decWarn →
    let lead := leadChars s.cfg.leadSkip
    (t.length < lead → ∃ u, exec i s = .next u ∧ u.status = ended 4 1 1 ∧ GroupInvalid (groupOf i) u) ∧
    (lead ≤ t.length → t.length < lead + 2 →
      ∃ u, exec i s = .next u ∧ u.status = ended 4 1 2 ∧ GroupInvalid (groupOf i) u) ∧
    (lead + 2 ≤ t.length → hexToInt s.cfg.hexLower ((t.drop lead).take 2) = none →
      ∃ u, exec i s = .next u ∧ u.status = ended 4 2 2 ∧ GroupInvalid (groupOf i) u)

/-- R220: `DEC_CAPACITY` reads three fields and then derives the two percentages; the reads' errors come first, then
`DivZero(F_SOC)`, then `DivZero(F_SOH)`; nothing else changes. -/
def Obligations.DecCapacityReadsThreeFields : Prop :=
  ∀ (s : State) (t : Text), bufText .info s = .ok t →
    let field := fun j => hexToInt s.cfg.hexLower ((t.drop (4 * j)).take 4)
    let fails := fun (d : BitVec 8) (f : BitVec 6) =>
      ∃ k, exec .decCapacity s = .next { s with cap := none, work := k, status := ended 4 d f }
    (∀ (j : Nat) (code : BitVec 6), (j, code) ∈ [(0, 10#6), (1, 12#6), (2, 15#6)] →
      (∀ i, i < j → field i ≠ none) → 4 * j ≤ t.length →
      (t.length < 4 * j + 4 → fails 1 code) ∧ (4 * j + 4 ≤ t.length → field j = none → fails 2 code)) ∧
    (12 ≤ t.length → ∀ rem full design, field 0 = some rem → field 1 = some full → field 2 = some design →
      (full = 0 → fails 3 13) ∧ (full ≠ 0 → design = 0 → fails 3 16) ∧
      (full ≠ 0 → design ≠ 0 → ∃ k g,
        exec .decCapacity s = .next { s with cap := some g, work := k, status := ended 0 0 0 } ∧
        g.rem.toNat = 10 * rem ∧ g.full.toNat = 10 * full ∧ g.design.toNat = 10 * design ∧
        g.soc.toNat = pct s.cfg.roundTie rem full ∧ g.soh.toNat = pct s.cfg.roundTie full design))

/-! Warnings. -/

/-- R231 to R245: `DEC_WARN` on a payload of packs, each followed by a flag that differs from its count or by none and an equal
count, and leftovers the last trailing heuristic accepts: `Ok`, one record per pack with its flag list in walk order, its raw
values and its booleans; nothing else changes. -/
def Obligations.DecWarnDecodesMultiPackPayload : Prop :=
  ∀ (s : State) (lead rest : Text) (ps : List (WarnData × Option Nat)),
    bufText .info s = .ok (lead ++ digits2 ps.length ++ warnsText ps ++ rest) →
    lead.length = leadChars s.cfg.leadSkip → ps.length < 256 → (∀ p ∈ ps, p.1.Fits) → Separated ps →
    (ps = [] ∨ Leftover rest) →
    ∃ k g, exec .decWarn s = .next { s with warn := some g, work := k, status := ended 0 0 0 } ∧
      g.packs.toNat = ps.length ∧ List.Forall₂ (WarnRecordOf s.cfg.boolMap) g.recs (ps.map Prod.fst)

/-- R245, R59: a one-pack warning payload cut short anywhere is an `Overrun` that names the field it is cut in (R265), never a
record. -/
def Obligations.ShortWarnPayloadIsOverrun : Prop :=
  ∀ (s : State) (lead cut rest : Text) (d : WarnData),
    cut ++ rest = lead ++ digits2 1 ++ d.text → rest ≠ [] → bufText .info s = .ok cut →
    lead.length = leadChars s.cfg.leadSkip → d.Fits →
    ∃ k, exec .decWarn s = .next { s with
      warn := none, work := k,
      status := ended 4 1 (fieldAt (⟨1, false, lead⟩ :: ⟨2, true, digits2 1⟩ :: d.fields) cut.length) }

/-! Rules of the whole block. -/

/-- 10_state.md section 5 (R30, R32): an operation writes its own group only, and only when it ends `Ok` (that the group then holds
a value is said of the seven register groups; FRAME and RESP are buffers); when it ends with an error the group holds no value;
groups of other operations are not touched; at reset every group is invalid. That a host read of an invalid group, or of a buffer
octet without a value, stops (and does not answer an absent option) is the model's choice among the two treatments R30 and
93_implementation_defined.md I10 leave: assumption logs 7 and 4. -/
def Obligations.GroupsAreWrittenWholeOrInvalid : Prop :=
  ∀ (i : Instr) (s t : State), exec i s = .next t →
    (t.status.kind = 0 → GroupValid (groupOf i) t) ∧ (t.status.kind ≠ 0 → GroupInvalid (groupOf i) t) ∧
    (∀ g, g ≠ groupOf i → SameGroup g s t) ∧
    (t.ck = none → hostReadCk t = .error (.invalidGroup .ck)) ∧
    (t.lck = none → hostReadLck t = .error (.invalidGroup .lck)) ∧
    (t.idVer = none → hostReadVersion t = .error (.invalidGroup .idVer)) ∧
    (t.idSn = none → hostReadSerial t = .error (.invalidGroup .idSn)) ∧
    (t.analog = none → hostReadAnalog t = .error (.invalidGroup .analog)) ∧
    (t.cap = none → hostReadCap t = .error (.invalidGroup .cap)) ∧
    (t.warn = none → hostReadWarn t = .error (.invalidGroup .warn)) ∧
    (∀ b pos, t.status.busy = false → octetAt b t pos = none → hostReadOctet b pos t = .error (.noOctet b pos)) ∧
    ∀ g cfg, GroupInvalid g (State.resetWith cfg)

/-- R21, R280, R306: the codec never writes an operand register or a parameter. -/
def Obligations.OperandsAreNeverWritten : Prop :=
  ∀ (i : Instr) (s t : State), exec i s = .next t →
    t.cfg = s.cfg ∧ t.op = s.op ∧ t.opLatched = s.opLatched ∧ t.ver = s.ver ∧ t.adr = s.adr ∧ t.cid1 = s.cid1 ∧
    t.cid2 = s.cid2 ∧ t.lenidOvrEn = s.lenidOvrEn ∧ t.lenidOvr = s.lenidOvr ∧ t.larg = s.larg

/-- R51: only `ENCODE_REQ` changes RAW, only `DECODE_RESP` changes INFO and `RTN_LATCH`: for every other operation every octet
reads as before. -/
def Obligations.BuffersAreWrittenOnlyByFrameOperations : Prop :=
  ∀ (i : Instr) (s t : State), exec i s = .next t →
    (i ≠ .encodeReq → t.rawLen = s.rawLen ∧ ∀ a, t.raw.read a = s.raw.read a) ∧
    (i ≠ .decodeResp → t.infoLen = s.infoLen ∧ t.rtnLatch = s.rtnLatch ∧ ∀ a, t.info.read a = s.info.read a)

/-- R270: an error makes exactly the writes listed: `STATUS`, the operation's own group, and for `DECODE_RESP` the latch. That
the octets of the invalid buffer have no value is assumption log 8; what the working registers hold is left free (log 5). -/
def Obligations.ErrorMakesOnlyTheListedWrites : Prop :=
  ∀ (i : Instr) (s t : State), exec i s = .next t → t.status.kind ≠ 0 →
    (∃ k, t = invalidate (groupOf i)
      { s with status := t.status, work := k, rtnLatch := if i = .decodeResp then t.rtnLatch else s.rtnLatch }) ∧
    t.status.busy = false ∧ t.status.done = true

/-- Which working registers an operation may change: those its rule writes (10_state.md R23). That they keep a value between
operations at all is the model's choice, assumption log 5. -/
def Obligations.WorkingRegistersChangedByEachOperation : Prop :=
  ∀ (i : Instr) (s t : State), exec i s = .next t →
    (i = .lchksumCalc ∨ i = .decVersion ∨ i = .decSerial → t.work = s.work) ∧
    (i = .chksumCalc ∨ i = .encodeReq ∨ i = .decodeResp → t.work = { s.work with acc := t.work.acc }) ∧
    (i = .decCapacity → t.work = { s.work with cur := t.work.cur }) ∧
    (i = .decAnalog → t.work.acc = s.work.acc) ∧
    (i = .decWarn → t.work.acc = s.work.acc ∧ t.work.cellsPrev = s.work.cellsPrev ∧ t.work.vmin = s.work.vmin ∧
      t.work.vmax = s.work.vmax)

/-- R24: the cursor never exceeds `INFO_LEN`, whatever the working registers held before and however the operation ends. (What `CUR`
holds after an operation is the model's choice, assumption log 5.) -/
def Obligations.CursorNeverExceedsInfoLen : Prop :=
  ∀ (i : Instr) (s t : State), i = .decAnalog ∨ i = .decCapacity ∨ i = .decWarn → exec i s = .next t →
    t.work.cur.toNat ≤ s.infoLen.toNat

/-- R27, R23, R28: nothing crosses operations: the outcome and the results of an operation are the same when the working
registers, `STATUS`, the latches and every result group are erased before it. -/
def Obligations.NothingCrossesOperations : Prop :=
  ∀ (i : Instr) (s : State),
    (∀ f, exec i s = .fault f → exec i (operandsOnly s) = .fault f) ∧
    ∀ t, exec i s = .next t → ∃ u, exec i (operandsOnly s) = .next u ∧ u.status = t.status ∧ SameGroup (groupOf i) t u

/-- R120, 92_eei_decisions.md D5: on inputs without the octets `a` to `f` the setting of `HEX_LOWER` changes nothing. -/
def Obligations.HexLowerIsIrrelevantWithoutLowercase : Prop :=
  ∀ (i : Instr) (s : State), NoLowercase s →
    (∀ f, exec i (withHexLower false s) = .fault f → exec i (withHexLower true s) = .fault f) ∧
    ∀ t, exec i (withHexLower false s) = .next t → exec i (withHexLower true s) = .next (withHexLower true t)

/-- 60_exceptions.md R261 to R266: `STATUS` identifies the error: two errors with the same `KIND`, `DETAIL` and `FIELD` are the
same. -/
def Obligations.ErrorCodesIdentifyTheError : Prop := ∀ e e' : OpError, errStatus e = errStatus e' → e = e'

/-- 10_state.md R21, R25, R26: a host write of one octet is read back, every other octet of either buffer reads as before, and
the memory stays canonical. -/
def Obligations.HostWriteChangesOneOctet : Prop :=
  ∀ (b : Buffer) (pos : Nat) (v : Octet) (s : State), (bufMem b s).wf → s.status.busy = false → pos < bufMax b →
    ∃ t, hostWrite (.octet b pos v) s = .next t ∧ (bufMem b t).wf ∧
      (∀ a, (bufMem b t).read a = if a = pos then some v else (bufMem b s).read a) ∧
      (∀ b', b' ≠ b → bufMem b' t = bufMem b' s) ∧ (∀ b', bufLen b' t = bufLen b' s) ∧
      t = { s with raw := t.raw, info := t.info }

/-! The errors of the two pack walks, field by field. -/

/-- R126, R200 to R216, R265: fail closed on a malformed field of `DEC_ANALOG`. In the pack after any number of whole packs, a
field cut short by the end of the payload is an `Overrun`, and a field that is read and holds a character without a digit value
is a `BadHex`, each under that field's identifier, whatever follows; the group is invalid, nothing else changes. (At the count
field the pack before must end with a stray field: without one the trailing test meets the broken characters first,
`AnalogLeftoverErrors`.) -/
def Obligations.BrokenAnalogFieldIsNamed : Prop :=
  ∀ (s : State) (lead x rest : Text) (n c : Nat) (ps : List (PackData × List Nat)) (p : PackData) (fs gs : List Field)
    (f : Field),
    bufText .info s = .ok (lead ++ digits2 n ++ packsText ps ++ fs.flatMap Field.chars ++ x ++ rest) →
    lead.length = leadChars s.cfg.leadSkip → ps.length < n → n < 256 → Absorbed c ps → p.Fits → p.volts.length = c →
    p.fields = fs ++ f :: gs → (fs = [] → ∀ q ∈ ps.getLast?, q.2 ≠ []) →
    let fails := fun (detail : BitVec 8) =>
      ∃ k, exec .decAnalog s = .next { s with analog := none, work := k, status := ended 4 detail f.code }
    (x.length < f.chars.length → rest = [] → fails 1) ∧
    (x.length = f.chars.length → f.read = true → hexToInt s.cfg.hexLower x = none → fails 2)

/-- R214, R216: the characters after a whole pack of `DEC_ANALOG`: one character alone is an `Overrun` of F_FLAG, a pair that is no
digits a `BadHex` of F_FLAG, whether or not a pack is still to come; none, with a pack still to come, an `Overrun` of F_CELLS. -/
def Obligations.AnalogLeftoverErrors : Prop :=
  ∀ (s : State) (lead rest : Text) (n c : Nat) (ps : List (PackData × List Nat)) (p : PackData),
    bufText .info s = .ok (lead ++ digits2 n ++ packsText (ps ++ [(p, [])]) ++ rest) →
    lead.length = leadChars s.cfg.leadSkip → ps.length < n → n < 256 → Absorbed c (ps ++ [(p, [])]) →
    let fails := fun (detail : BitVec 8) (field : BitVec 6) =>
      ∃ k, exec .decAnalog s = .next { s with analog := none, work := k, status := ended 4 detail field }
    (rest.length = 1 → fails 1 18) ∧
    (2 ≤ rest.length → hexToInt s.cfg.hexLower (rest.take 2) = none → fails 2 18) ∧
    (rest = [] → ps.length + 1 < n → fails 1 4)

/-- R126, R231 to R245, R265: fail closed on a malformed field of `DEC_WARN`: as `BrokenAnalogFieldIsNamed`. Every field of a
warning pack is read. -/
def Obligations.BrokenWarnFieldIsNamed : Prop :=
  ∀ (s : State) (lead x rest : Text) (n : Nat) (ps : List (WarnData × Option Nat)) (d : WarnData) (fs gs : List Field)
    (f : Field),
    bufText .info s = .ok (lead ++ digits2 n ++ warnsText ps ++ fs.flatMap Field.chars ++ x ++ rest) →
    lead.length = leadChars s.cfg.leadSkip → ps.length < n → n < 256 → (∀ q ∈ ps, q.1.Fits) → d.Fits →
    Separated (ps ++ [(d, none)]) → d.fields = fs ++ f :: gs → (fs = [] → ∀ q ∈ ps.getLast?, q.2 ≠ none) →
    let fails := fun (detail : BitVec 8) =>
      ∃ k, exec .decWarn s = .next { s with warn := none, work := k, status := ended 4 detail f.code }
    (x.length < f.chars.length → rest = [] → fails 1) ∧
    (x.length = f.chars.length → hexToInt s.cfg.hexLower x = none → fails 2)

/-- R244 to R246: the characters after a whole pack of `DEC_WARN`: as `AnalogLeftoverErrors`; none, with a pack still to come, is an
`Overrun` of F_CELLSW. -/
def Obligations.WarnLeftoverErrors : Prop :=
  ∀ (s : State) (lead rest : Text) (n : Nat) (ps : List (WarnData × Option Nat)) (d : WarnData),
    bufText .info s = .ok (lead ++ digits2 n ++ warnsText (ps ++ [(d, none)]) ++ rest) →
    lead.length = leadChars s.cfg.leadSkip → ps.length < n → n < 256 → (∀ q ∈ ps, q.1.Fits) → d.Fits →
    Separated (ps ++ [(d, none)]) →
    let fails := fun (detail : BitVec 8) (field : BitVec 6) =>
      ∃ k, exec .decWarn s = .next { s with warn := none, work := k, status := ended 4 detail field }
    (rest.length = 1 → fails 1 18) ∧
    (2 ≤ rest.length → hexToInt s.cfg.hexLower (rest.take 2) = none → fails 2 18) ∧
    (rest = [] → ps.length + 1 < n → fails 1 22)

/-- R158: the octet after CHKSUM is not inspected: any octet in the last position of an accepted buffer gives `Ok` with the same
INFO, length and latch. -/
def Obligations.LastOctetIsNotInspected : Prop :=
  ∀ (s s' t : State) (buf : Text) (o : Octet), bufText .raw s = .ok buf → exec .decodeResp s = .next t →
    t.status.kind = 0 → s'.cfg = s.cfg → bufText .raw s' = .ok (buf.set (buf.length - 1) o) →
    ∃ u, exec .decodeResp s' = .next u ∧ u.status = ended 0 0 0 ∧ u.infoLen = t.infoLen ∧ u.rtnLatch = t.rtnLatch ∧
      ∀ a, octetAt .info u a = octetAt .info t a

/-! The host's accesses. -/

/-- 10_state.md R21: the host writes and reads every operand register while `BUSY = 0`: a write changes that register alone, and a
read then gives what was written. -/
def Obligations.HostWritesAndReadsOperandRegisters : Prop :=
  ∀ s : State, s.status.busy = false →
    (∀ v, ∃ t, hostWrite (.op v) s = .next t ∧ t = { s with op := v } ∧ hostReadOperand .op t = .ok (.code v)) ∧
    (∀ c, ∃ t, hostWrite (.ver c) s = .next t ∧ t = { s with ver := c } ∧ hostReadOperand .ver t = .ok (.pair c)) ∧
    (∀ c, ∃ t, hostWrite (.adr c) s = .next t ∧ t = { s with adr := c } ∧ hostReadOperand .adr t = .ok (.pair c)) ∧
    (∀ c, ∃ t, hostWrite (.cid1 c) s = .next t ∧ t = { s with cid1 := c } ∧ hostReadOperand .cid1 t = .ok (.pair c)) ∧
    (∀ c, ∃ t, hostWrite (.cid2 c) s = .next t ∧ t = { s with cid2 := c } ∧ hostReadOperand .cid2 t = .ok (.pair c)) ∧
    (∀ b, ∃ t, hostWrite (.lenidOvrEn b) s = .next t ∧ t = { s with lenidOvrEn := b } ∧
      hostReadOperand .lenidOvrEn t = .ok (.enable b)) ∧
    (∀ c, ∃ t, hostWrite (.lenidOvr c) s = .next t ∧ t = { s with lenidOvr := c } ∧
      hostReadOperand .lenidOvr t = .ok (.triple c)) ∧
    (∀ c, ∃ t, hostWrite (.larg c) s = .next t ∧ t = { s with larg := c } ∧ hostReadOperand .larg t = .ok (.triple c)) ∧
    hostReadOperand .rawLen s = .ok (.rawLength s.rawLen) ∧ hostReadOperand .infoLen s = .ok (.infoLength s.infoLen)

/-- 10_state.md R25, R26: a host write of a length within the buffer's size sets the length; octets below it that had a value keep
it, octets at and beyond it have none; the other buffer, its length and every register stay. That an octet beyond the length loses
its value for good (a longer length written later does not bring it back) is the model's choice, assumption log 9. -/
def Obligations.HostWriteSetsLength : Prop :=
  ∀ (b : Buffer) (n : Nat) (s : State), (bufMem b s).wf → s.status.busy = false → n ≤ bufMax b →
    ∃ t, hostWrite (.length b n) s = .next t ∧ bufLen b t = n ∧ (bufMem b t).wf ∧
      (∀ i, octetAt b t i = if i < n then (bufMem b s).read i else none) ∧
      (∀ i, (bufMem b t).read i = if i < n then (bufMem b s).read i else none) ∧
      (∀ b', b' ≠ b → bufMem b' t = bufMem b' s ∧ bufLen b' t = bufLen b' s) ∧
      t = { s with raw := t.raw, rawLen := t.rawLen, info := t.info, infoLen := t.infoLen }

/-- 60_exceptions.md R291, R294: a host write of a text within the buffer's size makes it the buffer's content, its length the number
of octets, and the host reads each octet back; the other buffer, its length and every register stay. -/
def Obligations.HostWriteSetsText : Prop :=
  ∀ (b : Buffer) (x : Text) (s : State), s.status.busy = false → x.length ≤ bufMax b →
    ∃ t, hostWrite (.text b x) s = .next t ∧ bufText b t = .ok x ∧ bufLen b t = x.length ∧ (bufMem b t).wf ∧
      (∀ i o, x[i]? = some o → hostReadOctet b i t = .ok o) ∧
      (∀ b', b' ≠ b → bufMem b' t = bufMem b' s ∧ bufLen b' t = bufLen b' s) ∧
      t = { s with raw := t.raw, rawLen := t.rawLen, info := t.info, infoLen := t.infoLen }

/-- 60_exceptions.md R294: a host that writes beyond `RAW_MAX` or `INFO_MAX`, an octet, a length or a text, has no move. That it stops
under the name `noSuchPosition` is assumption log 13. -/
def Obligations.HostHasNoMoveBeyondBuffer : Prop :=
  ∀ (b : Buffer) (n : Nat) (v : Octet) (x : Text) (s : State), s.status.busy = false →
    (bufMax b ≤ n → hostWrite (.octet b n v) s = .fault (.noSuchPosition b n)) ∧
    (bufMax b < n → hostWrite (.length b n) s = .fault (.noSuchPosition b n)) ∧
    (bufMax b < x.length → hostWrite (.text b x) s = .fault (.noSuchPosition b x.length)) ∧
    bufMax .raw = 4113 ∧ bufMax .info = 4095

/-- 10_state.md R23, 60_exceptions.md R280: no host read depends on a working register; operand registers, lengths and buffer octets
are read only while `BUSY = 0`. -/
def Obligations.HostReadsNoWorkingRegister : Prop :=
  ∀ (s : State) (k : Work), let t : State := { s with work := k }
    (∀ r, hostReadOperand r t = hostReadOperand r s) ∧ (∀ b i, hostReadOctet b i t = hostReadOctet b i s) ∧
    hostReadStatus t = hostReadStatus s ∧ hostReadRtnLatch t = hostReadRtnLatch s ∧
    hostReadCk t = hostReadCk s ∧ hostReadLck t = hostReadLck s ∧ hostReadVersion t = hostReadVersion s ∧
    hostReadSerial t = hostReadSerial s ∧ hostReadAnalog t = hostReadAnalog s ∧ hostReadCap t = hostReadCap s ∧
    hostReadWarn t = hostReadWarn s ∧
    (s.status.busy = true → (∀ r, hostReadOperand r s = .error .hostWhileBusy) ∧
      ∀ b i, hostReadOctet b i s = .error .hostWhileBusy)

/-- 60_exceptions.md R294: a host that keeps its duties keeps the invariant: every host write that has a move does, a write of a
length when every octet below it has a value. -/
def Obligations.HostWritesKeepInvariant : Prop :=
  ∀ (w : HostWrite) (s t : State), s.Inv → hostWrite w s = .next t →
    (∀ b n, w = .length b n → ∀ i, i < n → ((bufMem b s).read i).isSome = true) → t.Inv
end

