-- ==== Sys2Proof/Laws/Memory.lean ====
section
/-! SUPPORT. The laws of a buffer's cells: read after write, what a whole text reads as, and that every memory operation keeps
the canonical form. -/

namespace Sys2Proof.Machine

@[simp] theorem Memory.read_nil (a : Nat) : Memory.read [] a = none := rfl

@[simp] theorem Memory.read_empty (a : Nat) : Memory.empty.read a = none := rfl

@[simp] theorem Memory.read_cons (c : Host.Cell) (m : Memory) (a : Nat) :
    Memory.read (c :: m) a = if c.1 = a then some c.2 else Memory.read m a := rfl

/-- Nothing stands below the first position of a canonical memory. -/
theorem Memory.read_eq_none (m : Memory) (a : Nat) (h : ∀ c ∈ m, c.1 ≠ a) : m.read a = none := by
  induction m with
  | nil => rfl
  | cons c m ih =>
    simp only [List.mem_cons, forall_eq_or_imp] at h
    rw [Memory.read_cons, if_neg h.1, ih h.2]

theorem Memory.read_some_mem (m : Memory) (a : Nat) (v : Octet) (h : m.read a = some v) : (a, v) ∈ m := by
  induction m with
  | nil => simp at h
  | cons c m ih =>
    rw [Memory.read_cons] at h
    split at h
    · next e =>
      cases h
      subst e
      exact List.mem_cons_self
    · exact List.mem_cons_of_mem _ (ih h)

/-- Read after write: the written position gives the value, every other keeps what it had. -/
theorem Memory.read_write (m : Memory) (a b : Nat) (v : Octet) (h : m.wf) :
    (m.write a v).read b = if a = b then some v else m.read b := by
  induction m with
  | nil => simp [Memory.write]
  | cons c m ih =>
    have hm := List.pairwise_cons.mp h
    unfold Memory.write
    split
    · simp
    · split
      · next e =>
        subst e
        simp only [Memory.read_cons]
        split <;> simp_all
      · simp only [Memory.read_cons, ih hm.2]
        split
        · next e => simp; intro hab; omega
        · rfl

theorem Memory.mem_write (m : Memory) (a : Nat) (v : Octet) (c : Host.Cell) (h : c ∈ m.write a v) :
    c = (a, v) ∨ c ∈ m := by
  induction m with
  | nil => simpa [Memory.write] using h
  | cons d m ih =>
    unfold Memory.write at h
    split at h
    · simpa using h
    · split at h
      · rcases List.mem_cons.mp h with h | h
        · exact .inl h
        · exact .inr (List.mem_cons_of_mem _ h)
      · rcases List.mem_cons.mp h with h | h
        · exact .inr (h ▸ List.mem_cons_self)
        · rcases ih h with h | h
          · exact .inl h
          · exact .inr (List.mem_cons_of_mem _ h)

theorem Memory.write_wf (m : Memory) (a : Nat) (v : Octet) (h : m.wf) : (m.write a v).wf := by
  induction m with
  | nil => simp [Memory.write, Memory.wf]
  | cons c m ih =>
    have hm := List.pairwise_cons.mp h
    unfold Memory.write
    split
    · next hlt =>
      refine List.pairwise_cons.mpr ⟨fun d hd => ?_, h⟩
      rcases List.mem_cons.mp hd with rfl | hd
      · exact hlt
      · exact lt_trans hlt (hm.1 d hd)
    · split
      · next e =>
        refine List.pairwise_cons.mpr ⟨fun d hd => ?_, hm.2⟩
        have := hm.1 d hd
        simp only
        omega
      · next h1 h2 =>
        refine List.pairwise_cons.mpr ⟨fun d hd => ?_, ih hm.2⟩
        rcases Memory.mem_write m a v d hd with rfl | hd
        · simp only
          omega
        · exact hm.1 d hd

theorem Memory.cellsFrom_bounds (a : Nat) (t : Text) (c : Host.Cell) (h : c ∈ Memory.cellsFrom a t) :
    a ≤ c.1 ∧ c.1 < a + t.length := by
  induction t generalizing a with
  | nil => simp [Memory.cellsFrom] at h
  | cons o t ih =>
    simp only [Memory.cellsFrom, List.mem_cons] at h
    rcases h with rfl | h
    · simp
    · have := ih (a + 1) h
      simp only [List.length_cons]
      omega

theorem Memory.cellsFrom_wf (a : Nat) (t : Text) : (Memory.cellsFrom a t).wf := by
  induction t generalizing a with
  | nil => exact List.Pairwise.nil
  | cons o t ih =>
    refine List.pairwise_cons.mpr ⟨fun c h => ?_, ih (a + 1)⟩
    have := Memory.cellsFrom_bounds (a + 1) t c h
    simp only
    omega

/-- A text put in whole is canonical. -/
theorem Memory.ofText_wf (t : Text) : (Memory.ofText t).wf := Memory.cellsFrom_wf 0 t

theorem Memory.read_cellsFrom (a : Nat) (t : Text) (i : Nat) : (Memory.cellsFrom a t).read (a + i) = t[i]? := by
  induction t generalizing a i with
  | nil => simp [Memory.cellsFrom]
  | cons o t ih =>
    cases i with
    | zero => simp [Memory.cellsFrom]
    | succ i =>
      have := ih (a + 1) i
      simp only [Memory.cellsFrom, Memory.read_cons]
      rw [if_neg (by omega), show a + (i + 1) = a + 1 + i by omega, this]
      rfl

/-- A text put in whole reads as the text, and nowhere else. -/
@[simp] theorem Memory.read_ofText (t : Text) (i : Nat) : (Memory.ofText t).read i = t[i]? := by
  have h := Memory.read_cellsFrom 0 t i
  rw [Nat.zero_add] at h
  exact h

theorem Memory.truncate_wf (m : Memory) (n : Nat) (h : m.wf) : (m.truncate n).wf := List.Pairwise.filter _ h

theorem Memory.read_truncate (m : Memory) (n a : Nat) : (m.truncate n).read a = if a < n then m.read a else none := by
  induction m with
  | nil => simp [Memory.truncate]
  | cons c m ih =>
    simp only [Memory.truncate, List.filter_cons] at ih ⊢
    by_cases hc : c.1 < n
    · simp only [hc, decide_true, if_true, Memory.read_cons, ih]
      split
      · next e => subst e; simp [hc]
      · rfl
    · simp only [hc, decide_false, Memory.read_cons]
      simp only [Bool.false_eq_true, if_false, ih]
      split
      · rw [if_neg (by omega)]
      · rfl

theorem Memory.empty_wf : Memory.empty.wf := List.Pairwise.nil

end Sys2Proof.Machine
end

