-- ==== Sys2Proof/Laws/State.lean ====
section
/-! SUPPORT. One lemma per field of `State` for each named update of the model, so that no later proof unfolds a record
update. -/

namespace Sys2Proof.Machine


/-! `finishOk` -/

@[simp] theorem finishOk_cfg (s : State) : (finishOk s).cfg = s.cfg := rfl
@[simp] theorem finishOk_op (s : State) : (finishOk s).op = s.op := rfl
@[simp] theorem finishOk_opLatched (s : State) : (finishOk s).opLatched = s.opLatched := rfl
@[simp] theorem finishOk_ver (s : State) : (finishOk s).ver = s.ver := rfl
@[simp] theorem finishOk_adr (s : State) : (finishOk s).adr = s.adr := rfl
@[simp] theorem finishOk_cid1 (s : State) : (finishOk s).cid1 = s.cid1 := rfl
@[simp] theorem finishOk_cid2 (s : State) : (finishOk s).cid2 = s.cid2 := rfl
@[simp] theorem finishOk_lenidOvrEn (s : State) : (finishOk s).lenidOvrEn = s.lenidOvrEn := rfl
@[simp] theorem finishOk_lenidOvr (s : State) : (finishOk s).lenidOvr = s.lenidOvr := rfl
@[simp] theorem finishOk_larg (s : State) : (finishOk s).larg = s.larg := rfl
@[simp] theorem finishOk_raw (s : State) : (finishOk s).raw = s.raw := rfl
@[simp] theorem finishOk_rawLen (s : State) : (finishOk s).rawLen = s.rawLen := rfl
@[simp] theorem finishOk_info (s : State) : (finishOk s).info = s.info := rfl
@[simp] theorem finishOk_infoLen (s : State) : (finishOk s).infoLen = s.infoLen := rfl
@[simp] theorem finishOk_work (s : State) : (finishOk s).work = s.work := rfl
@[simp] theorem finishOk_status (s : State) : (finishOk s).status = okStatus := rfl
@[simp] theorem finishOk_rtnLatch (s : State) : (finishOk s).rtnLatch = s.rtnLatch := rfl
@[simp] theorem finishOk_ck (s : State) : (finishOk s).ck = s.ck := rfl
@[simp] theorem finishOk_lck (s : State) : (finishOk s).lck = s.lck := rfl
@[simp] theorem finishOk_idVer (s : State) : (finishOk s).idVer = s.idVer := rfl
@[simp] theorem finishOk_idSn (s : State) : (finishOk s).idSn = s.idSn := rfl
@[simp] theorem finishOk_analog (s : State) : (finishOk s).analog = s.analog := rfl
@[simp] theorem finishOk_cap (s : State) : (finishOk s).cap = s.cap := rfl
@[simp] theorem finishOk_warn (s : State) : (finishOk s).warn = s.warn := rfl

/-! `startOp` -/

@[simp] theorem startOp_cfg (s : State) : (startOp s).cfg = s.cfg := rfl
@[simp] theorem startOp_op (s : State) : (startOp s).op = s.op := rfl
@[simp] theorem startOp_opLatched (s : State) : (startOp s).opLatched = s.op := rfl
@[simp] theorem startOp_ver (s : State) : (startOp s).ver = s.ver := rfl
@[simp] theorem startOp_adr (s : State) : (startOp s).adr = s.adr := rfl
@[simp] theorem startOp_cid1 (s : State) : (startOp s).cid1 = s.cid1 := rfl
@[simp] theorem startOp_cid2 (s : State) : (startOp s).cid2 = s.cid2 := rfl
@[simp] theorem startOp_lenidOvrEn (s : State) : (startOp s).lenidOvrEn = s.lenidOvrEn := rfl
@[simp] theorem startOp_lenidOvr (s : State) : (startOp s).lenidOvr = s.lenidOvr := rfl
@[simp] theorem startOp_larg (s : State) : (startOp s).larg = s.larg := rfl
@[simp] theorem startOp_raw (s : State) : (startOp s).raw = s.raw := rfl
@[simp] theorem startOp_rawLen (s : State) : (startOp s).rawLen = s.rawLen := rfl
@[simp] theorem startOp_info (s : State) : (startOp s).info = s.info := rfl
@[simp] theorem startOp_infoLen (s : State) : (startOp s).infoLen = s.infoLen := rfl
@[simp] theorem startOp_work (s : State) : (startOp s).work = s.work := rfl
@[simp] theorem startOp_rtnLatch (s : State) : (startOp s).rtnLatch = s.rtnLatch := rfl
@[simp] theorem startOp_ck (s : State) : (startOp s).ck = s.ck := rfl
@[simp] theorem startOp_lck (s : State) : (startOp s).lck = s.lck := rfl
@[simp] theorem startOp_idVer (s : State) : (startOp s).idVer = s.idVer := rfl
@[simp] theorem startOp_idSn (s : State) : (startOp s).idSn = s.idSn := rfl
@[simp] theorem startOp_analog (s : State) : (startOp s).analog = s.analog := rfl
@[simp] theorem startOp_cap (s : State) : (startOp s).cap = s.cap := rfl
@[simp] theorem startOp_warn (s : State) : (startOp s).warn = s.warn := rfl
@[simp] theorem startOp_status (s : State) :
    (startOp s).status = ⟨true, false, s.status.kind, s.status.detail, s.status.field⟩ := rfl

/-! `raiseIllegal` -/

@[simp] theorem raiseIllegal_cfg (c : BitVec 4) (s : State) : (raiseIllegal c s).cfg = s.cfg := rfl
@[simp] theorem raiseIllegal_op (c : BitVec 4) (s : State) : (raiseIllegal c s).op = s.op := rfl
@[simp] theorem raiseIllegal_opLatched (c : BitVec 4) (s : State) : (raiseIllegal c s).opLatched = s.opLatched := rfl
@[simp] theorem raiseIllegal_ver (c : BitVec 4) (s : State) : (raiseIllegal c s).ver = s.ver := rfl
@[simp] theorem raiseIllegal_adr (c : BitVec 4) (s : State) : (raiseIllegal c s).adr = s.adr := rfl
@[simp] theorem raiseIllegal_cid1 (c : BitVec 4) (s : State) : (raiseIllegal c s).cid1 = s.cid1 := rfl
@[simp] theorem raiseIllegal_cid2 (c : BitVec 4) (s : State) : (raiseIllegal c s).cid2 = s.cid2 := rfl
@[simp] theorem raiseIllegal_lenidOvrEn (c : BitVec 4) (s : State) : (raiseIllegal c s).lenidOvrEn = s.lenidOvrEn := rfl
@[simp] theorem raiseIllegal_lenidOvr (c : BitVec 4) (s : State) : (raiseIllegal c s).lenidOvr = s.lenidOvr := rfl
@[simp] theorem raiseIllegal_larg (c : BitVec 4) (s : State) : (raiseIllegal c s).larg = s.larg := rfl
@[simp] theorem raiseIllegal_raw (c : BitVec 4) (s : State) : (raiseIllegal c s).raw = s.raw := rfl
@[simp] theorem raiseIllegal_rawLen (c : BitVec 4) (s : State) : (raiseIllegal c s).rawLen = s.rawLen := rfl
@[simp] theorem raiseIllegal_info (c : BitVec 4) (s : State) : (raiseIllegal c s).info = s.info := rfl
@[simp] theorem raiseIllegal_infoLen (c : BitVec 4) (s : State) : (raiseIllegal c s).infoLen = s.infoLen := rfl
@[simp] theorem raiseIllegal_work (c : BitVec 4) (s : State) : (raiseIllegal c s).work = s.work := rfl
@[simp] theorem raiseIllegal_status (c : BitVec 4) (s : State) : (raiseIllegal c s).status = errStatus (.illegalOp c) := rfl
@[simp] theorem raiseIllegal_rtnLatch (c : BitVec 4) (s : State) : (raiseIllegal c s).rtnLatch = s.rtnLatch := rfl
@[simp] theorem raiseIllegal_ck (c : BitVec 4) (s : State) : (raiseIllegal c s).ck = s.ck := rfl
@[simp] theorem raiseIllegal_lck (c : BitVec 4) (s : State) : (raiseIllegal c s).lck = s.lck := rfl
@[simp] theorem raiseIllegal_idVer (c : BitVec 4) (s : State) : (raiseIllegal c s).idVer = s.idVer := rfl
@[simp] theorem raiseIllegal_idSn (c : BitVec 4) (s : State) : (raiseIllegal c s).idSn = s.idSn := rfl
@[simp] theorem raiseIllegal_analog (c : BitVec 4) (s : State) : (raiseIllegal c s).analog = s.analog := rfl
@[simp] theorem raiseIllegal_cap (c : BitVec 4) (s : State) : (raiseIllegal c s).cap = s.cap := rfl
@[simp] theorem raiseIllegal_warn (c : BitVec 4) (s : State) : (raiseIllegal c s).warn = s.warn := rfl

/-! `hostReset` -/

@[simp] theorem hostReset_cfg (s : State) : (hostReset s).cfg = s.cfg := rfl
@[simp] theorem hostReset_op (s : State) : (hostReset s).op = (State.resetWith s.cfg).op := rfl
@[simp] theorem hostReset_opLatched (s : State) : (hostReset s).opLatched = (State.resetWith s.cfg).opLatched := rfl
@[simp] theorem hostReset_ver (s : State) : (hostReset s).ver = (State.resetWith s.cfg).ver := rfl
@[simp] theorem hostReset_adr (s : State) : (hostReset s).adr = (State.resetWith s.cfg).adr := rfl
@[simp] theorem hostReset_cid1 (s : State) : (hostReset s).cid1 = (State.resetWith s.cfg).cid1 := rfl
@[simp] theorem hostReset_cid2 (s : State) : (hostReset s).cid2 = (State.resetWith s.cfg).cid2 := rfl
@[simp] theorem hostReset_lenidOvrEn (s : State) : (hostReset s).lenidOvrEn = (State.resetWith s.cfg).lenidOvrEn := rfl
@[simp] theorem hostReset_lenidOvr (s : State) : (hostReset s).lenidOvr = (State.resetWith s.cfg).lenidOvr := rfl
@[simp] theorem hostReset_larg (s : State) : (hostReset s).larg = (State.resetWith s.cfg).larg := rfl
@[simp] theorem hostReset_raw (s : State) : (hostReset s).raw = (State.resetWith s.cfg).raw := rfl
@[simp] theorem hostReset_rawLen (s : State) : (hostReset s).rawLen = (State.resetWith s.cfg).rawLen := rfl
@[simp] theorem hostReset_info (s : State) : (hostReset s).info = (State.resetWith s.cfg).info := rfl
@[simp] theorem hostReset_infoLen (s : State) : (hostReset s).infoLen = (State.resetWith s.cfg).infoLen := rfl
@[simp] theorem hostReset_work (s : State) : (hostReset s).work = (State.resetWith s.cfg).work := rfl
@[simp] theorem hostReset_status (s : State) : (hostReset s).status = (State.resetWith s.cfg).status := rfl
@[simp] theorem hostReset_rtnLatch (s : State) : (hostReset s).rtnLatch = (State.resetWith s.cfg).rtnLatch := rfl
@[simp] theorem hostReset_ck (s : State) : (hostReset s).ck = (State.resetWith s.cfg).ck := rfl
@[simp] theorem hostReset_lck (s : State) : (hostReset s).lck = (State.resetWith s.cfg).lck := rfl
@[simp] theorem hostReset_idVer (s : State) : (hostReset s).idVer = (State.resetWith s.cfg).idVer := rfl
@[simp] theorem hostReset_idSn (s : State) : (hostReset s).idSn = (State.resetWith s.cfg).idSn := rfl
@[simp] theorem hostReset_analog (s : State) : (hostReset s).analog = (State.resetWith s.cfg).analog := rfl
@[simp] theorem hostReset_cap (s : State) : (hostReset s).cap = (State.resetWith s.cfg).cap := rfl
@[simp] theorem hostReset_warn (s : State) : (hostReset s).warn = (State.resetWith s.cfg).warn := rfl

/-! `invalidate` and `raiseErr`: what no group names, then each group. -/

@[simp] theorem invalidate_cfg (g : Group) (s : State) : (invalidate g s).cfg = s.cfg := by cases g <;> rfl
@[simp] theorem raiseErr_cfg (g : Group) (e : OpError) (s : State) : (raiseErr g e s).cfg = s.cfg := by cases g <;> rfl
@[simp] theorem invalidate_op (g : Group) (s : State) : (invalidate g s).op = s.op := by cases g <;> rfl
@[simp] theorem raiseErr_op (g : Group) (e : OpError) (s : State) : (raiseErr g e s).op = s.op := by cases g <;> rfl
@[simp] theorem invalidate_opLatched (g : Group) (s : State) : (invalidate g s).opLatched = s.opLatched := by cases g <;> rfl
@[simp] theorem raiseErr_opLatched (g : Group) (e : OpError) (s : State) : (raiseErr g e s).opLatched = s.opLatched := by cases g <;> rfl
@[simp] theorem invalidate_ver (g : Group) (s : State) : (invalidate g s).ver = s.ver := by cases g <;> rfl
@[simp] theorem raiseErr_ver (g : Group) (e : OpError) (s : State) : (raiseErr g e s).ver = s.ver := by cases g <;> rfl
@[simp] theorem invalidate_adr (g : Group) (s : State) : (invalidate g s).adr = s.adr := by cases g <;> rfl
@[simp] theorem raiseErr_adr (g : Group) (e : OpError) (s : State) : (raiseErr g e s).adr = s.adr := by cases g <;> rfl
@[simp] theorem invalidate_cid1 (g : Group) (s : State) : (invalidate g s).cid1 = s.cid1 := by cases g <;> rfl
@[simp] theorem raiseErr_cid1 (g : Group) (e : OpError) (s : State) : (raiseErr g e s).cid1 = s.cid1 := by cases g <;> rfl
@[simp] theorem invalidate_cid2 (g : Group) (s : State) : (invalidate g s).cid2 = s.cid2 := by cases g <;> rfl
@[simp] theorem raiseErr_cid2 (g : Group) (e : OpError) (s : State) : (raiseErr g e s).cid2 = s.cid2 := by cases g <;> rfl
@[simp] theorem invalidate_lenidOvrEn (g : Group) (s : State) : (invalidate g s).lenidOvrEn = s.lenidOvrEn := by cases g <;> rfl
@[simp] theorem raiseErr_lenidOvrEn (g : Group) (e : OpError) (s : State) : (raiseErr g e s).lenidOvrEn = s.lenidOvrEn := by cases g <;> rfl
@[simp] theorem invalidate_lenidOvr (g : Group) (s : State) : (invalidate g s).lenidOvr = s.lenidOvr := by cases g <;> rfl
@[simp] theorem raiseErr_lenidOvr (g : Group) (e : OpError) (s : State) : (raiseErr g e s).lenidOvr = s.lenidOvr := by cases g <;> rfl
@[simp] theorem invalidate_larg (g : Group) (s : State) : (invalidate g s).larg = s.larg := by cases g <;> rfl
@[simp] theorem raiseErr_larg (g : Group) (e : OpError) (s : State) : (raiseErr g e s).larg = s.larg := by cases g <;> rfl
@[simp] theorem invalidate_work (g : Group) (s : State) : (invalidate g s).work = s.work := by cases g <;> rfl
@[simp] theorem raiseErr_work (g : Group) (e : OpError) (s : State) : (raiseErr g e s).work = s.work := by cases g <;> rfl
@[simp] theorem invalidate_status (g : Group) (s : State) : (invalidate g s).status = s.status := by cases g <;> rfl
@[simp] theorem raiseErr_status (g : Group) (e : OpError) (s : State) : (raiseErr g e s).status = errStatus e := by cases g <;> rfl
@[simp] theorem invalidate_rtnLatch (g : Group) (s : State) : (invalidate g s).rtnLatch = s.rtnLatch := by cases g <;> rfl
@[simp] theorem raiseErr_rtnLatch (g : Group) (e : OpError) (s : State) : (raiseErr g e s).rtnLatch = s.rtnLatch := by cases g <;> rfl
@[simp] theorem invalidate_frame_raw (s : State) : (invalidate .frame s).raw = Memory.empty := rfl
@[simp] theorem raiseErr_frame_raw (e : OpError) (s : State) : (raiseErr .frame e s).raw = Memory.empty := rfl
theorem invalidate_raw_other (g : Group) (s : State) (h : g ≠ .frame) : (invalidate g s).raw = s.raw := by
  cases g <;> first | rfl | exact absurd rfl h
theorem raiseErr_raw_other (g : Group) (e : OpError) (s : State) (h : g ≠ .frame) : (raiseErr g e s).raw = s.raw := by
  cases g <;> first | rfl | exact absurd rfl h
@[simp] theorem invalidate_frame_rawLen (s : State) : (invalidate .frame s).rawLen = 0 := rfl
@[simp] theorem raiseErr_frame_rawLen (e : OpError) (s : State) : (raiseErr .frame e s).rawLen = 0 := rfl
theorem invalidate_rawLen_other (g : Group) (s : State) (h : g ≠ .frame) : (invalidate g s).rawLen = s.rawLen := by
  cases g <;> first | rfl | exact absurd rfl h
theorem raiseErr_rawLen_other (g : Group) (e : OpError) (s : State) (h : g ≠ .frame) : (raiseErr g e s).rawLen = s.rawLen := by
  cases g <;> first | rfl | exact absurd rfl h
@[simp] theorem invalidate_resp_info (s : State) : (invalidate .resp s).info = Memory.empty := rfl
@[simp] theorem raiseErr_resp_info (e : OpError) (s : State) : (raiseErr .resp e s).info = Memory.empty := rfl
theorem invalidate_info_other (g : Group) (s : State) (h : g ≠ .resp) : (invalidate g s).info = s.info := by
  cases g <;> first | rfl | exact absurd rfl h
theorem raiseErr_info_other (g : Group) (e : OpError) (s : State) (h : g ≠ .resp) : (raiseErr g e s).info = s.info := by
  cases g <;> first | rfl | exact absurd rfl h
@[simp] theorem invalidate_resp_infoLen (s : State) : (invalidate .resp s).infoLen = 0 := rfl
@[simp] theorem raiseErr_resp_infoLen (e : OpError) (s : State) : (raiseErr .resp e s).infoLen = 0 := rfl
theorem invalidate_infoLen_other (g : Group) (s : State) (h : g ≠ .resp) : (invalidate g s).infoLen = s.infoLen := by
  cases g <;> first | rfl | exact absurd rfl h
theorem raiseErr_infoLen_other (g : Group) (e : OpError) (s : State) (h : g ≠ .resp) : (raiseErr g e s).infoLen = s.infoLen := by
  cases g <;> first | rfl | exact absurd rfl h
@[simp] theorem invalidate_ck_ck (s : State) : (invalidate .ck s).ck = none := rfl
@[simp] theorem raiseErr_ck_ck (e : OpError) (s : State) : (raiseErr .ck e s).ck = none := rfl
theorem invalidate_ck_other (g : Group) (s : State) (h : g ≠ .ck) : (invalidate g s).ck = s.ck := by
  cases g <;> first | rfl | exact absurd rfl h
theorem raiseErr_ck_other (g : Group) (e : OpError) (s : State) (h : g ≠ .ck) : (raiseErr g e s).ck = s.ck := by
  cases g <;> first | rfl | exact absurd rfl h
@[simp] theorem invalidate_lck_lck (s : State) : (invalidate .lck s).lck = none := rfl
@[simp] theorem raiseErr_lck_lck (e : OpError) (s : State) : (raiseErr .lck e s).lck = none := rfl
theorem invalidate_lck_other (g : Group) (s : State) (h : g ≠ .lck) : (invalidate g s).lck = s.lck := by
  cases g <;> first | rfl | exact absurd rfl h
theorem raiseErr_lck_other (g : Group) (e : OpError) (s : State) (h : g ≠ .lck) : (raiseErr g e s).lck = s.lck := by
  cases g <;> first | rfl | exact absurd rfl h
@[simp] theorem invalidate_idVer_idVer (s : State) : (invalidate .idVer s).idVer = none := rfl
@[simp] theorem raiseErr_idVer_idVer (e : OpError) (s : State) : (raiseErr .idVer e s).idVer = none := rfl
theorem invalidate_idVer_other (g : Group) (s : State) (h : g ≠ .idVer) : (invalidate g s).idVer = s.idVer := by
  cases g <;> first | rfl | exact absurd rfl h
theorem raiseErr_idVer_other (g : Group) (e : OpError) (s : State) (h : g ≠ .idVer) : (raiseErr g e s).idVer = s.idVer := by
  cases g <;> first | rfl | exact absurd rfl h
@[simp] theorem invalidate_idSn_idSn (s : State) : (invalidate .idSn s).idSn = none := rfl
@[simp] theorem raiseErr_idSn_idSn (e : OpError) (s : State) : (raiseErr .idSn e s).idSn = none := rfl
theorem invalidate_idSn_other (g : Group) (s : State) (h : g ≠ .idSn) : (invalidate g s).idSn = s.idSn := by
  cases g <;> first | rfl | exact absurd rfl h
theorem raiseErr_idSn_other (g : Group) (e : OpError) (s : State) (h : g ≠ .idSn) : (raiseErr g e s).idSn = s.idSn := by
  cases g <;> first | rfl | exact absurd rfl h
@[simp] theorem invalidate_analog_analog (s : State) : (invalidate .analog s).analog = none := rfl
@[simp] theorem raiseErr_analog_analog (e : OpError) (s : State) : (raiseErr .analog e s).analog = none := rfl
theorem invalidate_analog_other (g : Group) (s : State) (h : g ≠ .analog) : (invalidate g s).analog = s.analog := by
  cases g <;> first | rfl | exact absurd rfl h
theorem raiseErr_analog_other (g : Group) (e : OpError) (s : State) (h : g ≠ .analog) : (raiseErr g e s).analog = s.analog := by
  cases g <;> first | rfl | exact absurd rfl h
@[simp] theorem invalidate_cap_cap (s : State) : (invalidate .cap s).cap = none := rfl
@[simp] theorem raiseErr_cap_cap (e : OpError) (s : State) : (raiseErr .cap e s).cap = none := rfl
theorem invalidate_cap_other (g : Group) (s : State) (h : g ≠ .cap) : (invalidate g s).cap = s.cap := by
  cases g <;> first | rfl | exact absurd rfl h
theorem raiseErr_cap_other (g : Group) (e : OpError) (s : State) (h : g ≠ .cap) : (raiseErr g e s).cap = s.cap := by
  cases g <;> first | rfl | exact absurd rfl h
@[simp] theorem invalidate_warn_warn (s : State) : (invalidate .warn s).warn = none := rfl
@[simp] theorem raiseErr_warn_warn (e : OpError) (s : State) : (raiseErr .warn e s).warn = none := rfl
theorem invalidate_warn_other (g : Group) (s : State) (h : g ≠ .warn) : (invalidate g s).warn = s.warn := by
  cases g <;> first | rfl | exact absurd rfl h
theorem raiseErr_warn_other (g : Group) (e : OpError) (s : State) (h : g ≠ .warn) : (raiseErr g e s).warn = s.warn := by
  cases g <;> first | rfl | exact absurd rfl h

/-! `putText`, `writeOctet`, `writeLength`: the buffer named and its length; nothing else. -/

@[simp] theorem putText_cfg (b : Buffer) (t : Text) (s : State) : (putText b t s).cfg = s.cfg := by cases b <;> rfl
@[simp] theorem putText_op (b : Buffer) (t : Text) (s : State) : (putText b t s).op = s.op := by cases b <;> rfl
@[simp] theorem putText_opLatched (b : Buffer) (t : Text) (s : State) : (putText b t s).opLatched = s.opLatched := by cases b <;> rfl
@[simp] theorem putText_ver (b : Buffer) (t : Text) (s : State) : (putText b t s).ver = s.ver := by cases b <;> rfl
@[simp] theorem putText_adr (b : Buffer) (t : Text) (s : State) : (putText b t s).adr = s.adr := by cases b <;> rfl
@[simp] theorem putText_cid1 (b : Buffer) (t : Text) (s : State) : (putText b t s).cid1 = s.cid1 := by cases b <;> rfl
@[simp] theorem putText_cid2 (b : Buffer) (t : Text) (s : State) : (putText b t s).cid2 = s.cid2 := by cases b <;> rfl
@[simp] theorem putText_lenidOvrEn (b : Buffer) (t : Text) (s : State) : (putText b t s).lenidOvrEn = s.lenidOvrEn := by cases b <;> rfl
@[simp] theorem putText_lenidOvr (b : Buffer) (t : Text) (s : State) : (putText b t s).lenidOvr = s.lenidOvr := by cases b <;> rfl
@[simp] theorem putText_larg (b : Buffer) (t : Text) (s : State) : (putText b t s).larg = s.larg := by cases b <;> rfl
@[simp] theorem putText_info_raw (t : Text) (s : State) : (putText .info t s).raw = s.raw := rfl
@[simp] theorem putText_info_rawLen (t : Text) (s : State) : (putText .info t s).rawLen = s.rawLen := rfl
@[simp] theorem putText_raw_info (t : Text) (s : State) : (putText .raw t s).info = s.info := rfl
@[simp] theorem putText_raw_infoLen (t : Text) (s : State) : (putText .raw t s).infoLen = s.infoLen := rfl
@[simp] theorem putText_work (b : Buffer) (t : Text) (s : State) : (putText b t s).work = s.work := by cases b <;> rfl
@[simp] theorem putText_status (b : Buffer) (t : Text) (s : State) : (putText b t s).status = s.status := by cases b <;> rfl
@[simp] theorem putText_rtnLatch (b : Buffer) (t : Text) (s : State) : (putText b t s).rtnLatch = s.rtnLatch := by cases b <;> rfl
@[simp] theorem putText_ck (b : Buffer) (t : Text) (s : State) : (putText b t s).ck = s.ck := by cases b <;> rfl
@[simp] theorem putText_lck (b : Buffer) (t : Text) (s : State) : (putText b t s).lck = s.lck := by cases b <;> rfl
@[simp] theorem putText_idVer (b : Buffer) (t : Text) (s : State) : (putText b t s).idVer = s.idVer := by cases b <;> rfl
@[simp] theorem putText_idSn (b : Buffer) (t : Text) (s : State) : (putText b t s).idSn = s.idSn := by cases b <;> rfl
@[simp] theorem putText_analog (b : Buffer) (t : Text) (s : State) : (putText b t s).analog = s.analog := by cases b <;> rfl
@[simp] theorem putText_cap (b : Buffer) (t : Text) (s : State) : (putText b t s).cap = s.cap := by cases b <;> rfl
@[simp] theorem putText_warn (b : Buffer) (t : Text) (s : State) : (putText b t s).warn = s.warn := by cases b <;> rfl

@[simp] theorem writeOctet_cfg (b : Buffer) (pos : Nat) (v : Octet) (s : State) : (writeOctet b pos v s).cfg = s.cfg := by cases b <;> rfl
@[simp] theorem writeOctet_op (b : Buffer) (pos : Nat) (v : Octet) (s : State) : (writeOctet b pos v s).op = s.op := by cases b <;> rfl
@[simp] theorem writeOctet_opLatched (b : Buffer) (pos : Nat) (v : Octet) (s : State) : (writeOctet b pos v s).opLatched = s.opLatched := by cases b <;> rfl
@[simp] theorem writeOctet_ver (b : Buffer) (pos : Nat) (v : Octet) (s : State) : (writeOctet b pos v s).ver = s.ver := by cases b <;> rfl
@[simp] theorem writeOctet_adr (b : Buffer) (pos : Nat) (v : Octet) (s : State) : (writeOctet b pos v s).adr = s.adr := by cases b <;> rfl
@[simp] theorem writeOctet_cid1 (b : Buffer) (pos : Nat) (v : Octet) (s : State) : (writeOctet b pos v s).cid1 = s.cid1 := by cases b <;> rfl
@[simp] theorem writeOctet_cid2 (b : Buffer) (pos : Nat) (v : Octet) (s : State) : (writeOctet b pos v s).cid2 = s.cid2 := by cases b <;> rfl
@[simp] theorem writeOctet_lenidOvrEn (b : Buffer) (pos : Nat) (v : Octet) (s : State) : (writeOctet b pos v s).lenidOvrEn = s.lenidOvrEn := by cases b <;> rfl
@[simp] theorem writeOctet_lenidOvr (b : Buffer) (pos : Nat) (v : Octet) (s : State) : (writeOctet b pos v s).lenidOvr = s.lenidOvr := by cases b <;> rfl
@[simp] theorem writeOctet_larg (b : Buffer) (pos : Nat) (v : Octet) (s : State) : (writeOctet b pos v s).larg = s.larg := by cases b <;> rfl
@[simp] theorem writeOctet_info_raw (pos : Nat) (v : Octet) (s : State) : (writeOctet .info pos v s).raw = s.raw := rfl
@[simp] theorem writeOctet_info_rawLen (pos : Nat) (v : Octet) (s : State) : (writeOctet .info pos v s).rawLen = s.rawLen := rfl
@[simp] theorem writeOctet_raw_info (pos : Nat) (v : Octet) (s : State) : (writeOctet .raw pos v s).info = s.info := rfl
@[simp] theorem writeOctet_raw_infoLen (pos : Nat) (v : Octet) (s : State) : (writeOctet .raw pos v s).infoLen = s.infoLen := rfl
@[simp] theorem writeOctet_work (b : Buffer) (pos : Nat) (v : Octet) (s : State) : (writeOctet b pos v s).work = s.work := by cases b <;> rfl
@[simp] theorem writeOctet_status (b : Buffer) (pos : Nat) (v : Octet) (s : State) : (writeOctet b pos v s).status = s.status := by cases b <;> rfl
@[simp] theorem writeOctet_rtnLatch (b : Buffer) (pos : Nat) (v : Octet) (s : State) : (writeOctet b pos v s).rtnLatch = s.rtnLatch := by cases b <;> rfl
@[simp] theorem writeOctet_ck (b : Buffer) (pos : Nat) (v : Octet) (s : State) : (writeOctet b pos v s).ck = s.ck := by cases b <;> rfl
@[simp] theorem writeOctet_lck (b : Buffer) (pos : Nat) (v : Octet) (s : State) : (writeOctet b pos v s).lck = s.lck := by cases b <;> rfl
@[simp] theorem writeOctet_idVer (b : Buffer) (pos : Nat) (v : Octet) (s : State) : (writeOctet b pos v s).idVer = s.idVer := by cases b <;> rfl
@[simp] theorem writeOctet_idSn (b : Buffer) (pos : Nat) (v : Octet) (s : State) : (writeOctet b pos v s).idSn = s.idSn := by cases b <;> rfl
@[simp] theorem writeOctet_analog (b : Buffer) (pos : Nat) (v : Octet) (s : State) : (writeOctet b pos v s).analog = s.analog := by cases b <;> rfl
@[simp] theorem writeOctet_cap (b : Buffer) (pos : Nat) (v : Octet) (s : State) : (writeOctet b pos v s).cap = s.cap := by cases b <;> rfl
@[simp] theorem writeOctet_warn (b : Buffer) (pos : Nat) (v : Octet) (s : State) : (writeOctet b pos v s).warn = s.warn := by cases b <;> rfl

@[simp] theorem writeLength_cfg (b : Buffer) (n : Nat) (s : State) : (writeLength b n s).cfg = s.cfg := by cases b <;> rfl
@[simp] theorem writeLength_op (b : Buffer) (n : Nat) (s : State) : (writeLength b n s).op = s.op := by cases b <;> rfl
@[simp] theorem writeLength_opLatched (b : Buffer) (n : Nat) (s : State) : (writeLength b n s).opLatched = s.opLatched := by cases b <;> rfl
@[simp] theorem writeLength_ver (b : Buffer) (n : Nat) (s : State) : (writeLength b n s).ver = s.ver := by cases b <;> rfl
@[simp] theorem writeLength_adr (b : Buffer) (n : Nat) (s : State) : (writeLength b n s).adr = s.adr := by cases b <;> rfl
@[simp] theorem writeLength_cid1 (b : Buffer) (n : Nat) (s : State) : (writeLength b n s).cid1 = s.cid1 := by cases b <;> rfl
@[simp] theorem writeLength_cid2 (b : Buffer) (n : Nat) (s : State) : (writeLength b n s).cid2 = s.cid2 := by cases b <;> rfl
@[simp] theorem writeLength_lenidOvrEn (b : Buffer) (n : Nat) (s : State) : (writeLength b n s).lenidOvrEn = s.lenidOvrEn := by cases b <;> rfl
@[simp] theorem writeLength_lenidOvr (b : Buffer) (n : Nat) (s : State) : (writeLength b n s).lenidOvr = s.lenidOvr := by cases b <;> rfl
@[simp] theorem writeLength_larg (b : Buffer) (n : Nat) (s : State) : (writeLength b n s).larg = s.larg := by cases b <;> rfl
@[simp] theorem writeLength_info_raw (n : Nat) (s : State) : (writeLength .info n s).raw = s.raw := rfl
@[simp] theorem writeLength_info_rawLen (n : Nat) (s : State) : (writeLength .info n s).rawLen = s.rawLen := rfl
@[simp] theorem writeLength_raw_info (n : Nat) (s : State) : (writeLength .raw n s).info = s.info := rfl
@[simp] theorem writeLength_raw_infoLen (n : Nat) (s : State) : (writeLength .raw n s).infoLen = s.infoLen := rfl
@[simp] theorem writeLength_work (b : Buffer) (n : Nat) (s : State) : (writeLength b n s).work = s.work := by cases b <;> rfl
@[simp] theorem writeLength_status (b : Buffer) (n : Nat) (s : State) : (writeLength b n s).status = s.status := by cases b <;> rfl
@[simp] theorem writeLength_rtnLatch (b : Buffer) (n : Nat) (s : State) : (writeLength b n s).rtnLatch = s.rtnLatch := by cases b <;> rfl
@[simp] theorem writeLength_ck (b : Buffer) (n : Nat) (s : State) : (writeLength b n s).ck = s.ck := by cases b <;> rfl
@[simp] theorem writeLength_lck (b : Buffer) (n : Nat) (s : State) : (writeLength b n s).lck = s.lck := by cases b <;> rfl
@[simp] theorem writeLength_idVer (b : Buffer) (n : Nat) (s : State) : (writeLength b n s).idVer = s.idVer := by cases b <;> rfl
@[simp] theorem writeLength_idSn (b : Buffer) (n : Nat) (s : State) : (writeLength b n s).idSn = s.idSn := by cases b <;> rfl
@[simp] theorem writeLength_analog (b : Buffer) (n : Nat) (s : State) : (writeLength b n s).analog = s.analog := by cases b <;> rfl
@[simp] theorem writeLength_cap (b : Buffer) (n : Nat) (s : State) : (writeLength b n s).cap = s.cap := by cases b <;> rfl
@[simp] theorem writeLength_warn (b : Buffer) (n : Nat) (s : State) : (writeLength b n s).warn = s.warn := by cases b <;> rfl

@[simp] theorem putText_raw_raw (t : Text) (s : State) : (putText .raw t s).raw = Memory.ofText t := rfl
@[simp] theorem putText_raw_rawLen (t : Text) (s : State) : (putText .raw t s).rawLen = BitVec.ofNat 13 t.length := rfl
@[simp] theorem putText_info_info (t : Text) (s : State) : (putText .info t s).info = Memory.ofText t := rfl
@[simp] theorem putText_info_infoLen (t : Text) (s : State) : (putText .info t s).infoLen = BitVec.ofNat 12 t.length := rfl
@[simp] theorem writeOctet_raw_raw (pos : Nat) (v : Octet) (s : State) : (writeOctet .raw pos v s).raw = s.raw.write pos v := rfl
@[simp] theorem writeOctet_raw_rawLen (pos : Nat) (v : Octet) (s : State) : (writeOctet .raw pos v s).rawLen = s.rawLen := rfl
@[simp] theorem writeOctet_info_info (pos : Nat) (v : Octet) (s : State) :
    (writeOctet .info pos v s).info = s.info.write pos v := rfl
@[simp] theorem writeOctet_info_infoLen (pos : Nat) (v : Octet) (s : State) :
    (writeOctet .info pos v s).infoLen = s.infoLen := rfl
@[simp] theorem writeLength_raw_raw (n : Nat) (s : State) : (writeLength .raw n s).raw = s.raw.truncate n := rfl
@[simp] theorem writeLength_raw_rawLen (n : Nat) (s : State) : (writeLength .raw n s).rawLen = BitVec.ofNat 13 n := rfl
@[simp] theorem writeLength_info_info (n : Nat) (s : State) : (writeLength .info n s).info = s.info.truncate n := rfl
@[simp] theorem writeLength_info_infoLen (n : Nat) (s : State) : (writeLength .info n s).infoLen = BitVec.ofNat 12 n := rfl

/-! Working registers. -/

@[simp] theorem advance_acc (n : Nat) (k : Work) : (advance n k).acc = k.acc := rfl
@[simp] theorem advance_packs (n : Nat) (k : Work) : (advance n k).packs = k.packs := rfl
@[simp] theorem advance_p (n : Nat) (k : Work) : (advance n k).p = k.p := rfl
@[simp] theorem advance_cells (n : Nat) (k : Work) : (advance n k).cells = k.cells := rfl
@[simp] theorem advance_cellsPrev (n : Nat) (k : Work) : (advance n k).cellsPrev = k.cellsPrev := rfl
@[simp] theorem advance_temps (n : Nat) (k : Work) : (advance n k).temps = k.temps := rfl
@[simp] theorem advance_vmin (n : Nat) (k : Work) : (advance n k).vmin = k.vmin := rfl
@[simp] theorem advance_vmax (n : Nat) (k : Work) : (advance n k).vmax = k.vmax := rfl

/-- A move of the cursor that stays within INFO does not wrap (R24). -/
theorem advance_cur (n : Nat) (k : Work) (h : k.cur.toNat + n < 4096) : (advance n k).cur.toNat = k.cur.toNat + n := by
  simp only [advance, BitVec.toNat_ofNat]
  omega

end Sys2Proof.Machine
end

