-- ==== Sys2Proof/Laws/Ops.lean ====
section
/-! SUPPORT. What the shared operations of Machine/Ops.lean can do: buffer reads, the parts of an operation, its end. -/

namespace Sys2Proof.Machine

/-! Buffer reads. -/

theorem octetAt_beyond (b : Buffer) (s : State) (i : Nat) (h : bufLen b s ≤ i) : octetAt b s i = none :=
  if_neg (by omega)

theorem octetAt_congr (b : Buffer) (s t : State) (hm : bufMem b s = bufMem b t) (hl : bufLen b s = bufLen b t) (i : Nat) :
    octetAt b s i = octetAt b t i := by
  simp [octetAt, hm, hl]

@[simp] theorem memRead_zero (b : Buffer) (s : State) (a : Nat) : memRead b s a 0 = .ok [] := rfl

/-- `MemRead` answers a text exactly when each of its octets has a value. -/
theorem memRead_ok_iff (b : Buffer) (s : State) (a n : Nat) (t : Text) :
    memRead b s a n = .ok t ↔ t.length = n ∧ ∀ i, i < n → octetAt b s (a + i) = t[i]? := by
  induction n generalizing a t with
  | zero =>
    simp only [memRead_zero, Except.ok.injEq, Nat.not_lt_zero, false_implies, implies_true, and_true, List.length_eq_zero_iff]
    exact eq_comm
  | succ n ih =>
    rw [memRead]
    cases ho : octetAt b s a with
    | none =>
      simp only [reduceCtorEq, false_iff, not_and, not_forall]
      intro hl
      refine ⟨0, Nat.succ_pos n, ?_⟩
      rw [Nat.add_zero, ho]
      cases t with
      | nil => simp at hl
      | cons o t => simp
    | some o =>
      cases hr : memRead b s (a + 1) n with
      | error f =>
        simp only [reduceCtorEq, false_iff, not_and]
        rintro hl hall
        cases t with
        | nil => simp at hl
        | cons o' t =>
          have : memRead b s (a + 1) n = .ok t := (ih (a + 1) t).mpr ⟨by simpa using hl, fun i hi => by
            have := hall (i + 1) (by omega)
            rw [show a + (i + 1) = a + 1 + i by omega] at this
            simpa using this⟩
          rw [hr] at this
          cases this
      | ok r =>
        have hr' := (ih (a + 1) r).mp hr
        simp only [Except.ok.injEq]
        constructor
        · rintro rfl
          refine ⟨by simp [hr'.1], fun i hi => ?_⟩
          cases i with
          | zero => simpa using ho
          | succ i =>
            have := hr'.2 i (by omega)
            rw [show a + (i + 1) = a + 1 + i by omega]
            simpa using this
        · rintro ⟨hl, hall⟩
          cases t with
          | nil => simp at hl
          | cons o' t =>
            have h0 := hall 0 (by omega)
            rw [Nat.add_zero, ho] at h0
            have hlt : t.length = n := by simpa using hl
            have h1 : r = t := by
              refine List.ext_getElem? fun i => ?_
              by_cases hi : i < n
              · have e := hall (i + 1) (by omega)
                rw [show a + (i + 1) = a + 1 + i by omega, hr'.2 i hi] at e
                simpa using e
              · rw [List.getElem?_eq_none (by omega), List.getElem?_eq_none (by omega)]
            have h2 : o = o' := by simpa using h0
            rw [h1, h2]

/-- A read that faults names a position without a value. -/
theorem memRead_fault (b : Buffer) (s : State) (a n : Nat) (f : Fault) (h : memRead b s a n = .error f) :
    ∃ i, i < n ∧ octetAt b s (a + i) = none ∧ f = .noOctet b (a + i) := by
  induction n generalizing a with
  | zero => simp at h
  | succ n ih =>
    rw [memRead] at h
    cases ho : octetAt b s a with
    | none =>
      rw [ho] at h
      cases h
      exact ⟨0, Nat.succ_pos n, ho, rfl⟩
    | some o =>
      rw [ho] at h
      cases hr : memRead b s (a + 1) n with
      | error g =>
        rw [hr] at h
        cases h
        obtain ⟨i, hi, hn, rfl⟩ := ih (a + 1) hr
        refine ⟨i + 1, by omega, ?_, ?_⟩
        · rw [show a + (i + 1) = a + 1 + i by omega]
          exact hn
        · rw [show a + (i + 1) = a + 1 + i by omega]
      | ok r =>
        rw [hr] at h
        cases h

theorem memRead_length (b : Buffer) (s : State) (a n : Nat) (t : Text) (h : memRead b s a n = .ok t) : t.length = n :=
  ((memRead_ok_iff b s a n t).mp h).1

theorem memRead_congr (b : Buffer) (s t : State) (hm : bufMem b s = bufMem b t) (hl : bufLen b s = bufLen b t) (a n : Nat) :
    memRead b s a n = memRead b t a n := by
  induction n generalizing a with
  | zero => rfl
  | succ n ih => rw [memRead, memRead, octetAt_congr b s t hm hl, ih]

theorem bufText_congr (b : Buffer) (s t : State) (hm : bufMem b s = bufMem b t) (hl : bufLen b s = bufLen b t) :
    bufText b s = bufText b t := by
  rw [bufText, bufText, hl, memRead_congr b s t hm hl]

/-- The content of a buffer, octet by octet. -/
theorem bufText_ok_iff (b : Buffer) (s : State) (t : Text) :
    bufText b s = .ok t ↔ t.length = bufLen b s ∧ ∀ i, i < bufLen b s → octetAt b s i = t[i]? := by
  simpa [bufText] using memRead_ok_iff b s 0 (bufLen b s) t

theorem bufText_length (b : Buffer) (s : State) (t : Text) (h : bufText b s = .ok t) : t.length = bufLen b s :=
  ((bufText_ok_iff b s t).mp h).1

/-- A range inside a buffer whose content is `t` reads as that range of `t`. -/
theorem memRead_of_bufText (b : Buffer) (s : State) (t : Text) (h : bufText b s = .ok t) (a n : Nat)
    (hn : a + n ≤ bufLen b s) : memRead b s a n = .ok ((t.drop a).take n) := by
  have ht := (bufText_ok_iff b s t).mp h
  refine (memRead_ok_iff b s a n _).mpr ⟨?_, fun i hi => ?_⟩
  · rw [List.length_take, List.length_drop, ht.1]
    omega
  · rw [ht.2 (a + i) (by omega), List.getElem?_take_of_lt hi, List.getElem?_drop]

theorem octetAt_of_bufText (b : Buffer) (s : State) (t : Text) (h : bufText b s = .ok t) (i : Nat) :
    octetAt b s i = t[i]? := by
  have ht := (bufText_ok_iff b s t).mp h
  by_cases hi : i < bufLen b s
  · exact ht.2 i hi
  · rw [octetAt_beyond b s i (by omega), List.getElem?_eq_none (by omega)]

theorem bufText_raw_ofText (s : State) (t : Text) (hm : s.raw = Memory.ofText t) (hl : s.rawLen.toNat = t.length) :
    bufText .raw s = .ok t := by
  refine (bufText_ok_iff .raw s t).mpr ⟨hl.symm, fun i hi => ?_⟩
  simp only [octetAt, if_pos hi]
  simp only [bufMem, hm, Memory.read_ofText]

theorem bufText_info_ofText (s : State) (t : Text) (hm : s.info = Memory.ofText t) (hl : s.infoLen.toNat = t.length) :
    bufText .info s = .ok t := by
  refine (bufText_ok_iff .info s t).mpr ⟨hl.symm, fun i hi => ?_⟩
  simp only [octetAt, if_pos hi]
  simp only [bufMem, hm, Memory.read_ofText]

/-- A text put into a buffer is its content, when its length fits the length register. -/
theorem bufText_putText_raw (s : State) (t : Text) (h : t.length < 8192) : bufText .raw (putText .raw t s) = .ok t :=
  bufText_raw_ofText _ t rfl (by simp only [putText, BitVec.toNat_ofNat]; omega)

theorem bufText_putText_info (s : State) (t : Text) (h : t.length < 4096) : bufText .info (putText .info t s) = .ok t :=
  bufText_info_ofText _ t rfl (by simp only [putText, BitVec.toNat_ofNat]; omega)

/-! The parts of an operation. -/

theorem Walk.andThen_apply {α β : Type} (m : Walk α) (f : α → Walk β) (k : Work) :
    m.andThen f k = match m k with
      | .ok a k => f a k
      | .err e k => .err e k
      | .fault r => .fault r := rfl

@[simp] theorem Walk.done_apply {α : Type} (a : α) (k : Work) : Walk.done a k = .ok a k := rfl

@[simp] theorem Walk.raise_apply {α : Type} (e : OpError) (k : Work) : (Walk.raise e : Walk α) k = .err e k := rfl

@[simp] theorem Walk.set_apply (g : Work → Work) (k : Work) : Walk.set g k = .ok () (g k) := rfl

theorem Walk.andThen_of_ok {α β : Type} {m : Walk α} {k k' : Work} {a : α} (h : m k = .ok a k') (f : α → Walk β) :
    m.andThen f k = f a k' := by
  rw [Walk.andThen_apply, h]

theorem Walk.andThen_of_err {α β : Type} {m : Walk α} {k k' : Work} {e : OpError} (h : m k = .err e k') (f : α → Walk β) :
    m.andThen f k = .err e k' := by
  rw [Walk.andThen_apply, h]

theorem Walk.andThen_of_fault {α β : Type} {m : Walk α} {k : Work} {r : Fault} (h : m k = .fault r) (f : α → Walk β) :
    m.andThen f k = .fault r := by
  rw [Walk.andThen_apply, h]

@[simp] theorem Walk.done_andThen {α β : Type} (a : α) (f : α → Walk β) : (Walk.done a).andThen f = f a := rfl

@[simp] theorem Walk.raise_andThen {α β : Type} (e : OpError) (f : α → Walk β) :
    (Walk.raise e : Walk α).andThen f = Walk.raise e := rfl

theorem Walk.andThen_assoc {α β γ : Type} (m : Walk α) (f : α → Walk β) (g : β → Walk γ) :
    (m.andThen f).andThen g = m.andThen fun a => (f a).andThen g := by
  funext k
  simp only [Walk.andThen_apply]
  cases m k <;> rfl

/-- What a part that ends well has done. -/
theorem Walk.andThen_ok_iff {α β : Type} (m : Walk α) (f : α → Walk β) (k k'' : Work) (b : β) :
    m.andThen f k = .ok b k'' ↔ ∃ a k', m k = .ok a k' ∧ f a k' = .ok b k'' := by
  rw [Walk.andThen_apply]
  cases m k with
  | ok a k' => simp
  | err e k' => simp
  | fault r => simp

/-- Where a part's error comes from. -/
theorem Walk.andThen_err_iff {α β : Type} (m : Walk α) (f : α → Walk β) (k k'' : Work) (e : OpError) :
    m.andThen f k = .err e k'' ↔ m k = .err e k'' ∨ ∃ a k', m k = .ok a k' ∧ f a k' = .err e k'' := by
  rw [Walk.andThen_apply]
  cases m k with
  | ok a k' => simp
  | err e k' => simp
  | fault r => simp

/-- From `P` before: `Q` after a value, `E` at an error, and no stop unless `F`. -/
def Walk.Sat {α : Type} (m : Walk α) (P : Work → Prop) (Q : α → Work → Prop) (E : OpError → Work → Prop) (F : Prop) : Prop :=
  ∀ k, P k → match m k with
    | .ok a k' => Q a k'
    | .err e k' => E e k'
    | .fault _ => F

theorem Walk.Sat.andThen {α β : Type} {m : Walk α} {f : α → Walk β} {P : Work → Prop} {Q : α → Work → Prop}
    {R : β → Work → Prop} {E : OpError → Work → Prop} {F : Prop} (hm : m.Sat P Q E F) (hf : ∀ a, (f a).Sat (Q a) R E F) :
    (m.andThen f).Sat P R E F := by
  intro k hk
  have h := hm k hk
  rw [Walk.andThen_apply]
  cases hmk : m k with
  | ok a k' =>
    rw [hmk] at h
    exact hf a k' h
  | err e k' => rwa [hmk] at h
  | fault r => rwa [hmk] at h

theorem Walk.Sat.weaken {α : Type} {m : Walk α} {P P' : Work → Prop} {Q Q' : α → Work → Prop}
    {E E' : OpError → Work → Prop} {F F' : Prop} (h : m.Sat P Q E F) (hP : ∀ k, P' k → P k)
    (hQ : ∀ a k, Q a k → Q' a k) (hE : ∀ e k, E e k → E' e k) (hF : F → F') : m.Sat P' Q' E' F' := by
  intro k hk
  have := h k (hP k hk)
  cases hm : m k with
  | ok a k' =>
    rw [hm] at this
    exact hQ a k' this
  | err e k' =>
    rw [hm] at this
    exact hE e k' this
  | fault r =>
    rw [hm] at this
    exact hF this

theorem Walk.Sat.ok {α : Type} {m : Walk α} {P : Work → Prop} {Q : α → Work → Prop} {E : OpError → Work → Prop} {F : Prop}
    (h : m.Sat P Q E F) {k k' : Work} {a : α} (hk : P k) (hm : m k = .ok a k') : Q a k' := by
  have := h k hk
  rwa [hm] at this

theorem Walk.Sat.err {α : Type} {m : Walk α} {P : Work → Prop} {Q : α → Work → Prop} {E : OpError → Work → Prop} {F : Prop}
    (h : m.Sat P Q E F) {k k' : Work} {e : OpError} (hk : P k) (hm : m k = .err e k') : E e k' := by
  have := h k hk
  rwa [hm] at this

theorem Walk.Sat.fault {α : Type} {m : Walk α} {P : Work → Prop} {Q : α → Work → Prop} {E : OpError → Work → Prop} {F : Prop}
    (h : m.Sat P Q E F) {k : Work} {r : Fault} (hk : P k) (hm : m k = .fault r) : F := by
  have := h k hk
  rwa [hm] at this

theorem Walk.sat_done {α : Type} (a : α) (P : Work → Prop) (E : OpError → Work → Prop) (F : Prop) :
    (Walk.done a).Sat P (fun b k => b = a ∧ P k) E F := fun _ hk => ⟨rfl, hk⟩

theorem Walk.sat_raise {α : Type} (e : OpError) (P : Work → Prop) (Q : α → Work → Prop) (E : OpError → Work → Prop) (F : Prop)
    (h : ∀ k, P k → E e k) : (Walk.raise e : Walk α).Sat P Q E F := fun k hk => h k hk

theorem Walk.sat_set (g : Work → Work) (P : Work → Prop) (Q : Unit → Work → Prop) (E : OpError → Work → Prop) (F : Prop)
    (h : ∀ k, P k → Q () (g k)) : (Walk.set g).Sat P Q E F := fun k hk => h k hk

/-- `MemRead` inside an operation touches no working register; it stops only where an octet has no value. -/
theorem fetchText_ok (b : Buffer) (s : State) (a n : Nat) (t : Text) (k : Work) (h : memRead b s a n = .ok t) :
    fetchText b s a n k = .ok t k := by
  rw [fetchText, h]

theorem fetchText_cases (b : Buffer) (s : State) (a n : Nat) (k : Work) :
    (∃ t, memRead b s a n = .ok t ∧ fetchText b s a n k = .ok t k) ∨
    (∃ f, memRead b s a n = .error f ∧ fetchText b s a n k = .fault f) := by
  rw [fetchText]
  cases h : memRead b s a n with
  | ok t => exact .inl ⟨t, rfl, rfl⟩
  | error f => exact .inr ⟨f, rfl, rfl⟩

/-! The end of an operation. -/

/-- Everything an operation's end can answer. -/
theorem conclude_cases {α : Type} (g : Group) (s : State) (r : Res α) (c : α → State → State) :
    (∃ a k, r = .ok a k ∧ conclude g s r c = .next (c a (finishOk { s with work := k }))) ∨
    (∃ e k, r = .err e k ∧ conclude g s r c = .next (raiseErr g e { s with work := k })) ∨
    (∃ f, r = .fault f ∧ conclude g s r c = .fault f) := by
  cases r with
  | ok a k => exact .inl ⟨a, k, rfl, rfl⟩
  | err e k => exact .inr (.inl ⟨e, k, rfl, rfl⟩)
  | fault f => exact .inr (.inr ⟨f, rfl, rfl⟩)

theorem conclude_next {α : Type} {g : Group} {s t : State} {r : Res α} {c : α → State → State}
    (h : conclude g s r c = .next t) :
    (∃ a k, r = .ok a k ∧ t = c a (finishOk { s with work := k })) ∨
    (∃ e k, r = .err e k ∧ t = raiseErr g e { s with work := k }) := by
  rcases conclude_cases g s r c with ⟨a, k, hr, hc⟩ | ⟨e, k, hr, hc⟩ | ⟨f, hr, hc⟩
  · rw [hc] at h
    cases h
    exact .inl ⟨a, k, hr, rfl⟩
  · rw [hc] at h
    cases h
    exact .inr ⟨e, k, hr, rfl⟩
  · rw [hc] at h
    cases h

end Sys2Proof.Machine
end

