-- ==== Sys2Proof/Laws/Operands.lean ====
section
/-! SUPPORT. What the operand forms answer: hex digits and fields, and the field primitives at the cursor, over a known
payload. -/

namespace Sys2Proof.Machine

/-! Digits. -/

theorem hexVal_lt (lower : Bool) (c : Octet) (d : Nat) (h : hexVal lower c = some d) : d < 16 := by
  unfold hexVal at h
  split at h
  · simp only [Option.some.injEq] at h
    omega
  · split at h
    · simp only [Option.some.injEq] at h
      omega
    · split at h
      · split at h
        · simp only [Option.some.injEq] at h
          omega
        · cases h
      · cases h

theorem hexVal_hexChar (lower : Bool) (v : Nat) (h : v < 16) : hexVal lower (hexChar v) = some v := by
  unfold hexVal hexChar
  split
  · have e : (BitVec.ofNat 8 (0x30 + v)).toNat = 0x30 + v := by rw [BitVec.toNat_ofNat]; omega
    rw [e, if_pos (by omega), Nat.add_sub_cancel_left]
  · have e : (BitVec.ofNat 8 (0x41 + (v - 10))).toNat = 0x41 + (v - 10) := by rw [BitVec.toNat_ofNat]; omega
    rw [e, if_neg (by omega), if_pos (by omega)]
    congr 1
    omega

/-- A digit that is not one of `a` to `f` reads the same under both settings of `HEX_LOWER`. -/
theorem hexVal_setting (l l' : Bool) (c : Octet) (h : ¬(0x61 ≤ c.toNat ∧ c.toNat ≤ 0x66)) : hexVal l c = hexVal l' c := by
  unfold hexVal
  rw [if_neg h, if_neg h]

theorem hexChar_injective {v w : Nat} (hv : v < 16) (hw : w < 16) (h : hexChar v = hexChar w) : v = w := by
  have e := hexVal_hexChar false v hv
  rw [h, hexVal_hexChar false w hw] at e
  cases e
  rfl

/-! Fields. -/

theorem hexToInt_lt (lower : Bool) (t : Text) (v : Nat) (h : hexToInt lower t = some v) : v < 16 ^ t.length := by
  induction t generalizing v with
  | nil =>
    simp only [hexToInt, Option.some.injEq] at h
    subst h
    simp
  | cons c t ih =>
    rw [hexToInt] at h
    cases hd : hexVal lower c with
    | none => simp [hd] at h
    | some d =>
      cases hv : hexToInt lower t with
      | none => simp [hd, hv] at h
      | some u =>
        simp only [hd, hv, Option.some.injEq] at h
        have h1 := hexVal_lt lower c d hd
        have h2 := ih u hv
        have h3 : d * 16 ^ t.length + 16 ^ t.length ≤ 16 * 16 ^ t.length := by
          have := Nat.mul_le_mul_right (16 ^ t.length) (show d + 1 ≤ 16 by omega)
          rwa [Nat.add_mul, Nat.one_mul] at this
        rw [List.length_cons, Nat.pow_succ, Nat.mul_comm]
        omega

theorem hexToInt_setting (l l' : Bool) (t : Text) (h : ∀ c ∈ t, ¬(0x61 ≤ c.toNat ∧ c.toNat ≤ 0x66)) :
    hexToInt l t = hexToInt l' t := by
  induction t with
  | nil => rfl
  | cons c t ih =>
    rw [hexToInt, hexToInt, hexVal_setting l l' c (h c List.mem_cons_self), ih fun d hd => h d (List.mem_cons_of_mem _ hd)]

/-- A field is invalid exactly when one of its characters has no digit value (R122). -/
theorem hexToInt_none_iff (lower : Bool) (t : Text) : hexToInt lower t = none ↔ ∃ c ∈ t, hexVal lower c = none := by
  induction t with
  | nil => simp [hexToInt]
  | cons c t ih =>
    rw [hexToInt, List.exists_mem_cons_iff]
    cases hd : hexVal lower c with
    | none => simp
    | some d =>
      cases hv : hexToInt lower t with
      | none => simpa [hv] using ih
      | some u => simpa [hv] using ih

@[simp] theorem intToHex_length (v w : Nat) : (intToHex v w).length = w := by
  induction w with
  | zero => rfl
  | succ w ih => rw [intToHex, List.length_cons, ih]

/-- The digit at place `w`, as arithmetic. -/
theorem digit_eq (v w : Nat) : (v >>> (4 * w)) &&& 15 = v / 16 ^ w % 16 := by
  rw [Nat.shiftRight_eq_div_pow, Nat.and_two_pow_sub_one_eq_mod _ 4, Nat.pow_mul]

theorem hexToInt_intToHex_mod (lower : Bool) (v w : Nat) : hexToInt lower (intToHex v w) = some (v % 16 ^ w) := by
  induction w with
  | zero => simp [intToHex, hexToInt, Nat.mod_one]
  | succ w ih =>
    rw [intToHex, hexToInt, ih, digit_eq, hexVal_hexChar lower _ (Nat.mod_lt _ (by norm_num))]
    simp only [intToHex_length, Option.some.injEq]
    rw [Nat.mod_pow_succ, Nat.mul_comm]
    omega

/-- Reading what was rendered gives the value back (R123). -/
theorem hexToInt_intToHex (lower : Bool) (v w : Nat) (h : v < 16 ^ w) : hexToInt lower (intToHex v w) = some v := by
  rw [hexToInt_intToHex_mod, Nat.mod_eq_of_lt h]

theorem intToHex_injective (v u w : Nat) (hv : v < 16 ^ w) (hu : u < 16 ^ w) (h : intToHex v w = intToHex u w) : v = u := by
  have e := hexToInt_intToHex false v w hv
  rw [h, hexToInt_intToHex false u w hu] at e
  cases e
  rfl

/-- One digit. -/
theorem intToHex_one (v : Nat) (h : v < 16) : intToHex v 1 = [hexChar v] := by
  rw [intToHex, intToHex, digit_eq]
  simp [Nat.mod_eq_of_lt h]

/-! The payload from the cursor on. -/

/-- INFO's content is some passed text and then `rest`, the cursor standing between them. -/
def At (s : State) (k : Work) (rest : Text) : Prop :=
  ∃ pre, bufText .info s = .ok (pre ++ rest) ∧ pre.length = k.cur.toNat

theorem At.start (s : State) (k : Work) (t : Text) (h : bufText .info s = .ok t) (hk : k.cur = 0) : At s k t :=
  ⟨[], h, by simp [hk]⟩

theorem At.len {s : State} {k : Work} {rest : Text} (h : At s k rest) :
    k.cur.toNat + rest.length = s.infoLen.toNat := by
  obtain ⟨pre, ht, hp⟩ := h
  have := bufText_length .info s _ ht
  rw [List.length_append, hp] at this
  exact this

theorem At.congr {s : State} {k k' : Work} {rest : Text} (h : At s k rest) (hc : k'.cur = k.cur) : At s k' rest := by
  obtain ⟨pre, ht, hp⟩ := h
  exact ⟨pre, ht, by rw [hp, hc]⟩

theorem At.move {s : State} {k : Work} {t rest : Text} (h : At s k (t ++ rest)) {n : Nat} (hn : t.length = n) :
    At s (advance n k) rest := by
  have hl := h.len
  obtain ⟨pre, ht, hp⟩ := h
  have := s.infoLen.isLt
  refine ⟨pre ++ t, by rw [ht, List.append_assoc], ?_⟩
  rw [List.length_append] at hl ⊢
  rw [advance_cur n k (by omega), hp, hn]

theorem At.memRead {s : State} {k : Work} {t rest : Text} (h : At s k (t ++ rest)) {n : Nat} (hn : t.length = n) :
    memRead .info s k.cur.toNat n = .ok t := by
  have hl := h.len
  obtain ⟨pre, ht, hp⟩ := h
  rw [List.length_append] at hl
  rw [memRead_of_bufText .info s _ ht k.cur.toNat n (by simp only [bufLen]; omega), ← hp, List.drop_left, ← hn, List.take_left]

/-- A field that is there and is digits is peeked (R127). -/
theorem peekField_at {s : State} {k : Work} {t rest : Text} {w v : Nat} (f : FieldId) (h : At s k (t ++ rest))
    (ht : t.length = w) (hv : hexToInt s.cfg.hexLower t = some v) : peekField s w f k = .ok v k := by
  have hl := h.len
  rw [List.length_append] at hl
  rw [peekField, if_neg (by omega), h.memRead ht]
  simp only [hv]

/-- A field that is there and is no digits raises `BadHex` (R126). -/
theorem peekField_badHex {s : State} {k : Work} {t rest : Text} {w : Nat} (f : FieldId) (h : At s k (t ++ rest))
    (ht : t.length = w) (hv : hexToInt s.cfg.hexLower t = none) : peekField s w f k = .err (.decode .badHex f) k := by
  have hl := h.len
  rw [List.length_append] at hl
  rw [peekField, if_neg (by omega), h.memRead ht]
  simp only [hv]

/-- A field that is cut short raises `Overrun` (R126). -/
theorem peekField_overrun {s : State} {k : Work} {rest : Text} {w : Nat} (f : FieldId) (h : At s k rest)
    (hw : rest.length < w) : peekField s w f k = .err (.decode .overrun f) k := by
  have hl := h.len
  rw [peekField, if_pos (by omega)]

theorem readField_of_peek {s : State} {k : Work} {w v : Nat} {f : FieldId} (h : peekField s w f k = .ok v k) :
    readField s w f k = .ok v (advance w k) := by
  rw [readField, Walk.andThen_of_ok h]
  rfl

/-- A rendered field is read and passed (R126). -/
theorem readField_at {s : State} {k : Work} {rest : Text} {w v : Nat} (f : FieldId) (h : At s k (intToHex v w ++ rest))
    (hv : v < 16 ^ w) : readField s w f k = .ok v (advance w k) ∧ At s (advance w k) rest :=
  ⟨readField_of_peek (peekField_at f h (intToHex_length v w) (hexToInt_intToHex _ v w hv)), h.move (intToHex_length v w)⟩

theorem readField_overrun {s : State} {k : Work} {rest : Text} {w : Nat} (f : FieldId) (h : At s k rest)
    (hw : rest.length < w) : readField s w f k = .err (.decode .overrun f) k := by
  rw [readField, Walk.andThen_of_err (peekField_overrun f h hw)]

theorem readField_badHex {s : State} {k : Work} {t rest : Text} {w : Nat} (f : FieldId) (h : At s k (t ++ rest))
    (ht : t.length = w) (hv : hexToInt s.cfg.hexLower t = none) : readField s w f k = .err (.decode .badHex f) k := by
  rw [readField, Walk.andThen_of_err (peekField_badHex f h ht hv)]

/-- Characters that are there are passed over, whatever they are (R128). -/
theorem skipField_at {s : State} {k : Work} {t rest : Text} {w : Nat} (f : FieldId) (h : At s k (t ++ rest))
    (ht : t.length = w) : skipField s w f k = .ok () (advance w k) ∧ At s (advance w k) rest := by
  have hl := h.len
  rw [List.length_append] at hl
  exact ⟨by rw [skipField, if_neg (by omega)], h.move ht⟩

theorem skipField_overrun {s : State} {k : Work} {rest : Text} {w : Nat} (f : FieldId) (h : At s k rest)
    (hw : rest.length < w) : skipField s w f k = .err (.decode .overrun f) k := by
  have hl := h.len
  rw [skipField, if_pos (by omega)]

/-- Two states of the working registers that differ at most in the cursor. -/
def OnlyCursor (k k' : Work) : Prop := k' = { k with cur := k'.cur }

theorem OnlyCursor.refl (k : Work) : OnlyCursor k k := rfl

theorem OnlyCursor.trans {k k' k'' : Work} (h : OnlyCursor k k') (h' : OnlyCursor k' k'') : OnlyCursor k k'' := by
  unfold OnlyCursor at *
  rw [h', h]

theorem onlyCursor_advance (n : Nat) (k : Work) : OnlyCursor k (advance n k) := rfl

theorem OnlyCursor.cells {k k' : Work} (h : OnlyCursor k k') : k'.cells = k.cells := by rw [h]

theorem OnlyCursor.cellsPrev {k k' : Work} (h : OnlyCursor k k') : k'.cellsPrev = k.cellsPrev := by rw [h]

theorem OnlyCursor.temps {k k' : Work} (h : OnlyCursor k k') : k'.temps = k.temps := by rw [h]

theorem OnlyCursor.p {k k' : Work} (h : OnlyCursor k k') : k'.p = k.p := by rw [h]

theorem OnlyCursor.vmin {k k' : Work} (h : OnlyCursor k k') : k'.vmin = k.vmin := by rw [h]

theorem OnlyCursor.vmax {k k' : Work} (h : OnlyCursor k k') : k'.vmax = k.vmax := by rw [h]

/-- A run of rendered fields is read in order. -/
theorem readFields_at {s : State} {w : Nat} (f : FieldId) (vs : List Nat) (hv : ∀ v ∈ vs, v < 16 ^ w) :
    ∀ {k : Work} {rest : Text}, At s k (vs.flatMap (intToHex · w) ++ rest) →
      ∃ k', readFields s w f vs.length k = .ok vs k' ∧ At s k' rest ∧ OnlyCursor k k' := by
  induction vs with
  | nil => exact fun h => ⟨_, rfl, h, .refl _⟩
  | cons v vs ih =>
    intro k rest h
    rw [List.flatMap_cons, List.append_assoc] at h
    obtain ⟨h1, a1⟩ := readField_at f h (hv v List.mem_cons_self)
    obtain ⟨k', h2, a2, o2⟩ := ih (fun u hu => hv u (List.mem_cons_of_mem _ hu)) a1
    refine ⟨k', ?_, a2, (onlyCursor_advance w k).trans o2⟩
    rw [List.length_cons, readFields, Walk.andThen_of_ok h1, Walk.andThen_of_ok h2]
    rfl

/-- The trailing heuristic does nothing when nothing is left. -/
theorem trailingFlag_end {s : State} {k : Work} (h : At s k []) : trailingFlag s k = .ok () k := by
  have hl := h.len
  rw [List.length_nil] at hl
  rw [trailingFlag, if_neg (by omega)]

/-- A flag that differs from the count is passed over. -/
theorem trailingFlag_skip {s : State} {k : Work} {t rest : Text} {v : Nat} (h : At s k (t ++ rest)) (ht : t.length = 2)
    (hv : hexToInt s.cfg.hexLower t = some v) (hne : v ≠ k.cells.toNat) :
    trailingFlag s k = .ok () (advance 2 k) ∧ At s (advance 2 k) rest := by
  have hl := h.len
  rw [List.length_append] at hl
  obtain ⟨h1, a1⟩ := skipField_at (s := s) (w := skipW) .flag h ht
  refine ⟨?_, a1⟩
  rw [trailingFlag, if_pos (by omega), Walk.andThen_of_ok (peekField_at (w := countW) .flag h ht hv)]
  simp only [ne_eq, hne, not_false_eq_true, if_true]
  exact h1

/-- A value equal to the count stays in place. -/
theorem trailingFlag_stay {s : State} {k : Work} {t rest : Text} (h : At s k (t ++ rest)) (ht : t.length = 2)
    (hv : hexToInt s.cfg.hexLower t = some k.cells.toNat) : trailingFlag s k = .ok () k := by
  have hl := h.len
  rw [List.length_append] at hl
  rw [trailingFlag, if_pos (by omega), Walk.andThen_of_ok (peekField_at (w := countW) .flag h ht hv)]
  simp

/-! What a field primitive can do, from any working registers. -/

/-- INFO below its length has a value everywhere: no field read stops. -/
def Readable (b : Buffer) (s : State) : Prop := ∃ t, bufText b s = .ok t

theorem Readable.memRead {b : Buffer} {s : State} (h : Readable b s) (a n : Nat) (hn : a + n ≤ bufLen b s) :
    ∃ t, memRead b s a n = .ok t := by
  obtain ⟨t, ht⟩ := h
  exact ⟨_, memRead_of_bufText b s t ht a n hn⟩

theorem readable_iff (b : Buffer) (s : State) : Readable b s ↔ ∀ i < bufLen b s, (octetAt b s i).isSome = true := by
  constructor
  · rintro ⟨t, ht⟩ i hi
    rw [octetAt_of_bufText b s t ht, List.getElem?_eq_getElem (by rw [bufText_length b s t ht]; exact hi)]
    rfl
  · intro h
    cases ht : bufText b s with
    | ok t => exact ⟨t, ht⟩
    | error f =>
      obtain ⟨i, hi, hn, -⟩ := memRead_fault b s 0 (bufLen b s) f ht
      rw [Nat.zero_add] at hn
      have := h i hi
      rw [hn] at this
      cases this

theorem peekField_cases (s : State) (w : Nat) (f : FieldId) (k : Work) :
    (∃ v, peekField s w f k = .ok v k ∧ k.cur.toNat + w ≤ s.infoLen.toNat ∧ v < 16 ^ w) ∨
    (peekField s w f k = .err (.decode .overrun f) k ∧ s.infoLen.toNat < k.cur.toNat + w) ∨
    (peekField s w f k = .err (.decode .badHex f) k ∧ k.cur.toNat + w ≤ s.infoLen.toNat) ∨
    (∃ r, peekField s w f k = .fault r ∧ ¬ Readable .info s) := by
  by_cases hc : k.cur.toNat + w > s.infoLen.toNat
  · exact .inr (.inl ⟨by rw [peekField, if_pos hc], hc⟩)
  · cases hm : memRead .info s k.cur.toNat w with
    | error r =>
      refine .inr (.inr (.inr ⟨r, by rw [peekField, if_neg hc, hm], fun hr => ?_⟩))
      obtain ⟨t, ht⟩ := hr.memRead k.cur.toNat w (by simp only [bufLen]; omega)
      rw [hm] at ht
      cases ht
    | ok t =>
      cases hv : hexToInt s.cfg.hexLower t with
      | none => exact .inr (.inr (.inl ⟨by rw [peekField, if_neg hc, hm]; simp only [hv], by omega⟩))
      | some v =>
        refine .inl ⟨v, by rw [peekField, if_neg hc, hm]; simp only [hv], by omega, ?_⟩
        have := hexToInt_lt _ t v hv
        rwa [memRead_length .info s _ _ t hm] at this

theorem peekField_sat (s : State) (w : Nat) (f : FieldId) (P : Work → Prop) :
    (peekField s w f).Sat P (fun v k => P k ∧ k.cur.toNat + w ≤ s.infoLen.toNat ∧ v < 16 ^ w)
      (fun e k => P k ∧ (e = .decode .overrun f ∨ e = .decode .badHex f)) (¬ Readable .info s) := by
  intro k hk
  rcases peekField_cases s w f k with ⟨v, h, hb, hv⟩ | ⟨h, -⟩ | ⟨h, -⟩ | ⟨r, h, hr⟩ <;> rw [h]
  · exact ⟨hk, hb, hv⟩
  · exact ⟨hk, .inl rfl⟩
  · exact ⟨hk, .inr rfl⟩
  · exact hr

theorem readField_sat (s : State) (w : Nat) (f : FieldId) (P : Work → Prop) :
    (readField s w f).Sat P
      (fun v k' => ∃ k, P k ∧ k' = advance w k ∧ k'.cur.toNat = k.cur.toNat + w ∧ k'.cur.toNat ≤ s.infoLen.toNat ∧ v < 16 ^ w)
      (fun e k => P k ∧ (e = .decode .overrun f ∨ e = .decode .badHex f)) (¬ Readable .info s) := by
  have := s.infoLen.isLt
  refine (peekField_sat s w f P).andThen fun v k hk => ?_
  have e := advance_cur w k (by omega)
  exact ⟨k, hk.1, rfl, e, by omega, hk.2.2⟩

theorem skipField_sat (s : State) (w : Nat) (f : FieldId) (P : Work → Prop) (F : Prop) :
    (skipField s w f).Sat P
      (fun _ k' => ∃ k, P k ∧ k' = advance w k ∧ k'.cur.toNat = k.cur.toNat + w ∧ k'.cur.toNat ≤ s.infoLen.toNat)
      (fun e k => P k ∧ e = .decode .overrun f) F := by
  intro k hk
  have := s.infoLen.isLt
  rw [skipField]
  split
  · next h =>
    split at h
    · cases h
    · next hc =>
      cases h
      have e := advance_cur w k (by omega)
      exact ⟨k, hk, rfl, e, by omega⟩
  · next h =>
    split at h
    · cases h
      exact ⟨hk, rfl⟩
    · cases h
  · next h =>
    split at h <;> cases h

end Sys2Proof.Machine
end

