-- ==== Sys2Proof/Laws/Arith.lean ====
section
/-! SUPPORT. What the arithmetic and the two checksum functions answer. -/

namespace Sys2Proof.Machine

/-! Scalings. -/

theorem tempOf_toInt (raw : Nat) (h : raw < 65536) : (tempOf raw).toInt = (raw : Int) - 2730 := by
  rw [tempOf, BitVec.toInt_ofInt]
  exact Int.bmod_eq_of_le (by omega) (by omega)

theorem currentOf_toInt (raw : Nat) (h : raw < 65536) : (currentOf raw).toInt = sext16 raw := by
  rw [currentOf, BitVec.toInt_ofInt]
  unfold sext16
  split
  · exact Int.bmod_eq_of_le (by omega) (by omega)
  · exact Int.bmod_eq_of_le (by omega) (by omega)

theorem capacityOf_toNat (raw : Nat) (h : raw < 65536) : (capacityOf raw).toNat = raw * 10 := by
  rw [capacityOf, BitVec.toNat_ofNat]
  omega

theorem toNat_ofNat_of_lt {w n : Nat} (h : n < 2 ^ w) : (BitVec.ofNat w n).toNat = n := by
  rw [BitVec.toNat_ofNat, Nat.mod_eq_of_lt h]

/-! Percentages. -/

theorem pct_le (tie : RoundTie) (a b : Nat) (hb : 0 < b) : pct tie a b ≤ 10000 * a := by
  have hq : 10000 * a / b ≤ 10000 * a := Nat.div_le_self _ _
  have hd := Nat.div_add_mod (10000 * a) b
  have hu : pct tie a b ≤ 10000 * a / b + 1 ∧ (10000 * a % b = 0 → pct tie a b = 10000 * a / b) := by
    unfold pct
    cases tie <;> simp only <;> (repeat' split) <;> constructor <;> intros <;> omega
  rcases Nat.eq_zero_or_pos (10000 * a % b) with h0 | h0
  · rw [hu.2 h0]
    exact hq
  · have hb2 : 2 ≤ b := by
      by_contra hlt
      have : b = 1 := by omega
      subst this
      rw [Nat.mod_one] at h0
      omega
    have h2 : 10000 * a / b ≤ 10000 * a / 2 := Nat.div_le_div_left hb2 (by norm_num)
    have ha : 0 < a := by
      rcases Nat.eq_zero_or_pos a with rfl | ha
      · simp at h0
      · exact ha
    omega

/-- A percentage of two 16-bit raw values fits its register (R130). -/
theorem pct_register (tie : RoundTie) (a b : Nat) (ha : a < 65536) (hb : 0 < b) :
    (BitVec.ofNat 30 (pct tie a b)).toNat = pct tie a b := by
  have := pct_le tie a b hb
  exact toNat_ofNat_of_lt (by omega)

theorem ratio_zero (s : State) (f : FieldId) (a : Nat) (k : Work) : ratio s f a 0 k = .err (.decode .divZero f) k := rfl

theorem ratio_pos (s : State) (f : FieldId) (a b : Nat) (k : Work) (hb : b ≠ 0) :
    ratio s f a b k = .ok (BitVec.ofNat 30 (pct s.cfg.roundTie a b)) k := by
  rw [ratio, if_neg hb]
  rfl

theorem ratio_sat (s : State) (f : FieldId) (a b : Nat) (P : Work → Prop) (F : Prop) :
    (ratio s f a b).Sat P (fun r k => P k ∧ 0 < b ∧ r = BitVec.ofNat 30 (pct s.cfg.roundTie a b))
      (fun e k => P k ∧ e = .decode .divZero f) F := by
  intro k hk
  by_cases hb : b = 0
  · subst hb
    exact ⟨hk, rfl⟩
  · rw [ratio_pos s f a b k hb]
    exact ⟨hk, by omega, rfl⟩

/-! `ChksumCalc`. -/

@[simp] theorem octetSum_nil : octetSum [] = 0 := rfl

@[simp] theorem octetSum_cons (o : Octet) (t : Text) : octetSum (o :: t) = o.toNat + octetSum t := rfl

@[simp] theorem octetSum_append (t u : Text) : octetSum (t ++ u) = octetSum t + octetSum u := by
  induction t with
  | nil => simp
  | cons o t ih => simp [ih, Nat.add_assoc]

/-- The sum does not depend on the order of the octets (R142). -/
theorem octetSum_perm {t u : Text} (h : t.Perm u) : octetSum t = octetSum u := by
  induction h with
  | nil => rfl
  | cons o _ ih => simp [ih]
  | swap a b t => simp only [octetSum_cons]; omega
  | trans _ _ h1 h2 => exact h1.trans h2

theorem octetSum_set (t : Text) (i : Nat) (x : Octet) (h : i < t.length) :
    octetSum (t.set i x) + (t[i]).toNat = octetSum t + x.toNat := by
  induction t generalizing i with
  | nil => simp at h
  | cons o t ih =>
    cases i with
    | zero => simp only [List.set_cons_zero, octetSum_cons, List.getElem_cons_zero]; omega
    | succ i =>
      have := ih i (by simpa using h)
      simp only [List.set_cons_succ, octetSum_cons, List.getElem_cons_succ]
      omega

theorem chksumVal_lt (buf : Text) : chksumVal buf < 65536 := Nat.mod_lt _ (by norm_num)

/-- The closed form: the negated sum (R142). -/
theorem chksumVal_eq (buf : Text) : chksumVal buf = (65536 - chksumSum buf % 65536) % 65536 := by
  unfold chksumVal
  omega

@[simp] theorem chksumTxt_length (buf : Text) : (chksumTxt buf).length = 4 := intToHex_length _ 4

theorem chksumCalc_cons (o : Octet) (t : Text) (k : Work) :
    chksumCalc (o :: t) k =
      .ok (chksumVal (o :: t), chksumTxt (o :: t)) { k with acc := BitVec.ofNat 16 (chksumSum (o :: t)) } := rfl

theorem chksumCalc_nil (k : Work) : chksumCalc [] k = .err (.encode .emptyBuffer) k := rfl

theorem chksumCalc_ne_nil {t : Text} (h : t ≠ []) (k : Work) :
    chksumCalc t k = .ok (chksumVal t, chksumTxt t) { k with acc := BitVec.ofNat 16 (chksumSum t) } := by
  cases t with
  | nil => exact absurd rfl h
  | cons o t => rfl

/-- A register of four octets holds a text of four octets. -/
theorem chars4Of_toList (t : Text) (h : t.length = 4) : (chars4Of t).toList = t := by
  match t, h with
  | [a, b, c, d], _ => rfl

/-! `LchksumCalc`. -/

theorem digitSum_none_iff (lower : Bool) (t : Text) : digitSum lower t = none ↔ ∃ c ∈ t, hexVal lower c = none := by
  induction t with
  | nil => simp [digitSum]
  | cons c t ih =>
    rw [digitSum, List.exists_mem_cons_iff]
    cases hd : hexVal lower c with
    | none => simp
    | some d =>
      cases hv : digitSum lower t with
      | none => simpa [hv] using ih
      | some u => simpa [hv] using ih

/-- `LchksumCalc` fails exactly where `HexToInt` does. -/
theorem digitSum_none_iff_hexToInt (lower : Bool) (t : Text) : digitSum lower t = none ↔ hexToInt lower t = none := by
  rw [digitSum_none_iff, hexToInt_none_iff]

theorem lchksumVal_lt (n : Nat) : lchksumVal n < 16 := by
  unfold lchksumVal
  simp only
  split <;> omega

/-- The closed form: the negated digit sum (R147). -/
theorem lchksumVal_eq (n : Nat) : lchksumVal n = (16 - n % 16) % 16 := by
  unfold lchksumVal
  simp only
  split <;> omega

end Sys2Proof.Machine
end

