-- ==== Sys2Proof/Laws/Claims.lean ====
section
/-! SUPPORT. The names the statements are written with, in the model's terms: sums, digits, fields of digits. -/

namespace Sys2Proof.Claims

open Sys2Proof.Machine

theorem total_eq_octetSum (t : Text) : total t = octetSum t := by
  induction t with
  | nil => rfl
  | cons o t ih =>
    rw [octetSum_cons, ← ih]
    rfl

theorem digits2_eq (v : Nat) : digits2 v = intToHex v 2 := by
  simp only [digits2, intToHex, digit_eq]
  simp

theorem digits3_eq (v : Nat) : digits3 v = intToHex v 3 := by
  simp only [digits3, intToHex, digit_eq]
  simp

theorem digits4_eq (v : Nat) : digits4 v = intToHex v 4 := by
  simp only [digits4, intToHex, digit_eq]
  simp

theorem chksumVal_cons (o : Octet) (t : Text) : chksumVal (o :: t) = negated16 (total t) := by
  rw [chksumVal_eq, total_eq_octetSum]
  rfl

theorem digitSum_eq_sum (lower : Bool) (t : Text) (n : Nat) (h : digitSum lower t = some n) :
    n = (t.map fun c => (hexVal lower c).getD 0).sum := by
  induction t generalizing n with
  | nil => simpa [digitSum] using h.symm
  | cons c t ih =>
    rw [digitSum] at h
    cases hd : hexVal lower c with
    | none => simp [hd] at h
    | some d =>
      cases hv : digitSum lower t with
      | none => simp [hd, hv] at h
      | some u =>
        simp only [hd, hv, Option.some.injEq] at h
        rw [← h, ih u hv]
        simp [hd]

theorem rtnError_none_iff (c : Chars2) : rtnError c = none ↔ ∀ code, (c.toList, code) ∉ rtnErrors := by
  obtain ⟨a, b⟩ := c
  unfold rtnError rtnErrors
  simp only [Chars2.toList, List.mem_cons, Prod.mk.injEq, List.cons.injEq, and_true, List.not_mem_nil, or_false, not_or]
  constructor
  · intro h code
    split at h
    · repeat' (split at h; · cases h)
      simp_all
    · simp_all
  · intro h
    split
    · next ha =>
      have h1 := (h 1).1
      have h2 := (h 2).2.1
      have h3 := (h 3).2.2.1
      have h4 := (h 4).2.2.2.1
      have h5 := (h 5).2.2.2.2.1
      have h6 := (h 6).2.2.2.2.2.1
      have h9 := (h 9).2.2.2.2.2.2
      simp_all
    · rfl

theorem rtnError_of_mem (c : Chars2) (code : BitVec 8) (h : (c.toList, code) ∈ rtnErrors) :
    ∃ r, rtnError c = some r ∧ rtnDetail r = code := by
  obtain ⟨a, b⟩ := c
  unfold rtnErrors at h
  simp only [Chars2.toList, List.mem_cons, Prod.mk.injEq, List.cons.injEq, and_true, List.not_mem_nil, or_false] at h
  rcases h with h | h | h | h | h | h | h <;> obtain ⟨⟨rfl, rfl⟩, rfl⟩ := h <;> exact ⟨_, rfl, rfl⟩

/-! Fields of digits at the cursor. -/

theorem hexToInt_digits2 (l : Bool) (v : Nat) (hv : v < 256) : hexToInt l (digits2 v) = some v := by
  rw [digits2_eq]
  exact hexToInt_intToHex l v 2 (by norm_num; exact hv)

theorem peekField_digits2 {s : State} {k : Work} {rest : Text} {v : Nat} (f : FieldId) (h : At s k (digits2 v ++ rest))
    (hv : v < 256) : peekField s 2 f k = .ok v k :=
  peekField_at f h rfl (hexToInt_digits2 _ v hv)

theorem readField_digits2 {s : State} {k : Work} {rest : Text} {v : Nat} (f : FieldId) (h : At s k (digits2 v ++ rest))
    (hv : v < 256) : readField s 2 f k = .ok v (advance 2 k) ∧ At s (advance 2 k) rest := by
  rw [digits2_eq] at h
  exact readField_at f h (by norm_num; exact hv)

theorem readField_digits4 {s : State} {k : Work} {rest : Text} {v : Nat} (f : FieldId) (h : At s k (digits4 v ++ rest))
    (hv : v < 65536) : readField s 4 f k = .ok v (advance 4 k) ∧ At s (advance 4 k) rest := by
  rw [digits4_eq] at h
  exact readField_at f h (by norm_num; exact hv)

/-- The head of a pack walk over a rendered count (R201, R232). -/
theorem readPackCount_digits2 {s : State} {lead rest : Text} {n : Nat} (k : Work)
    (h : bufText .info s = .ok (lead ++ digits2 n ++ rest)) (hl : lead.length = leadChars s.cfg.leadSkip) (hn : n < 256) :
    ∃ k', readPackCount s k = .ok n k' ∧ At s k' rest := by
  have a0 : At s { k with cur := 0 } (lead ++ (digits2 n ++ rest)) := At.start s _ _ (by rw [h, List.append_assoc]) rfl
  obtain ⟨q1, a1⟩ := skipField_at .lead a0 hl
  obtain ⟨q2, a2⟩ := readField_digits2 .packs a1 hn
  refine ⟨{ advance 2 (advance (leadChars s.cfg.leadSkip) { k with cur := 0 }) with packs := BitVec.ofNat 8 n }, ?_,
    a2.congr rfl⟩
  have q2' : readField s countW .packs _ = _ := q2
  rw [readPackCount, Walk.andThen_of_ok (Walk.set_apply _ _), Walk.andThen_of_ok q1, Walk.andThen_of_ok q2']
  rfl

/-! A pack's fields are its text. -/

theorem flatMap_chars_map (code : BitVec 6) (g : Nat → Text) (vs : List Nat) :
    (vs.map fun v => (⟨code, true, g v⟩ : Field)).flatMap Field.chars = vs.flatMap g :=
  List.flatMap_map ..

theorem PackData.flatMap_chars_fields (p : PackData) : p.fields.flatMap Field.chars = p.text := by
  simp [PackData.fields, PackData.text, PackData.textToFull, List.flatMap_cons, flatMap_chars_map, List.append_assoc]

theorem WarnData.flatMap_chars_fields (d : WarnData) : d.fields.flatMap Field.chars = d.text := by
  simp [WarnData.fields, WarnData.text, WarnData.singles, List.flatMap_cons, flatMap_chars_map, List.append_assoc]

/-! Bits. -/

theorem and_bit_ne_zero (v x : Nat) : v &&& (1 <<< x) ≠ 0 ↔ v.testBit x = true := by
  rw [Nat.shiftLeft_eq, Nat.one_mul, Nat.and_two_pow]
  cases v.testBit x <;> simp

theorem boolAt_eq_bit (d : WarnData) (b : BitPos) : boolAt b d.prot1 d.prot2 d.instr = d.bit b := by
  have key : ∀ v x : Nat, decide ((v >>> x) &&& 1 = 1) = v.testBit x := by
    intro v x
    rw [Nat.testBit, Nat.and_comm 1, Nat.and_one_is_mod]
    have : (v >>> x) % 2 = 0 ∨ (v >>> x) % 2 = 1 := by omega
    rcases this with h | h <;> rw [h] <;> rfl
  obtain ⟨f, x⟩ := b
  cases f <;> exact key _ _

end Sys2Proof.Claims
end

