-- ==== Sys2Proof/Laws/Exec.lean ====
section
/-! SUPPORT. What any operation can answer. -/

namespace Sys2Proof.Machine

open Sys2Proof.Claims


/-- An operation ended `Ok`: its group holds a value, and nothing else changed but working registers and, for `DECODE_RESP`, the
latch. -/

structure EndsOk (i : Instr) (s t : State) : Prop where
  st : t.status = okStatus
  val : GroupValid (groupOf i) t
  frame : ∃ l, invalidate (groupOf i) t = invalidate (groupOf i) (finishOk { s with rtnLatch := l, work := t.work }) ∧
      (i ≠ .decodeResp → l = s.rtnLatch)

/-- An operation ended with the error `e`: the error entry, from the working registers it left. -/
structure EndsErr (i : Instr) (s t : State) (e : OpError) : Prop where
  eq : ∃ l, t = raiseErr (groupOf i) e { s with rtnLatch := l, work := t.work } ∧ (i ≠ .decodeResp → l = s.rtnLatch)

theorem conclude_ends {α : Type} {i : Instr} {s t : State} {r : Res α} {c : α → State → State} (h :
    conclude (groupOf i) s r c = .next t)
    (hc : ∀ a u, (c a u).status = u.status ∧ (c a u).work = u.work ∧ GroupValid (groupOf i) (c a u) ∧
        invalidate (groupOf i) (c a u) = invalidate (groupOf i) u) : 
    (∃ a k, r = .ok a k ∧ t.work = k ∧ EndsOk i s t) ∨ ∃ e k, r = .err e k ∧ t.work = k ∧ EndsErr i s t e := by
  rcases conclude_next h with ⟨a, k, hr, rfl⟩ | ⟨e, k, hr, rfl⟩
  · obtain ⟨h1, h2, h3, h4⟩ := hc a (finishOk { s with work := k })
    exact .inl ⟨a, k, hr, h2, ⟨h1, h3, s.rtnLatch, by rw [h4, h2]; rfl, fun _ => rfl⟩⟩
  · exact .inr ⟨e, k, hr, by simp, ⟨s.rtnLatch, by simp, fun _ => rfl⟩⟩

/-- Everything an operation that has a next state can do (R270, R271). -/
theorem exec_ends (i : Instr) (s t : State) (h : exec i s = .next t) : EndsOk i s t ∨ ∃ e, EndsErr i s t e := by
  have weak : ∀ {α : Type} {r : Res α}, ((∃ a k, r = .ok a k ∧ t.work = k ∧ EndsOk i s t) ∨ ∃ e k, r = .err e k ∧
      t.work = k ∧ EndsErr i s t e) → EndsOk i s t ∨ ∃ e, EndsErr i s t e := by
    rintro α r (⟨a, k, -, -, h⟩ | ⟨e, k, -, -, h⟩)
    exacts [.inl h, .inr ⟨e, h⟩]
  cases i
  case decodeResp =>
    have h : execDecodeResp s = .next t := h
    rw [execDecodeResp] at h
    split at h
    · cases h
      exact .inr ⟨_, s.rtnLatch, by rw [raiseErr_work]; rfl, fun h => absurd rfl h⟩
    · cases h
    · next rtn k hk =>
      rcases conclude_ends (i := .decodeResp) h (fun a u => ⟨rfl, rfl, trivial, rfl⟩) with ⟨a, k, -, -, h1, h2, ⟨l, h3,
          -⟩⟩ | ⟨e, k, -, -, ⟨l, h3, -⟩⟩
      · exact .inl ⟨h1, h2, l, h3, fun h => absurd rfl h⟩
      · exact .inr ⟨e, l, h3, fun h => absurd rfl h⟩
  case chksumCalc =>
    have h : execChksumCalc s = .next t := h
    exact weak (conclude_ends (i := .chksumCalc) h (fun a u => ⟨rfl, rfl, rfl, rfl⟩))
  case lchksumCalc =>
    have h : execLchksumCalc s = .next t := h
    exact weak (conclude_ends (i := .lchksumCalc) h (fun a u => ⟨rfl, rfl, rfl, rfl⟩))
  case encodeReq =>
    have h : execEncodeReq s = .next t := h
    exact weak (conclude_ends (i := .encodeReq) h (fun a u => ⟨rfl, rfl, trivial, rfl⟩))
  case decVersion =>
    have h : execDecVersion s = .next t := h
    exact weak (conclude_ends (i := .decVersion) h (fun a u => ⟨rfl, rfl, rfl, rfl⟩))
  case decSerial =>
    have h : execDecSerial s = .next t := h
    exact weak (conclude_ends (i := .decSerial) h (fun a u => ⟨rfl, rfl, rfl, rfl⟩))
  case decAnalog =>
    have h : execDecAnalog s = .next t := h
    exact weak (conclude_ends (i := .decAnalog) h (fun a u => ⟨rfl, rfl, rfl, rfl⟩))
  case decCapacity =>
    have h : execDecCapacity s = .next t := h
    exact weak (conclude_ends (i := .decCapacity) h (fun a u => ⟨rfl, rfl, rfl, rfl⟩))
  case decWarn =>
    have h : execDecWarn s = .next t := h
    exact weak (conclude_ends (i := .decWarn) h (fun a u => ⟨rfl, rfl, rfl, rfl⟩))

theorem errStatus_kind_ne_zero (e : OpError) : (errStatus e).kind ≠ 0 := by
  cases e <;> simp [errStatus, errStatusOf]

theorem raiseErr_groupInvalid (i : Instr) (e : OpError) (s : State) : GroupInvalid (groupOf i) (raiseErr (groupOf i) e s) := by
  cases i <;> first | rfl | exact ⟨rfl, fun i => by simp [octetAt, bufLen, groupOf]⟩

/-- Two states that agree when a group is set aside agree in every field outside it. -/
theorem fields_of_invalidate_eq {g : Group} {t u : State} (h : invalidate g t = invalidate g u) : 
   t.cfg = u.cfg ∧ t.op = u.op ∧ t.opLatched = u.opLatched ∧ t.ver = u.ver ∧ t.adr = u.adr ∧ t.cid1 = u.cid1 ∧
    t.cid2 = u.cid2 ∧ t.lenidOvrEn = u.lenidOvrEn ∧ t.lenidOvr = u.lenidOvr ∧ t.larg = u.larg ∧ t.rtnLatch = u.rtnLatch ∧
        t.status = u.status ∧ t.work = u.work ∧ ∀ g', g' ≠ g → SameGroup g' u t := by
  have f : ∀ {β : Type} (p : State → β) (_ : ∀ x, p (invalidate g x) = p x), p t = p u := fun p hp => by rw [← hp t, h, hp u]
  refine ⟨f _ (by simp), f _ (by simp), f _ (by simp), f _ (by simp), f _ (by simp), f _ (by simp), f _ (by simp),
      f _ (by simp), f _ (by simp), f _ (by simp), f _ (by simp), f _ (by simp), f _ (by simp), ?_⟩
  intro g' hg
  cases g' <;> simp only [SameGroup]
  · exact f _ fun x => invalidate_ck_other _ _ hg.symm
  · exact f _ fun x => invalidate_lck_other _ _ hg.symm
  · exact ⟨f _ fun x => invalidate_raw_other _ _ hg.symm, f _ fun x => invalidate_rawLen_other _ _ hg.symm⟩
  · exact ⟨f _ fun x => invalidate_info_other _ _ hg.symm, f _ fun x => invalidate_infoLen_other _ _ hg.symm⟩
  · exact f _ fun x => invalidate_idVer_other _ _ hg.symm
  · exact f _ fun x => invalidate_idSn_other _ _ hg.symm
  · exact f _ fun x => invalidate_analog_other _ _ hg.symm
  · exact f _ fun x => invalidate_cap_other _ _ hg.symm
  · exact f _ fun x => invalidate_warn_other _ _ hg.symm

theorem invalidate_invalidate (g : Group) (s : State) : invalidate g (invalidate g s) = invalidate g s := by cases g <;> rfl

/-- The same in one line: what is left of the state when the operation's own group is set aside. -/
theorem exec_frame {i : Instr} {s t : State} (h : exec i s = .next t) : ∃ l, (i ≠ .decodeResp → l = s.rtnLatch) ∧
    invalidate (groupOf i) t = invalidate (groupOf i) { s with rtnLatch := l, work := t.work, status := t.status } ∧
    ((t.status = okStatus ∧ GroupValid (groupOf i) t) ∨ (∃ e, t.status = errStatus e ∧ GroupInvalid (groupOf i) t ∧
        t = invalidate (groupOf i) t)) := by
  rcases exec_ends i s t h with ⟨h1, h2, l, h3, h4⟩ | ⟨e, l, h3, h4⟩
  · exact ⟨l, h4, by rw [h3, h1]; rfl, .inl ⟨h1, h2⟩⟩
  · have hs : t.status = errStatus e := by rw [h3]; simp
    refine ⟨l, h4, ?_, .inr ⟨e, hs, by rw [h3]; exact raiseErr_groupInvalid _ _ _, ?_⟩⟩
    · rw [hs]; conv_lhs => rw [h3]
      rw [raiseErr, invalidate_invalidate]
    · rw [h3, raiseErr, invalidate_invalidate]

end Sys2Proof.Machine
end

