-- ==== Sys2Proof/Laws/HostPort.lean ====
section
/-! SUPPORT. What the host's writes can do, and what each of the three buffer updates leaves in either buffer. -/

namespace Sys2Proof.Machine

/-! The three updates of a buffer, whichever buffer it is. -/

theorem bufMem_writeOctet (b : Buffer) (pos : Nat) (v : Octet) (s : State) :
    bufMem b (writeOctet b pos v s) = (bufMem b s).write pos v := by cases b <;> rfl

@[simp] theorem bufLen_writeOctet (b b' : Buffer) (pos : Nat) (v : Octet) (s : State) :
    bufLen b' (writeOctet b pos v s) = bufLen b' s := by cases b <;> cases b' <;> rfl

theorem bufMem_writeOctet_other {b b' : Buffer} (h : b' ≠ b) (pos : Nat) (v : Octet) (s : State) :
    bufMem b' (writeOctet b pos v s) = bufMem b' s := by
  cases b <;> cases b' <;> first | rfl | exact absurd rfl h

theorem bufMem_writeLength (b : Buffer) (n : Nat) (s : State) :
    bufMem b (writeLength b n s) = (bufMem b s).truncate n := by cases b <;> rfl

/-- The length registers hold every length their buffer can have (R25, R26). -/
theorem bufLen_writeLength {b : Buffer} {n : Nat} (h : n ≤ bufMax b) (s : State) : bufLen b (writeLength b n s) = n := by
  cases b
  · have h : n ≤ 4113 := h
    simp only [bufLen, writeLength_raw_rawLen, BitVec.toNat_ofNat]
    omega
  · have h : n ≤ 4095 := h
    simp only [bufLen, writeLength_info_infoLen, BitVec.toNat_ofNat]
    omega

theorem bufMem_writeLength_other {b b' : Buffer} (h : b' ≠ b) (n : Nat) (s : State) :
    bufMem b' (writeLength b n s) = bufMem b' s ∧ bufLen b' (writeLength b n s) = bufLen b' s := by
  cases b <;> cases b' <;> first | exact ⟨rfl, rfl⟩ | exact absurd rfl h

theorem bufMem_putText (b : Buffer) (t : Text) (s : State) : bufMem b (putText b t s) = Memory.ofText t := by
  cases b <;> rfl

theorem bufText_putText {b : Buffer} {t : Text} (h : t.length ≤ bufMax b) (s : State) :
    bufText b (putText b t s) = .ok t := by
  cases b
  · exact bufText_putText_raw s t (Nat.lt_of_le_of_lt h (by decide))
  · exact bufText_putText_info s t (Nat.lt_of_le_of_lt h (by decide))

theorem bufLen_putText {b : Buffer} {t : Text} (h : t.length ≤ bufMax b) (s : State) : bufLen b (putText b t s) = t.length :=
  (bufText_length _ _ _ (bufText_putText h s)).symm

theorem bufMem_putText_other {b b' : Buffer} (h : b' ≠ b) (t : Text) (s : State) :
    bufMem b' (putText b t s) = bufMem b' s ∧ bufLen b' (putText b t s) = bufLen b' s := by
  cases b <;> cases b' <;> first | exact ⟨rfl, rfl⟩ | exact absurd rfl h

/-! The writes. -/

theorem hostWrite_busy (w : HostWrite) {s : State} (h : s.status.busy = true) : hostWrite w s = .fault .hostWhileBusy :=
  if_pos h

theorem hostWrite_octet {b : Buffer} {pos : Nat} {s : State} (hb : s.status.busy = false) (h : pos < bufMax b) (v : Octet) :
    hostWrite (.octet b pos v) s = .next (writeOctet b pos v s) := by
  simp [hostWrite, hb, h]

theorem hostWrite_length {b : Buffer} {n : Nat} {s : State} (hb : s.status.busy = false) (h : n ≤ bufMax b) :
    hostWrite (.length b n) s = .next (writeLength b n s) := by
  simp [hostWrite, hb, h]

theorem hostWrite_text {b : Buffer} {t : Text} {s : State} (hb : s.status.busy = false) (h : t.length ≤ bufMax b) :
    hostWrite (.text b t) s = .next (putText b t s) := by
  simp [hostWrite, hb, h]

/-- Everything a host write that has a move can do: the block is idle, and one operand register, one octet within its buffer,
or one length or whole text that fits is written. -/
theorem hostWrite_next {w : HostWrite} {s t : State} (h : hostWrite w s = .next t) :
    s.status.busy = false ∧
    ((∃ b pos v, w = .octet b pos v ∧ pos < bufMax b ∧ t = writeOctet b pos v s) ∨
      (∃ b n, w = .length b n ∧ n ≤ bufMax b ∧ t = writeLength b n s) ∨
      (∃ b x, w = .text b x ∧ x.length ≤ bufMax b ∧ t = putText b x s) ∨
      t = { s with
        op := t.op, ver := t.ver, adr := t.adr, cid1 := t.cid1, cid2 := t.cid2, lenidOvrEn := t.lenidOvrEn,
        lenidOvr := t.lenidOvr, larg := t.larg }) := by
  cases hb : s.status.busy with
  | true => rw [hostWrite_busy w hb] at h; cases h
  | false =>
    refine ⟨rfl, ?_⟩
    cases w with
    | octet b pos v =>
      by_cases hp : pos < bufMax b
      · rw [hostWrite_octet hb hp] at h
        cases h
        exact .inl ⟨b, pos, v, rfl, hp, rfl⟩
      · simp [hostWrite, hb, hp] at h
    | length b n =>
      by_cases hp : n ≤ bufMax b
      · rw [hostWrite_length hb hp] at h
        cases h
        exact .inr (.inl ⟨b, n, rfl, hp, rfl⟩)
      · simp [hostWrite, hb, hp] at h
    | text b x =>
      by_cases hp : x.length ≤ bufMax b
      · rw [hostWrite_text hb hp] at h
        cases h
        exact .inr (.inr (.inl ⟨b, x, rfl, hp, rfl⟩))
      · simp [hostWrite, hb, hp] at h
    | op _ | ver _ | adr _ | cid1 _ | cid2 _ | lenidOvrEn _ | lenidOvr _ | larg _ =>
      simp only [hostWrite, hb, Bool.false_eq_true, if_false] at h
      cases h
      exact .inr (.inr (.inr rfl))

end Sys2Proof.Machine
end

