-- ==== Sys2Proof/Laws/Parts.lean ====
section
/-! SUPPORT. Everything the parts of the cursor walks can do, from any working registers: a result in its range, a legal error,
or a stop on an INFO octet without a value. -/

namespace Sys2Proof.Machine

/-- An error with a code of 60_exceptions.md R261 to R266. -/
abbrev ErrLegal (e : OpError) : Prop := outcomeLegal (errStatus e).kind.toNat (errStatus e).detail.toNat (errStatus e).field.toNat = true

/-- A condition on the working registers that a cursor walk keeps, whatever fields it reads. -/
structure Kept (s : State) (I : Work → Prop) : Prop where
  cur : ∀ k, I k → k.cur.toNat ≤ s.infoLen.toNat
  adv : ∀ k n, I k → k.cur.toNat + n ≤ s.infoLen.toNat → I (advance n k)
  packs : ∀ k x, I k → I { k with packs := x }
  p : ∀ k x, I k → I { k with p := x }
  cells : ∀ k x, I k → I { k with cells := x }
  temps : ∀ k x, I k → I { k with temps := x }

/-- The same for the walk of `DEC_ANALOG`, which writes three more registers. -/
structure KeptAnalog (s : State) (I : Work → Prop) : Prop extends Kept s I where
  prev : ∀ k x, I k → I { k with cellsPrev := x }
  volt : ∀ b v k, I k → I (noteVoltage b v k)

section
variable {s : State} {I : Work → Prop}

/-- What holds at an error. -/
def ErrKept (I : Work → Prop) (e : OpError) (k : Work) : Prop := I k ∧ ErrLegal e

/-- `PeekField`: the value fits the field, or a legal error (R127). -/
theorem peekField_kept (w : Nat) (f : FieldId) (hl : ErrLegal (.decode .overrun f) ∧
    ErrLegal (.decode .badHex f)) (P : Work → Prop) :
   (peekField s w f).Sat (fun k => I k ∧ P k) (fun v k => (I k ∧ P k) ∧ v < 16 ^ w) (ErrKept I) (¬ Readable .info s) :=
  (peekField_sat s w f (fun k => I k ∧ P k)).weaken (fun _ h => h) (fun _ _ h => ⟨h.1, h.2.2⟩) (fun e k h => ⟨h.1.1,
      by rcases h.2 with rfl | rfl; exacts [hl.1, hl.2]⟩) id

/-- `P` does not look at the cursor. -/
def NoCur (P : Work → Prop) : Prop := ∀ k n, P k → P (advance n k)

/-- `ReadField`: the value fits the field, or a legal error (R126). -/
theorem readField_kept (hI : Kept s I) (w : Nat) (f : FieldId) (hl : ErrLegal (.decode .overrun f) ∧
    ErrLegal (.decode .badHex f)) (P : Work → Prop) (hP : NoCur P) :
   (readField s w f).Sat (fun k => I k ∧ P k) (fun v k => (I k ∧ P k) ∧ v < 16 ^ w) (ErrKept I) (¬ Readable .info s) :=
  (readField_sat s w f (fun k => I k ∧ P k)).weaken (fun _ h => h) (fun v k' ⟨k, h, e, h1, h2,
      h3⟩ => ⟨by rw [e]; exact ⟨hI.adv k w h.1 (by omega), hP k w h.2⟩, h3⟩) (fun e k h => ⟨h.1.1,
          by rcases h.2 with rfl | rfl; exacts [hl.1, hl.2]⟩) id

/-- `SkipField` (R128). -/
theorem skipField_kept (hI : Kept s I) (w : Nat) (f : FieldId) (hl : ErrLegal (.decode .overrun f)) (P : Work → Prop) (hP :
    NoCur P) :
   (skipField s w f).Sat (fun k => I k ∧ P k) (fun _ k => I k ∧ P k) (ErrKept I) (¬ Readable .info s) :=
  (skipField_sat s w f (fun k => I k ∧ P k) (¬ Readable .info s)).weaken (fun _ h => h) (fun v k' ⟨k, h, e, h1,
      h2⟩ => by rw [e]; exact ⟨hI.adv k w h.1 (by omega), hP k w h.2⟩) (fun e k h => ⟨h.1.1, by rw [h.2]; exact hl⟩) id

theorem Walk.sat_value {α : Type} (a : α) {P : Work → Prop} {Q : α → Work → Prop} (h : ∀ k, P k → Q a k) (E F) :
    (Walk.done a).Sat P Q E F := fun k hk => h k hk

theorem Walk.sat_update (g : Work → Work) {P : Work → Prop} {Q : Work → Prop} (h : ∀ k, P k → Q (g k)) (E F) :
    (Walk.set g).Sat P (fun _ => Q) E F := fun k hk => h k hk

/-- A stronger condition before. -/
theorem Walk.Sat.pre {α : Type} {m : Walk α} {P P' : Work → Prop} {Q E F} (h : m.Sat P Q E F) (hp : ∀ k, P' k → P k) :
    m.Sat P' Q E F := h.weaken hp (fun _ _ h => h) (fun _ _ h => h) id

/-- A weaker condition after. -/
theorem Walk.Sat.post {α : Type} {m : Walk α} {P : Work → Prop} {Q Q' : α → Work → Prop} {E F} (h : m.Sat P Q E F) (hp :
    ∀ a k, Q a k → Q' a k) : m.Sat P Q' E F := h.weaken (fun _ h => h) hp (fun _ _ h => h) id

/-- A fact about a value moved out of the condition before. -/
theorem Walk.Sat.of_fact {α : Type} {m : Walk α} {P : Work → Prop} {φ : Prop} {Q E F} (h : φ → m.Sat P Q E F) :
    m.Sat (fun k => P k ∧ φ) Q E F := fun k hk => h hk.2 k hk.1

/-- A ratio: the rounded value of a positive divisor, or `DivZero` (R136). -/
theorem ratio_kept (f : FieldId) (a b : Nat) (hl : ErrLegal (.decode .divZero f)) (P : Work → Prop) (hI : ∀ k, P k → I k) :
   (ratio s f a b).Sat P (fun r k => P k ∧ (0 < b ∧ r = BitVec.ofNat 30 (pct s.cfg.roundTie a b))) (ErrKept I)
       (¬ Readable .info s) :=
  (ratio_sat s f a b P (¬ Readable .info s)).weaken (fun _ h => h) (fun _ _ h => h) (fun e k h => ⟨hI k h.1,
      by rw [h.2]; exact hl⟩) id

/-- A run of fields. -/
theorem readFields_kept (hI : Kept s I) (w : Nat) (f : FieldId) (hl : ErrLegal (.decode .overrun f) ∧
    ErrLegal (.decode .badHex f)) (P : Work → Prop) (hP : NoCur P) (n : Nat) :
   (readFields s w f n).Sat (fun k => I k ∧ P k) (fun vs k => (I k ∧ P k) ∧ (vs.length = n ∧ ∀ v ∈ vs, v < 16 ^ w))
       (ErrKept I) (¬ Readable .info s) := by
  induction n with
  | zero => exact Walk.sat_value _ (fun k h => ⟨h, rfl, by simp⟩) _ _
  | succ n ih =>
    refine (readField_kept hI w f hl P hP).andThen fun v => Walk.Sat.of_fact fun hv => ?_
    refine ih.andThen fun vs => Walk.sat_value _ (fun k h => ⟨h.1, by simp [h.2.1], ?_⟩) _ _
    intro u hu
    rcases List.mem_cons.mp hu with rfl | hu
    · exact hv
    · exact h.2.2 u hu

/-- The trailing heuristic (R214, R244). -/
theorem trailingFlag_kept (hI : Kept s I) (P : Work → Prop) (hP : NoCur P) : (trailingFlag s).Sat (fun k => I k ∧ P k)
    (fun _ k => I k ∧ P k) (ErrKept I) (¬ Readable .info s) := by
  intro k hk
  rw [trailingFlag]
  by_cases h : k.cur.toNat < s.infoLen.toNat
  · rw [if_pos h]
    have : ((peekField s countW .flag).andThen fun v k => if v ≠ k.cells.toNat then skipField s skipW .flag k else .ok () k).Sat (fun k => I k ∧ P k) (fun _ k => I k ∧ P k) (ErrKept I) (¬ Readable .info s) := by
      refine (peekField_kept countW .flag ⟨by decide, by decide⟩ P).andThen fun v => Walk.Sat.of_fact fun hv => ?_
      intro k hk
      dsimp only
      by_cases hc : v ≠ k.cells.toNat
      · rw [if_pos hc]; exact skipField_kept hI skipW .flag (by decide) P hP k hk
      · rw [if_neg hc]; exact hk
    exact this k hk
  · rw [if_neg h]; exact hk

/-- The head of a pack walk (R201), from any working registers. -/
theorem readPackCount_kept (hI : Kept s I) {P0 : Work → Prop} (h0 : ∀ k, P0 k → I { k with cur := 0 }) :
    (readPackCount s).Sat P0 (fun n k => I k ∧ n < 256) (fun e k => ErrKept I e k) (¬ Readable .info s) := by
  rw [readPackCount]
  have hT : NoCur fun _ => True := fun _ _ _ => trivial
  refine (Walk.sat_update (Q := fun k => I k ∧ True) _ (fun k hk => ⟨h0 k hk, trivial⟩) _ _).andThen fun _ => ?_
  refine (skipField_kept hI _ .lead (by decide) _ hT).andThen fun _ => ?_
  refine (readField_kept hI countW .packs ⟨by decide, by decide⟩ _ hT).andThen fun n => Walk.Sat.of_fact fun hn => ?_
  refine (Walk.sat_update (Q := fun k => I k) _ (fun k hk => hI.packs k _ hk.1) _ _).andThen fun _ => ?_
  exact Walk.sat_value _ (fun k hk => ⟨hk, by simpa [countW] using hn⟩) _ _

/-! analog -/

theorem peekCells_kept (hI : Kept s I) (P : Work → Prop) (hP : ∀ k x, P k → P { k with cells := x }) :
    (peekCells s).Sat (fun k => I k ∧ P k) (fun _ k => I k ∧ P k) (ErrKept I) (¬ Readable .info s) := by
  refine (peekField_kept countW .cells ⟨by decide, by decide⟩ P).andThen fun v => Walk.Sat.of_fact fun _ => ?_
  exact Walk.sat_update _ (fun k hk => ⟨hI.cells k _ hk.1, hP k _ hk.2⟩) _ _

/-- The count of a pack: after the first pack it is the previous pack's (R203). -/
theorem analogHead_kept (hI : KeptAnalog s I) (n : BitVec 8) (cp : BitVec 8) : (analogHead s).Sat (fun k => I k ∧
    (k.p = n ∧ (1 < n.toNat → k.cellsPrev = cp)))
    (fun _ k => I k ∧ (1 < n.toNat → k.cells = cp)) (ErrKept I) (¬ Readable .info s) := by
  rw [analogHead]
  refine (peekCells_kept hI.toKept (fun k => k.p = n ∧ (1 < n.toNat → k.cellsPrev = cp)) (fun k x h => h)).andThen fun _ => ?_
  refine Walk.Sat.andThen (Q := fun _ k => I k ∧ (1 < n.toNat → k.cells = cp)) ?_
      fun _ => skipField_kept hI.toKept countW .cells (by decide) _ (fun k n h => h)
  intro k hk
  dsimp only
  by_cases hc : 1 < k.p.toNat ∧ k.cells ≠ k.cellsPrev
  · rw [if_pos hc]
    have hn : 1 < n.toNat := by rw [← hk.2.1]; exact hc.1
    have : ((skipField s skipW .extra).andThen fun _ => (peekCells s).andThen
        fun _ k => if k.cells ≠ k.cellsPrev then .err (.decode .cellMismatch .cells) k else .ok () k).Sat (fun k => I k ∧
            k.cellsPrev = cp)
      (fun _ k => I k ∧ (1 < n.toNat → k.cells = cp)) (ErrKept I) (¬ Readable .info s) := by
      refine (skipField_kept hI.toKept skipW .extra (by decide) (fun k => k.cellsPrev = cp) (fun _ _ h => h)).andThen
          fun _ => ?_
      refine (peekCells_kept hI.toKept (fun k => k.cellsPrev = cp) (fun _ _ h => h)).andThen fun _ => ?_
      intro k hk
      dsimp only
      by_cases he : k.cells ≠ k.cellsPrev
      · rw [if_pos he]; exact ⟨hk.1, by decide⟩
      · rw [if_neg he]; exact ⟨hk.1, fun _ => by rw [not_not.mp he, hk.2]⟩
    exact this k ⟨hk.1, hk.2.2 hn⟩
  · rw [if_neg hc]
    refine ⟨hk.1, fun hn => ?_⟩
    have : ¬ k.cells ≠ k.cellsPrev := fun h => hc ⟨by rw [hk.2.1]; exact hn, h⟩
    rw [not_not.mp this, hk.2.2 hn]

/-- The cells of a pack. -/
theorem readCells_kept (hI : KeptAnalog s I) (P : Work → Prop) (hP : NoCur P) (hv : ∀ b v k, P k → P (noteVoltage b v k))
    (n : Nat) : ∀ b,
   (readCells s n b).Sat (fun k => I k ∧ P k) (fun vs k => (I k ∧ P k) ∧ vs.length = n) (ErrKept I) (¬ Readable .info s) := by
  induction n with
  | zero => exact fun b => Walk.sat_value _ (fun k h => ⟨h, rfl⟩) _ _
  | succ n ih =>
    intro b
    refine (readField_kept hI.toKept valW .vcell ⟨by decide, by decide⟩ P hP).andThen fun v => Walk.Sat.of_fact fun _ => ?_
    refine (Walk.sat_update (Q := fun k => I k ∧ P k) _ (fun k hk => ⟨hI.volt _ _ k hk.1, hv _ _ k hk.2⟩) _ _).andThen
        fun _ => ?_
    exact (ih false).andThen fun vs => Walk.sat_value _ (fun k h => ⟨h.1, by simp [h.2]⟩) _ _

theorem noteVoltage_cells (b v k) : (noteVoltage b v k).cells = k.cells := by cases b <;> rfl

theorem analogCells_kept (hI : KeptAnalog s I) (P : Work → Prop) (hP : NoCur P) (hv : ∀ b v k, P k → P (noteVoltage b v k)) :
   (analogCells s).Sat (fun k => I k ∧ P k) (fun cv k => (I k ∧ P k) ∧ cv.1.length = k.cells.toNat) (ErrKept I)
       (¬ Readable .info s) := by
  rw [analogCells]
  refine Walk.Sat.andThen (Q := fun vs k => (I k ∧ P k) ∧ vs.length = k.cells.toNat) ?_ fun vs k hk => hk
  intro k hk
  have := readCells_kept hI (fun k' => P k' ∧ k'.cells = k.cells) (fun k n h => ⟨hP k n h.1, h.2⟩)
      (fun b v k h => ⟨hv b v k h.1, by rw [noteVoltage_cells]; exact h.2⟩) k.cells.toNat true
  exact Walk.Sat.post this (fun vs k' h => ⟨⟨h.1.1, h.1.2.1⟩, by rw [h.2, h.1.2.2]⟩) k ⟨hk.1, hk.2, rfl⟩

/-- The temperatures of a pack. -/
theorem analogTemps_kept (hI : KeptAnalog s I) (P : Work → Prop) (hP : NoCur P) (ht : ∀ k x, P k → P { k with temps := x }) :
   (analogTemps s).Sat (fun k => I k ∧ P k) (fun ts k => (I k ∧ P k) ∧ (ts.length = k.temps.toNat ∧ ∀ t ∈ ts,
       -2730 ≤ t.toInt ∧ t.toInt ≤ 62805)) (ErrKept I) (¬ Readable .info s) := by
  rw [analogTemps]
  refine (readField_kept hI.toKept countW .temps ⟨by decide, by decide⟩ P hP).andThen fun n => Walk.Sat.of_fact fun hn => ?_
  refine (Walk.sat_update (Q := fun k => I k ∧ (P k ∧ k.temps = BitVec.ofNat 8 n)) _ (fun k hk => ⟨hI.temps k _ hk.1,
      ht k _ hk.2, rfl⟩) _ _).andThen fun _ => ?_
  refine (readFields_kept hI.toKept valW .tcell ⟨by decide, by decide⟩ _ (fun k m h => ⟨hP k m h.1, h.2⟩) n).andThen
      fun ts => Walk.sat_value _ (fun k h => ⟨⟨h.1.1, h.1.2.1⟩, ?_, ?_⟩) _ _
  · rw [List.length_map, h.2.1, h.1.2.2]; exact (toNat_ofNat_of_lt (by simpa [countW] using hn)).symm
  · intro t ht
    obtain ⟨v, hv, rfl⟩ := List.mem_map.mp ht
    have := h.2.2 v hv
    simp only [valW] at this
    rw [tempOf_toInt v (by omega)]
    omega

/-- The capacity registers of three raw values. -/
theorem capacityInv_of_raw (tie : RoundTie) (a b c : Nat) (ha : a < 65536) (hb : b < 65536) (hc : c < 65536) (hb0 : 0 < b)
    (hc0 : 0 < c) : CapacityInv tie (capacityOf a) (capacityOf b) (capacityOf c) (BitVec.ofNat 30 (pct tie a b))
        (BitVec.ofNat 30 (pct tie b c)) := by
  have h1 := pct_le tie a b hb0
  have h2 := pct_le tie b c hc0
  simp only [CapacityInv, capacityOf_toNat _ ha, capacityOf_toNat _ hb, capacityOf_toNat _ hc, pct_register tie a b ha hb0,
      pct_register tie b c hb hc0]
  have ea : a * 10 / 10 = a := by omega
  have eb : b * 10 / 10 = b := by omega
  have ec : c * 10 / 10 = c := by omega
  rw [ea, eb, ec]
  refine ⟨by omega, by omega, by omega, by omega, by omega, by omega, by omega, by omega, rfl, by omega, rfl, by omega⟩

/-- One pack of `DEC_ANALOG`. -/
theorem analogPack_kept (hI : KeptAnalog s I) (n : BitVec 8) (cp : BitVec 8) : (analogPack s).Sat (fun k => I k ∧
    (k.p = n ∧ (1 < n.toNat → k.cellsPrev = cp)))
    (fun r k => I k ∧ (AnalogRecInv s.cfg.roundTie r ∧ k.cellsPrev = r.cells ∧ (1 < n.toNat → r.cells = cp))) (ErrKept I)
        (¬ Readable .info s) := by
  rw [analogPack]
  have hS := hI.toKept
  refine (analogHead_kept hI n cp).andThen fun _ => ?_
  refine (analogCells_kept hI (fun k => 1 < n.toNat → k.cells = cp) (fun _ _ h => h)
      (fun b v k h => by rw [noteVoltage_cells]; exact h)).andThen fun cv => ?_
  refine Walk.Sat.pre (P := fun k => I k ∧ ((1 < n.toNat → k.cells = cp) ∧
      cv.1.length = k.cells.toNat)) ?_ (fun k h => ⟨h.1.1, h.1.2, h.2⟩)
  refine (analogTemps_kept hI _ (fun _ _ h => h) (fun _ _ h => h)).andThen fun ts => ?_
  refine Walk.Sat.pre (P := fun k => I k ∧ ((1 < n.toNat → k.cells = cp) ∧ cv.1.length = k.cells.toNat ∧
      ts.length = k.temps.toNat ∧ ∀ t ∈ ts, -2730 ≤ t.toInt ∧ t.toInt ≤ 62805)) ?_ (fun k h => ⟨h.1.1, h.1.2.1, h.1.2.2, h.2⟩)
  have hP : NoCur (fun k => (1 < n.toNat → k.cells = cp) ∧ cv.1.length = k.cells.toNat ∧ ts.length = k.temps.toNat ∧
      ∀ t ∈ ts, -2730 ≤ t.toInt ∧ t.toInt ≤ 62805) := fun _ _ h => h
  generalize hPe : (fun k : Work => (1 < n.toNat → k.cells = cp) ∧ cv.1.length = k.cells.toNat ∧
      ts.length = k.temps.toNat ∧ ∀ t ∈ ts, -2730 ≤ t.toInt ∧ t.toInt ≤ 62805) = P at hP
  refine Walk.Sat.pre (P := fun k => I k ∧ P k) ?_ (fun k h => by rw [← hPe]; exact h)
  refine (readField_kept hS valW .ipack ⟨by decide, by decide⟩ P hP).andThen fun ip => Walk.Sat.of_fact fun _ => ?_
  refine (readField_kept hS valW .vpack ⟨by decide, by decide⟩ P hP).andThen fun vp => Walk.Sat.of_fact fun _ => ?_
  refine (readField_kept hS valW .rem ⟨by decide, by decide⟩ P hP).andThen fun rem => Walk.Sat.of_fact fun hrem => ?_
  refine (skipField_kept hS skipW .rsvd (by decide) P hP).andThen fun _ => ?_
  refine (readField_kept hS valW .full ⟨by decide, by decide⟩ P hP).andThen fun full => Walk.Sat.of_fact fun hfull => ?_
  refine (ratio_kept .soc rem full (by decide) _ (fun k h => h.1)).andThen fun soc => Walk.Sat.of_fact fun hsoc => ?_
  refine (readField_kept hS valW .cycles ⟨by decide, by decide⟩ P hP).andThen fun cy => Walk.Sat.of_fact fun _ => ?_
  refine (readField_kept hS valW .design ⟨by decide, by decide⟩ P hP).andThen fun design => Walk.Sat.of_fact fun hdes => ?_
  refine (ratio_kept .soh full design (by decide) _ (fun k h => h.1)).andThen fun soh => Walk.Sat.of_fact fun hsoh => ?_
  refine (skipField_kept hS skipW .trail (by decide) P hP).andThen fun _ => ?_
  refine (trailingFlag_kept hS P hP).andThen fun _ => ?_
  intro k hk
  subst hPe
  obtain ⟨h0, h1, h2, h3, h4⟩ := hk
  simp only [valW] at hrem hfull hdes
  refine ⟨hI.prev k _ h0, ⟨h2, h3, h4, ?_⟩, rfl, h1⟩
  rw [hsoc.2, hsoh.2]
  exact capacityInv_of_raw _ _ _ _ (by omega) (by omega) (by omega) hsoc.1 hsoh.1

/-- The packs of `DEC_ANALOG`: records in order, one cell count. -/
theorem analogPacks_kept (hI : KeptAnalog s I) (n : Nat) : ∀ (p : Nat) (cp : BitVec 8),
    1 ≤ p → p + n ≤ 256 → (analogPacks s n p).Sat (fun k => I k ∧ (1 < p → k.cellsPrev = cp))
    (fun rs k => I k ∧ (rs.length = n ∧ (∀ r ∈ rs, AnalogRecInv s.cfg.roundTie r) ∧ ∀ r ∈ rs, ∀ q ∈ rs,
        r.cells = q.cells) ∧ (1 < p → ∀ r ∈ rs, r.cells = cp)) (ErrKept I) (¬ Readable .info s) := by
  induction n with
  | zero => exact fun p cp _ _ => Walk.sat_value _ (fun k h => ⟨h.1, ⟨rfl, by simp, by simp⟩, by simp⟩) _ _
  | succ n ih =>
    intro p cp hp hpn
    have e : (BitVec.ofNat 8 p).toNat = p := toNat_ofNat_of_lt (by omega)
    rw [analogPacks]
    refine (Walk.sat_update (Q := fun k => I k ∧ (k.p = BitVec.ofNat 8 p ∧
        (1 < (BitVec.ofNat 8 p).toNat → k.cellsPrev = cp))) _ (fun k hk => ⟨hI.p k _ hk.1, rfl,
            by rw [e]; exact hk.2⟩) _ _).andThen fun _ => ?_
    refine (analogPack_kept hI (BitVec.ofNat 8 p) cp).andThen fun r => ?_
    refine Walk.Sat.pre (P := fun k => (I k ∧ (1 < p + 1 → k.cellsPrev = r.cells)) ∧ (AnalogRecInv s.cfg.roundTie r ∧
        (1 < p → r.cells = cp))) ?_ (fun k h => ⟨⟨h.1, fun _ => h.2.2.1⟩, h.2.1, by rw [← e]; exact h.2.2.2⟩)
    refine Walk.Sat.of_fact fun hr => ?_
    refine (ih (p + 1) r.cells (by omega) (by omega)).andThen fun rs => Walk.sat_value _ (fun k h => ?_) _ _
    obtain ⟨h0, ⟨h1, h2, h3⟩, h4⟩ := h
    have h4 := h4 (by omega)
    refine ⟨h0, ⟨by simp [h1], ?_, ?_⟩, fun hp1 q hq => ?_⟩
    · intro q hq
      rcases List.mem_cons.mp hq with rfl | hq
      exacts [hr.1, h2 q hq]
    · have : ∀ q ∈ r :: rs, q.cells = r.cells := by
        intro q hq
        rcases List.mem_cons.mp hq with rfl | hq
        exacts [rfl, h4 q hq]
      intro a ha b hb
      rw [this a ha, this b hb]
    · rcases List.mem_cons.mp hq with rfl | hq
      · exact hr.2 hp1
      · rw [h4 q hq, hr.2 hp1]

/-- The walk of `DEC_ANALOG`, from any working registers. -/
theorem analogWalk_kept (hI : KeptAnalog s I) {P0 : Work → Prop} (h0 : ∀ k, P0 k → I { k with cur := 0 }) :
    (analogWalk s).Sat P0 (fun g k => I k ∧ AnalogInv s.cfg.roundTie g) (ErrKept I) (¬ Readable .info s) := by
  rw [analogWalk]
  refine (readPackCount_kept hI.toKept h0).andThen fun n => Walk.Sat.of_fact fun hn => ?_
  refine (Walk.Sat.pre (analogPacks_kept hI n 1 0 (by omega) (by omega)) (fun k h => ⟨h, by omega⟩)).andThen
      fun rs => Walk.sat_value _ (fun k h => ⟨h.1, ?_⟩) _ _
  have : (BitVec.ofNat 8 n).toNat = n := toNat_ofNat_of_lt (by omega)
  exact ⟨by rw [h.2.1.1]; exact this.symm, h.2.1.2.1, h.2.1.2.2⟩

/-- The walk of `DEC_CAPACITY`, from any working registers. -/
theorem capacityWalk_kept (hI : Kept s I) {P0 : Work → Prop} (h0 : ∀ k, P0 k → I { k with cur := 0 }) :
    (capacityWalk s).Sat P0 (fun g k => I k ∧ CapacityInv s.cfg.roundTie g.rem g.full g.design g.soc g.soh) (ErrKept I)
        (¬ Readable .info s) := by
  rw [capacityWalk]
  have hT : NoCur fun _ => True := fun _ _ _ => trivial
  refine (Walk.sat_update (Q := fun k => I k ∧ True) _ (fun k hk => ⟨h0 k hk, trivial⟩) _ _).andThen fun _ => ?_
  refine (readField_kept hI valW .rem ⟨by decide, by decide⟩ _ hT).andThen fun rem => Walk.Sat.of_fact fun hrem => ?_
  refine (readField_kept hI valW .full ⟨by decide, by decide⟩ _ hT).andThen fun full => Walk.Sat.of_fact fun hfull => ?_
  refine (readField_kept hI valW .design ⟨by decide, by decide⟩ _ hT).andThen fun design => Walk.Sat.of_fact fun hdes => ?_
  refine (ratio_kept .soc rem full (by decide) _ (fun k h => h.1)).andThen fun soc => Walk.Sat.of_fact fun hsoc => ?_
  refine (ratio_kept .soh full design (by decide) _ (fun k h => h.1)).andThen fun soh => Walk.Sat.of_fact fun hsoh => ?_
  simp only [valW] at hrem hfull hdes
  refine Walk.sat_value _ (fun k h => ⟨h.1, ?_⟩) _ _
  rw [hsoc.2, hsoh.2]
  exact capacityInv_of_raw _ _ _ _ (by omega) (by omega) (by omega) hsoc.1 hsoh.1

/-! warn -/

/-- A list of warning codes. -/
theorem readCodes_kept (hI : Kept s I) (f : FieldId) (src : FlagSrc) (hl : ErrLegal (.decode .overrun f) ∧
    ErrLegal (.decode .badHex f)) (n : Nat) : ∀ i,
   (readCodes s f src n i).Sat (fun k => I k ∧ True) (fun es k => (I k ∧ True) ∧ es.length ≤ n) (ErrKept I)
       (¬ Readable .info s) := by
  induction n with
  | zero => exact fun i => Walk.sat_value _ (fun k h => ⟨h, by simp⟩) _ _
  | succ n ih =>
    intro i
    refine (readField_kept hI codeW f hl _ (fun _ _ h => h)).andThen fun v => Walk.Sat.of_fact fun _ => ?_
    refine (ih (i + 1)).andThen fun es => Walk.sat_value _ (fun k h => ⟨h.1, ?_⟩) _ _
    rw [List.length_append, codeEntry]
    have := h.2
    split <;> simp <;> omega

/-- The two lists of a pack of `DEC_WARN`. -/
theorem warnLists_kept (hI : Kept s I) : (warnLists s).Sat (fun k => I k ∧ True) (fun es k => (I k ∧ True) ∧
    es.length ≤ 510) (ErrKept I) (¬ Readable .info s) := by
  have hT : NoCur fun _ => True := fun _ _ _ => trivial
  rw [warnLists]
  refine (readField_kept hI countW .cellsw ⟨by decide, by decide⟩ _ hT).andThen fun nc => Walk.Sat.of_fact fun hnc => ?_
  refine (Walk.sat_update (Q := fun k => I k ∧ True) _ (fun k hk => ⟨hI.cells k _ hk.1, trivial⟩) _ _).andThen fun _ => ?_
  refine (readCodes_kept hI .cellw .cell ⟨by decide, by decide⟩ nc 1).andThen fun cs => Walk.Sat.of_fact fun hcs => ?_
  refine (readField_kept hI countW .tempsw ⟨by decide, by decide⟩ _ hT).andThen fun nt => Walk.Sat.of_fact fun hnt => ?_
  refine (Walk.sat_update (Q := fun k => I k ∧ True) _ (fun k hk => ⟨hI.temps k _ hk.1, trivial⟩) _ _).andThen fun _ => ?_
  refine (readCodes_kept hI .tempw .temp ⟨by decide, by decide⟩ nt 1).andThen fun ts => Walk.sat_value _ (fun k h => ⟨h.1,
      ?_⟩) _ _
  have := h.2
  simp only [countW] at hnc hnt
  rw [List.length_append]
  omega

theorem flatMap_length_le {α β : Type} (f : α → List β) (h : ∀ x, (f x).length ≤ 1) (l : List α) :
    (l.flatMap f).length ≤ l.length := by
  induction l with
  | nil => exact le_refl 0
  | cons x l ih =>
    have := h x
    rw [List.flatMap_cons, List.length_append, List.length_cons]
    omega

theorem bitEntries_length_le (src : FlagSrc) (v : Nat) : (bitEntries src v).length ≤ 8 :=
  flatMap_length_le _ (fun x => by split <;> simp) _

theorem codeEntry_length_le (src : FlagSrc) (i v : Nat) : (codeEntry src i v).length ≤ 1 := by
  rw [codeEntry]; split <;> simp

/-- One pack of `DEC_WARN`. -/
theorem warnPack_kept (hI : Kept s I) : (warnPack s).Sat (fun k => I k ∧ True) (fun r k => (I k ∧ True) ∧
    WarnRecInv s.cfg.boolMap r) (ErrKept I) (¬ Readable .info s) := by
  have hT : NoCur fun _ => True := fun _ _ _ => trivial
  rw [warnPack]
  refine (warnLists_kept hI).andThen fun fl => Walk.Sat.of_fact fun hfl => ?_
  refine (readField_kept hI codeW .chgw ⟨by decide, by decide⟩ _ hT).andThen fun a1 => Walk.Sat.of_fact fun h1 => ?_
  refine (readField_kept hI codeW .vtotw ⟨by decide, by decide⟩ _ hT).andThen fun a2 => Walk.Sat.of_fact fun h2 => ?_
  refine (readField_kept hI codeW .dsgw ⟨by decide, by decide⟩ _ hT).andThen fun a3 => Walk.Sat.of_fact fun h3 => ?_
  refine (readField_kept hI codeW .prot1 ⟨by decide, by decide⟩ _ hT).andThen fun a4 => Walk.Sat.of_fact fun h4 => ?_
  refine (readField_kept hI codeW .prot2 ⟨by decide, by decide⟩ _ hT).andThen fun a5 => Walk.Sat.of_fact fun h5 => ?_
  refine (readField_kept hI codeW .instr ⟨by decide, by decide⟩ _ hT).andThen fun a6 => Walk.Sat.of_fact fun h6 => ?_
  refine (readField_kept hI codeW .ctrl ⟨by decide, by decide⟩ _ hT).andThen fun a7 => Walk.Sat.of_fact fun h7 => ?_
  refine (readField_kept hI codeW .fault ⟨by decide, by decide⟩ _ hT).andThen fun a8 => Walk.Sat.of_fact fun h8 => ?_
  refine (readField_kept hI codeW .bal1 ⟨by decide, by decide⟩ _ hT).andThen fun a9 => Walk.Sat.of_fact fun h9 => ?_
  refine (readField_kept hI codeW .bal2 ⟨by decide, by decide⟩ _ hT).andThen fun a10 => Walk.Sat.of_fact fun h10 => ?_
  refine (readField_kept hI codeW .warn1 ⟨by decide, by decide⟩ _ hT).andThen fun a11 => Walk.Sat.of_fact fun h11 => ?_
  refine (readField_kept hI codeW .warn2 ⟨by decide, by decide⟩ _ hT).andThen fun a12 => Walk.Sat.of_fact fun h12 => ?_
  refine (trailingFlag_kept hI _ hT).andThen fun _ => Walk.sat_value _ (fun k h => ⟨h, ?_, ?_⟩) _ _
  · simp only [List.length_append]
    have := codeEntry_length_le .chg 0 a1
    have := codeEntry_length_le .vtot 0 a2
    have := codeEntry_length_le .dsg 0 a3
    have := bitEntries_length_le .prot1 a4
    have := bitEntries_length_le .prot2 a5
    have := bitEntries_length_le .instr a6
    have := bitEntries_length_le .ctrl a7
    have := bitEntries_length_le .fault a8
    have := bitEntries_length_le .warn1 a11
    have := bitEntries_length_le .warn2 a12
    omega
  · simp only [codeW] at h4 h5 h6
    simp only
    rw [toNat_ofNat_of_lt (by omega), toNat_ofNat_of_lt (by omega), toNat_ofNat_of_lt (by omega)]

/-- The packs of `DEC_WARN`. -/
theorem warnPacks_kept (hI : Kept s I) (n : Nat) : ∀ p, (warnPacks s n p).Sat (fun k => I k ∧ True)
    (fun rs k => (I k ∧ True) ∧ (rs.length = n ∧ ∀ r ∈ rs, WarnRecInv s.cfg.boolMap r)) (ErrKept I) (¬ Readable .info s) := by
  induction n with
  | zero => exact fun p => Walk.sat_value _ (fun k h => ⟨h, rfl, by simp⟩) _ _
  | succ n ih =>
    intro p
    rw [warnPacks]
    refine (Walk.sat_update (Q := fun k => I k ∧ True) _ (fun k hk => ⟨hI.p k _ hk.1, trivial⟩) _ _).andThen fun _ => ?_
    refine (warnPack_kept hI).andThen fun r => Walk.Sat.of_fact fun hr => ?_
    refine (ih (p + 1)).andThen fun rs => Walk.sat_value _ (fun k h => ⟨h.1, by simp [h.2.1], ?_⟩) _ _
    intro q hq
    rcases List.mem_cons.mp hq with rfl | hq
    exacts [hr, h.2.2 q hq]

/-- The walk of `DEC_WARN`, from any working registers. -/
theorem warnWalk_kept (hI : Kept s I) {P0 : Work → Prop} (h0 : ∀ k, P0 k → I { k with cur := 0 }) :
    (warnWalk s).Sat P0 (fun g k => I k ∧ WarnInv s.cfg.boolMap g) (ErrKept I) (¬ Readable .info s) := by
  rw [warnWalk]
  refine (readPackCount_kept hI h0).andThen fun n => Walk.Sat.of_fact fun hn => ?_
  refine (Walk.Sat.pre (warnPacks_kept hI n 1) (fun k h => ⟨h, trivial⟩)).andThen
      fun rs => Walk.sat_value _ (fun k h => ⟨h.1.1, ?_, h.2.2⟩) _ _
  have : (BitVec.ofNat 8 n).toNat = n := toNat_ofNat_of_lt (by omega)
  rw [h.2.1]; exact this.symm

end

end Sys2Proof.Machine
end

