-- ==== Sys2Proof/Laws/PerInstr.lean ====
section
/-! SUPPORT. Statements about every operation, one lemma per constructor. -/

/-- The code of an operation is one of the nine (30_encoding.md R100) and decodes to it. -/
def Sys2Proof.Laws.DecodeEncode.Statement (i : Sys2Proof.Instr) : Prop :=
  Sys2Proof.opWellFormed (Sys2Proof.encode i) = true ∧ Sys2Proof.decode (Sys2Proof.encode i) = .ok i

theorem Sys2Proof.Laws.DecodeEncode.chksumCalc : Sys2Proof.Laws.DecodeEncode.Statement .chksumCalc := ⟨rfl, rfl⟩

theorem Sys2Proof.Laws.DecodeEncode.lchksumCalc : Sys2Proof.Laws.DecodeEncode.Statement .lchksumCalc := ⟨rfl, rfl⟩

theorem Sys2Proof.Laws.DecodeEncode.encodeReq : Sys2Proof.Laws.DecodeEncode.Statement .encodeReq := ⟨rfl, rfl⟩

theorem Sys2Proof.Laws.DecodeEncode.decodeResp : Sys2Proof.Laws.DecodeEncode.Statement .decodeResp := ⟨rfl, rfl⟩

theorem Sys2Proof.Laws.DecodeEncode.decVersion : Sys2Proof.Laws.DecodeEncode.Statement .decVersion := ⟨rfl, rfl⟩

theorem Sys2Proof.Laws.DecodeEncode.decSerial : Sys2Proof.Laws.DecodeEncode.Statement .decSerial := ⟨rfl, rfl⟩

theorem Sys2Proof.Laws.DecodeEncode.decAnalog : Sys2Proof.Laws.DecodeEncode.Statement .decAnalog := ⟨rfl, rfl⟩

theorem Sys2Proof.Laws.DecodeEncode.decCapacity : Sys2Proof.Laws.DecodeEncode.Statement .decCapacity := ⟨rfl, rfl⟩

theorem Sys2Proof.Laws.DecodeEncode.decWarn : Sys2Proof.Laws.DecodeEncode.Statement .decWarn := ⟨rfl, rfl⟩
end

