-- ==== Sys2Proof/Tests/Slice0.lean ====
section
/-! SUPPORT. Tests: expected results are the vectors V<n> of spec/95_test_vectors.md or words written out from
spec/opcode_table.json; and for every statement with hypotheses a concrete input that meets them (`witness_…`). -/

namespace Sys2Proof.Tests

/-! One theorem after another: each is a kernel evaluation, and many at once ask for too many threads. -/
set_option Elab.async false

open Sys2Proof Sys2Proof.Machine Sys2Proof.Claims

/-! Helpers. -/

/-- The octets of an ASCII string. -/
def octets (s : String) : Text := s.toList.map fun c => BitVec.ofNat 8 c.toNat

/-- The next state of an outcome. -/
def after (o : Host.Outcome State Fault Refusal) : Option State :=
  match o with
  | .next t => some t
  | .fault _ => none
  | .refused _ => none

/-- Reset with a text in `RAW`. -/
def withRaw (s : String) : State := putText .raw (octets s) State.reset

/-- Reset with a text in `INFO`. -/
def withInfo (s : String) : State := putText .info (octets s) State.reset

/-- Reset with the three characters of `LARG`. -/
def withLarg (a b c : Octet) : State := { State.reset with larg := ⟨a, b, c⟩ }

/-- The header registers of 95_test_vectors.md and a text in `INFO`. -/
def request (cid2 : Chars2) (info : String) : State :=
  { withInfo info with ver := ⟨0x32, 0x35⟩, adr := ⟨0x30, 0x31⟩, cid1 := ⟨0x34, 0x36⟩, cid2 := cid2 }

/-- What an operation leaves of a buffer. -/
def textAfter (b : Buffer) (i : Instr) (s : State) : Option Text :=
  (after (exec i s)).bind fun t => (bufText b t).toOption

/-- `STATUS` as the triple KIND, DETAIL, FIELD after an operation. -/
def outcome (i : Instr) (s : State) : Option (Nat × Nat × Nat) :=
  (after (exec i s)).map fun t => (t.status.kind.toNat, t.status.detail.toNat, t.status.field.toNat)

/-! Well-formedness: the nine codes pass, each reserved code is refused (R100, R101). -/

theorem test_wellFormed_codes :
    [0x1#4, 0x2, 0x3, 0x4, 0x5, 0x6, 0x7, 0x8, 0x9].all opWellFormed = true := by decide +kernel

theorem test_wellFormed_refuses_reserved :
    [0x0#4, 0xA, 0xB, 0xC, 0xD, 0xE, 0xF].any opWellFormed = false := by decide +kernel

/-! Decoding: the words of R100 written out in bits. -/

theorem test_decode_checksum_words :
    decodeTableWord 8 0b00000001 = some .chksumCalc ∧ decodeTableWord 8 0b00000010 = some .lchksumCalc := by decide +kernel

theorem test_decode_frame_words :
    decodeTableWord 8 0b00000011 = some .encodeReq ∧ decodeTableWord 8 0b00000100 = some .decodeResp := by decide +kernel

theorem test_decode_identity_words :
    decodeTableWord 8 0b00000101 = some .decVersion ∧ decodeTableWord 8 0b00000110 = some .decSerial := by decide +kernel

theorem test_decode_telemetry_words :
    decodeTableWord 8 0b00000111 = some .decAnalog ∧ decodeTableWord 8 0b00001000 = some .decCapacity ∧
      decodeTableWord 8 0b00001001 = some .decWarn := by decide +kernel

theorem test_decode_refuses_reserved :
    decodeTableWord 8 0b00000000 = none ∧ decodeTableWord 8 0b00001010 = none ∧
      decodeTableWord 8 0b00001111 = none := by decide +kernel

/-- The first step after reset runs the placed operation: the outcomes of R305 that are errors, and `IllegalOp` for code 0xC. -/
theorem test_withFetchWord_runs :
    ([0x1, 0x4, 0x6, 0x8, 0xC].map fun w =>
      (after (step (State.reset.withFetchWord 8 w))).map fun t => (t.status.kind.toNat, t.status.detail.toNat)) =
      [some (5, 1), some (1, 1), some (4, 1), some (4, 1), some (6, 12)] := by decide +kernel

/-! The checksums. -/

/-- V10. -/
theorem test_chksumCalc_v10 :
    (after (exec .chksumCalc (withRaw "2530314336"))).map (·.ck) =
      some (some ⟨0xFE34, ⟨0x46, 0x45, 0x33, 0x34⟩⟩) := by decide +kernel

/-- V18. -/
theorem test_chksumCalc_v18 : outcome .chksumCalc (withRaw "") = some (5, 1, 0) := by decide +kernel

/-- V3, V21: residue 0 gives `0`, residue 15 gives `1`, and `"002"` gives `E`. -/
theorem test_lchksumCalc_v21 :
    ([withLarg 0x30 0x32 0x45, withLarg 0x30 0x30 0x46, withLarg 0x30 0x30 0x32].map fun s =>
      (after (exec .lchksumCalc s)).map (·.lck)) =
      [some (some ⟨0, 0x30⟩), some (some ⟨1, 0x31⟩), some (some ⟨14, 0x45⟩)] := by decide +kernel

/-- V23: a lowercase digit counts only when `HEX_LOWER` is true. -/
theorem test_lchksumCalc_v23 :
    outcome .lchksumCalc (withHexLower false (withLarg 0x30 0x30 0x66)) = some (5, 2, 0) ∧
      outcome .lchksumCalc (withHexLower true (withLarg 0x30 0x30 0x66)) = some (0, 0, 0) := by decide +kernel

/-! The frame operations. -/

/-- V30. -/
theorem test_encodeReq_v30 :
    textAfter .raw .encodeReq (request ⟨0x34, 0x32⟩ "FF") = some (octets "~25014642E002FFFD05\r") := by decide +kernel

/-- V37: the override is written verbatim. -/
theorem test_encodeReq_v37 :
    textAfter .raw .encodeReq
        { request ⟨0x30, 0x30⟩ "FF" with lenidOvrEn := true, lenidOvr := ⟨0x30, 0x30, 0x34⟩ } =
      some (octets "~25014600C004FFFD0B\r") := by decide +kernel

/-- V51. -/
theorem test_decodeResp_v51 :
    textAfter .info .decodeResp (withRaw "~25014600400C000A00140019FB37\r") = some (octets "000A00140019") := by decide +kernel

/-- V5, V58, V61 (with `X` for its first octet), V63, V65, V67: the errors, each with its codes. -/
theorem test_decodeResp_errors :
    (["~25014642E002FFFD06\r", "~250146020000FDAC\r", "X250146000000FDAE\r", "~250146000000FDAE", "~25014600000GFDAE\r",
        "~250146001000FDAE\r"].map fun t => outcome .decodeResp (withRaw t)) =
      [some (2, 2, 0), some (3, 2, 0), some (1, 1, 0), some (1, 2, 0), some (1, 3, 0), some (2, 1, 0)] := by decide +kernel

/-! The identity decoders. -/

/-- V80a. -/
theorem test_decVersion_v80a :
    (after (exec .decVersion (withInfo "50313653313030412D312E3032"))).map (·.idVer) =
      some (some ⟨octets "P16S100A-1.02", 13⟩) := by decide +kernel

/-- V80c, V80d. -/
theorem test_decVersion_errors :
    outcome .decVersion (withInfo "503") = some (4, 5, 19) ∧ outcome .decVersion (withInfo "5G") = some (4, 2, 19) := by
  decide +kernel

/-- V81a. -/
theorem test_decSerial_v81a :
    (after (exec .decSerial (withInfo "534E203031323334353637383941422020202020504B2D3030303030303034322020"))).map
        (·.idSn) =
      some (some ⟨octets "SN0123456789AB", 14, octets "PK-000000042", 12⟩) := by decide +kernel

/-- V81b, V81c. -/
theorem test_decSerial_overruns :
    outcome .decSerial (withInfo "534E2030313233343536373839414") = some (4, 1, 20) ∧
      outcome .decSerial (withInfo "534E203031323334353637383941422020202020504B2D303030303030303432202") =
        some (4, 1, 21) := by decide +kernel

/-! Analog and capacity. -/

/-- V43: both heuristics; the second record's signed values. -/
theorem test_decAnalog_v43 :
    ((after (exec .decAnalog (withInfo ("02020E740E88010BA400641D4C000A0000140001001900AABB" ++
        "020CE50CE3010A46FF9C19C80001000020FFFF002000")))).map (·.analog)) =
      some (some ⟨2, [⟨2, [3700, 3720], 20, 1, [250], 100, 7500, 100, 200, 1, 250, 5000, 8000⟩,
        ⟨2, [3301, 3299], 2, 1, [-100], -100, 6600, 10, 320, 65535, 320, 312, 10000⟩]⟩) := by decide +kernel

/-- V47e, V47i, V47p's `LEAD_SKIP = 2`. -/
theorem test_decAnalog_errors :
    outcome .decAnalog (withInfo "01020E740E88010BA400641D4C000A00001400010019000") = some (4, 1, 18) ∧
      outcome .decAnalog (withInfo "01020E740E88010BA400641D4C000A0000000001001900") = some (4, 3, 13) ∧
      (let s := withInfo "01020E740E88010BA400641D4C000A0000140001001900"
       outcome .decAnalog { s with cfg := { s.cfg with leadSkip := .two } }) = some (4, 1, 5) := by decide +kernel

/-- V49l. -/
theorem test_decCapacity_v49l :
    ([RoundTie.halfEven, .halfUp].map fun tie =>
      let s := withInfo "000100200020"
      (after (exec .decCapacity { s with cfg := { s.cfg with roundTie := tie } })).map (·.cap)) =
      [some (some ⟨10, 320, 320, 312, 10000⟩), some (some ⟨10, 320, 320, 313, 10000⟩)] := by decide +kernel

/-- V49b, V49d, V49g, V49h. -/
theorem test_decCapacity_errors :
    (["000A0014001", "00000000", "000000000000", "000A001400xx"].map fun t => outcome .decCapacity (withInfo t)) =
      [some (4, 1, 15), some (4, 1, 15), some (4, 3, 13), some (4, 2, 15)] := by decide +kernel

/-! Warnings. -/

/-- V70. -/
theorem test_decWarn_v70 :
    (after (exec .decWarn (withInfo "010200020101000200100086000005000080"))).map (·.warn) =
      some (some ⟨1, [⟨[⟨.cell, 2, 2⟩, ⟨.temp, 1, 1⟩, ⟨.vtot, 0, 2⟩, ⟨.prot1, 5, 0⟩, ⟨.instr, 2, 0⟩, ⟨.instr, 3, 0⟩,
          ⟨.instr, 8, 0⟩, ⟨.warn2, 8, 0⟩],
        0, 2, 0, 0x10, 0, 0x86, 0, 0, 5, 0, 0, 0x80,
        ⟨false, false, true, false, false, true, true, false, false, false, true⟩⟩]⟩) := by decide +kernel

/-- V74c, V74d, V74g. -/
theorem test_decWarn_errors :
    (["0102000201010002001000860000050000", "0102000201010002001000860000050000800",
        "010200020101000200101G86000005000080"].map fun t => outcome .decWarn (withInfo t)) =
      [some (4, 1, 37), some (4, 1, 18), some (4, 2, 30)] := by decide +kernel


/-! Witnesses: for each statement with hypotheses, states and operands that meet them. -/

/-- The next state of an operation that has one. -/
def nextOf (i : Instr) (s : State) : State := (after (exec i s)).getD s

theorem exec_nextOf (i : Instr) (s : State) (h : (after (exec i s)).isSome = true) : exec i s = .next (nextOf i s) := by
  unfold nextOf
  cases hx : exec i s <;> simp_all [after]

/-- The shortest frame (V50), with the operation `DECODE_RESP` selected. -/
def frameState : State := { withRaw "~250146000000FDAE\r" with op := 4 }

theorem frameState_inv : frameState.Inv where
  raw := by decide +kernel
  info := by decide +kernel
  status := by decide +kernel
  ck := by simp [frameState, withRaw, putText, State.reset, State.resetWith]
  lck := by simp [frameState, withRaw, putText, State.reset, State.resetWith]
  idVer := by simp [frameState, withRaw, putText, State.reset, State.resetWith]
  idSn := by simp [frameState, withRaw, putText, State.reset, State.resetWith]
  analog := by simp [frameState, withRaw, putText, State.reset, State.resetWith]
  cap := by simp [frameState, withRaw, putText, State.reset, State.resetWith]
  warn := by simp [frameState, withRaw, putText, State.reset, State.resetWith]

theorem witness_EveryStepKeepsInvariant : frameState.Inv ∧ (after (step frameState)).isSome = true :=
  ⟨frameState_inv, by decide +kernel⟩

theorem witness_EveryOperationEndsInOkOrOneError : frameState.Inv := frameState_inv

theorem witness_DecodeAndEncodeAgree : decode 0x9#4 = .ok .decWarn ∧ opWellFormed 0xA#4 = false := ⟨rfl, rfl⟩

theorem witness_StartRunsDecodedOperation :
    frameState.status.busy = false ∧ decode frameState.op = .ok .decodeResp := ⟨rfl, rfl⟩

theorem witness_ReservedCodeEndsIllegalOp :
    State.reset.status.busy = false ∧ State.reset.op = 0 ∧ 10 ≤ (10#4).toNat ∧ 10 ≤ (15#4).toNat := by decide

/-- A block in the middle of an operation. -/
def busyState : State := { State.reset with status := ⟨true, false, 0, 0, 0⟩ }

theorem witness_HostHasNoMoveWhileBusy : busyState.status.busy = true := rfl

/-- The characters beside the ranges of R120 have no digit value; the ends of the ranges have. -/
theorem witness_HexValAcceptsExactlyTheDigits :
    ([0x2F#8, 0x30, 0x39, 0x3A, 0x40, 0x41, 0x46, 0x47, 0x60, 0x61, 0x66, 0x67].map (hexVal true)) =
      [none, some 0, some 9, none, none, some 10, some 15, none, none, some 10, some 15, none] ∧
    hexVal false 0x61#8 = none ∧ hexVal false 0x66#8 = none := by decide

theorem witness_IntToHexRendersAndReadsBack : 65535 < 16 ^ 4 ∧ 0 < 16 ^ 0 ∧ 3 < 4 := by decide

theorem witness_HexToIntIsTheBigEndianSum :
    hexToInt false (octets "1D4C") = some 7500 ∧ hexToInt false [] = some 0 ∧ hexToInt false (octets "0G") = none := by
  decide +kernel

theorem witness_HexPairsTakesHighNibbleFirst :
    (octets "5031").length % 2 = 0 ∧ hexPairs false (octets "5031") = some [0x50, 0x31] ∧
      hexPairs false (octets "5G") = none := by decide +kernel

/-- A tie, V4A (1, 32), and no tie, V4A (2, 3). -/
theorem witness_PctRoundsToNearest :
    0 < 32 ∧ 20000 * 1 % (2 * 32) = 32 ∧ pct .halfEven 1 32 = 312 ∧ pct .halfUp 1 32 = 313 ∧
      20000 * 2 % (2 * 3) ≠ 3 ∧ pct .halfUp 2 3 = 6667 := by decide

/-- The ends of the two ranges of R132 and of R131. -/
theorem witness_ScaledRegistersHoldExactValues :
    [0, 32767, 32768, 65535].all (fun raw => decide (raw < 65536)) = true ∧
      [0, 65535].map (fun r => (tempOf r).toInt) = [-2730, 62805] ∧
      [32767, 32768, 65535].map (fun r => (currentOf r).toInt) = [32767, -32768, -1] := by decide

theorem witness_ChksumIsTheNegatedSum :
    1 < (octets "FF").length ∧ (octets "FF")[1]? ≠ some 0x30 ∧ (octets "01").Perm (octets "10") := by decide +kernel

theorem witness_LchksumIsTheNegatedDigitSum :
    lchksumCalc false (octets "00F") = some (1, 0x31) ∧
      ((octets "00F").map fun c => (hexVal false c).getD 0).sum % 16 = 15 ∧
      lchksumCalc false (octets "02E") = some (0, 0x30) ∧ lchksumCalc false (octets "00G") = none := by decide +kernel

/-- The two ends of the range: `n = 0` and `n = 865`. -/
theorem witness_ChecksumReadingsAgreeOnShortHexFrames :
    (∀ c ∈ octets "250146000000", 0x30 ≤ c.toNat ∧ c.toNat ≤ 0x46) ∧ (octets "250146000000").length = 12 ∧
      (∀ c ∈ List.replicate 877 (0x46#8), 0x30 ≤ c.toNat ∧ c.toNat ≤ 0x46) ∧
      (List.replicate 877 (0x46#8)).length = 12 + 865 := by
  refine ⟨by decide +kernel, by decide +kernel, fun c hc => ?_, List.length_replicate⟩
  rw [List.eq_of_mem_replicate hc]
  decide

/-- V18, V14. -/
theorem witness_ChksumCalcWritesValueAndText :
    (withRaw "").rawLen = 0 ∧ bufText .raw (withRaw "~") = .ok (0x7E :: []) := ⟨by decide +kernel, by decide +kernel⟩

theorem witness_LchksumCalcWritesValueAndCharacter :
    (let l := (withLarg 0x30 0x30 0x46).larg
     hexVal false l.c0 = some 0 ∧ hexVal false l.c1 = some 0 ∧ hexVal false l.c2 = some 15) ∧
    hexVal false (withLarg 0x30 0x30 0x47).larg.c2 = none := by decide

/-- V30's state, without an override; V37's and V40's overrides. -/
theorem witness_EncodeReqBuildsTheFrame :
    bufText .info (request ⟨0x34, 0x32⟩ "FF") = .ok (octets "FF") ∧ (request ⟨0x34, 0x32⟩ "FF").lenidOvrEn = false ∧
      digits3 2 = octets "002" ∧ (∀ c ∈ octets "002", hexVal false c ≠ none) ∧
      (∀ c ∈ octets "004", hexVal false c ≠ none) ∧ (∃ c ∈ octets "00G", hexVal false c = none) :=
  ⟨by decide +kernel, by decide +kernel, by decide +kernel, by decide +kernel, by decide +kernel, by decide +kernel⟩

/-- BadSOI: V62, V61 (with `X`). Truncated: V63 with 1 and with 12 octets. -/
theorem witness_DecodeResp_head :
    (octets "").head? ≠ some 0x7E ∧ (octets "X250146000000FDAE\r").head? ≠ some 0x7E ∧
      (octets "~").head? = some 0x7E ∧ (octets "~").length < 13 ∧ (octets "~25014600000").length = 12 := by decide +kernel

/-- Thirteen octets and a listed pair (V58 cut); an unlisted pair (V56) with LENID that is no number (V65). -/
theorem witness_DecodeResp_rtn :
    (octets "~250146020000").length = 13 ∧ ([0x30, 0x32], 2#8) ∈ rtnErrors ∧
      (∀ code : BitVec 8, ([0x30, 0x37], code) ∉ rtnErrors) ∧
      (∃ c ∈ ((octets "~25014600000GFDAE\r").drop 10).take 3, hexVal false c = none) := by decide +kernel

/-- V67: the received LCHKSUM differs; V50: it agrees. -/
theorem witness_DecodeResp_lchksum :
    (octets "~250146001000FDAE\r").getD 9 0 ≠ hexChar (negated4 (0 + 0 + 0)) ∧
      (octets "~250146000000FDAE\r").getD 9 0 = hexChar (negated4 (0 + 0 + 0)) ∧
      (octets "~250146000000FDAE").length < 18 + 0 ∧ 18 + 0 ≤ (octets "~250146000000FDAE\r").length := by decide +kernel

/-- V50: the text agrees; the same frame with its last CHKSUM character changed: it does not. -/
theorem witness_DecodeResp_chksum :
    let good := octets "~250146000000FDAE\r"
    let bad := octets "~250146000000FDAF\r"
    (good.drop 13).take 4 = digits4 (negated16 (total ((good.take (good.length - 5)).drop 1))) ∧
      (bad.drop 13).take 4 ≠ digits4 (negated16 (total ((bad.take (bad.length - 5)).drop 1))) ∧
      bufText .raw frameState = .ok good := ⟨by decide +kernel, by decide +kernel, by decide +kernel⟩

theorem witness_EncodeThenDecodeReturnsInfo :
    let s := request ⟨0x34, 0x32⟩ "FF"
    s.status.busy = false ∧ bufText .info s = .ok (octets "FF") ∧ s.lenidOvrEn = false ∧
      ∀ code : BitVec 8, (s.cid2.toList, code) ∉ rtnErrors := ⟨rfl, by decide +kernel, rfl, by decide +kernel⟩

/-- V30's frame, answered with RTN 42, and any octet of it changed. -/
theorem witness_OneChangedOctetIsRejected :
    let buf := octets "~25014642E002FFFD05\r"
    let s := withRaw "~25014642E002FFFD05\r"
    bufText .raw s = .ok buf ∧ exec .decodeResp s = .next (nextOf .decodeResp s) ∧
      (nextOf .decodeResp s).status.kind = 0 ∧ buf.length = 18 + (nextOf .decodeResp s).infoLen.toNat ∧
      ∀ i o, bufText .raw (putText .raw (buf.set i o) s) = .ok (buf.set i o) :=
  ⟨by decide +kernel, exec_nextOf _ _ (by decide +kernel), by decide +kernel, by decide +kernel, fun i o =>
    bufText_putText (by rw [List.length_set]; decide +kernel) _⟩

/-- Each clause, at the ends of its range: positions 0; 1, 6, 13, 18; 7 (a listed pair) and 8 (an unlisted one); 9; 10 and 12, no
digit and another digit. -/
theorem witness_OneChangedOctetIsRejected_clauses :
    let buf := octets "~25014642E002FFFD05\r"
    ([0, 1, 6, 13, 18, 7, 8, 9, 10, 12].all fun i => decide (buf[i]? ≠ some 0x58)) = true ∧ 18 < 17 + 2 ∧ buf[7]? ≠ some 0x30 ∧
      (((buf.set 7 0x30).drop 7).take 2, 2#8) ∈ rtnErrors ∧
      (∀ code : BitVec 8, (((buf.set 8 0x58).drop 7).take 2, code) ∉ rtnErrors) ∧ hexVal false 0x58 = none ∧
      hexVal false 0x33 = some 3 ∧ hexVal false (buf.getD 10 0) = some 0 ∧ hexVal false (buf.getD 12 0) = some 2 := by
  decide +kernel

/-- A frame with LENID 00A under `HEX_LOWER` true: octet 12 may be the same digit in the other case. -/
theorem witness_OneChangedOctetIsRejected_case :
    let buf := octets "~25014642600A0123456789FB84\r"
    let s := withHexLower true (withRaw "~25014642600A0123456789FB84\r")
    bufText .raw s = .ok buf ∧ exec .decodeResp s = .next (nextOf .decodeResp s) ∧
      (nextOf .decodeResp s).status.kind = 0 ∧ buf.length = 18 + (nextOf .decodeResp s).infoLen.toNat ∧ buf[12]? ≠ some 0x61 ∧
      hexVal true 0x61 ≠ none ∧ hexVal true 0x61 = hexVal true (buf.getD 12 0) :=
  ⟨by decide +kernel, exec_nextOf _ _ (by decide +kernel), by decide +kernel, by decide +kernel, by decide +kernel, by decide,
    by decide +kernel⟩

/-- V50's frame, its last octet `X`. -/
theorem witness_LastOctetIsNotInspected :
    let buf := octets "~250146000000FDAE\r"
    bufText .raw frameState = .ok buf ∧ exec .decodeResp frameState = .next (nextOf .decodeResp frameState) ∧
      (nextOf .decodeResp frameState).status.kind = 0 ∧
      bufText .raw (withRaw "~250146000000FDAEX") = .ok (buf.set (buf.length - 1) 0x58) :=
  ⟨by decide +kernel, exec_nextOf _ _ (by decide +kernel), by decide +kernel, by decide +kernel⟩

/-- V61 (with `X`). -/
theorem witness_RejectedPayloadCannotBeDecoded :
    let s := withRaw "X250146000000FDAE\r"
    exec .decodeResp s = .next (nextOf .decodeResp s) ∧ (nextOf .decodeResp s).status.kind ≠ 0 :=
  ⟨exec_nextOf _ _ (by decide +kernel), by decide +kernel⟩

/-- V80c, V80d, V80e. -/
theorem witness_DecVersionDecodesWholePayload :
    bufText .info (withInfo "503") = .ok (octets "503") ∧ (octets "503").length % 2 = 1 ∧
      bufText .info (withInfo "5G") = .ok (octets "5G") ∧ hexPairs false (octets "5G") = none ∧
      bufText .info (withInfo "2041") = .ok (octets "2041") ∧ hexPairs false (octets "2041") = some [0x20, 0x41] :=
  ⟨by decide +kernel, by decide +kernel, by decide +kernel, by decide +kernel, by decide +kernel, by decide +kernel⟩

/-- The 68 characters of V81a. -/
def serials : Text := octets "534E203031323334353637383941422020202020504B2D3030303030303034322020"

/-- V81b, V81d, V81c, V81f, V81a. -/
theorem witness_DecSerialDecodesTwoRanges :
    bufText .info (withInfo "534E203031323334353637383941422020202020504B2D3030303030303034322020") = .ok serials ∧
      (serials.take 29).length = 29 ∧ hexPairs false ((octets "ZZ" ++ serials.drop 2).take 30) = none ∧
      (serials.take 67).length = 67 ∧ hexPairs false (serials.take 30) ≠ none ∧ serials.length = 68 ∧
      hexPairs false (octets "ZZ" ++ (serials.drop 42).take 26) = none ∧
      hexPairs false (serials.take 30) = some (octets "SN 0123456789AB") ∧
      hexPairs false ((serials.drop 40).take 28) = some (octets "PK-000000042  ") :=
  ⟨by decide +kernel, by decide +kernel, by decide +kernel, by decide +kernel, by decide +kernel, by decide +kernel,
    by decide +kernel, by decide +kernel, by decide +kernel⟩

/-- The pack of V1 and the second pack of V41. -/
def packA : PackData := ⟨[3700, 3720], [2980], 100, 7500, 10, octets "00", 20, 1, 25, octets "00"⟩
def packB : PackData := ⟨[3301, 3299], [2630], 0xFF9C, 6600, 1, octets "00", 32, 65535, 32, octets "00"⟩

/-- The pack of V47k: no cells, no temperatures. -/
def packC : PackData := ⟨[], [], 0, 0, 0, octets "00", 1, 0, 1, octets "00"⟩

theorem packA_fits : packA.Fits := by constructor <;> decide +kernel
theorem packB_fits : packB.Fits := by constructor <;> decide +kernel
theorem packC_fits : packC.Fits := by constructor <;> decide +kernel

theorem absorbed_packA (ex : List Nat) (hl : ex.length ≤ 2) (hx : ∀ v ∈ ex, v < 256 ∧ v ≠ 2) : Absorbed 2 [(packA, ex)] := by
  intro p hp
  obtain rfl := List.mem_singleton.mp hp
  exact ⟨packA_fits, rfl, hl, hx⟩

/-- V43: two stray fields between the packs. -/
theorem witness_DecAnalogDecodesMultiPackPayload :
    bufText .info (withInfo ("02020E740E88010BA400641D4C000A0000140001001900AABB" ++
        "020CE50CE3010A46FF9C19C80001000020FFFF002000")) =
      .ok ([] ++ digits2 2 ++ packsText [(packA, [0xAA, 0xBB]), (packB, [])] ++ []) ∧
    ([] : Text).length = leadChars State.reset.cfg.leadSkip ∧
    packA.Fits ∧ packB.Fits ∧ packA.volts.length = 2 ∧ packB.volts.length = 2 ∧ 0xAA < 256 ∧ 0xAA ≠ 2 ∧ Leftover [] :=
  ⟨by decide +kernel, rfl, packA_fits, packB_fits, rfl, rfl, by decide, by decide, .inl rfl⟩

/-- V47b with anything after it, V47k, and V47h's leftovers. -/
theorem witness_DecAnalogDecodesMultiPackPayload_ends :
    bufText .info (withInfo "00ZZ") = .ok ([] ++ digits2 0 ++ packsText [] ++ octets "ZZ") ∧
      bufText .info (withInfo "0100000000000000000000010000000100") =
        .ok ([] ++ digits2 1 ++ packsText [(packC, [])] ++ []) ∧ packC.Fits ∧ Leftover (octets "77ZZ") :=
  ⟨by decide +kernel, by decide +kernel, packC_fits, .inr ⟨0x77, by decide, octets "ZZ", by decide +kernel⟩⟩

/-- V45. -/
theorem witness_ThreeStrayFieldsFailWithCellMismatch :
    bufText .info (withInfo ("02020E740E88010BA400641D4C000A0000140001001900AABBCC" ++
        "020CE50CE3010A46FF9C19C80001000020FFFF002000")) =
      .ok ([] ++ digits2 2 ++ packA.text ++ digits2 0xAA ++ digits2 0xBB ++ digits2 0xCC ++ packB.text) ∧
    packA.Fits ∧ 0xCC < 256 ∧ 0xCC ≠ packA.volts.length := ⟨by decide +kernel, packA_fits, by decide, by decide⟩

/-- V47i up to its full capacity, V47j up to its design capacity. -/
theorem witness_ZeroCapacityIsReportedAtOnce :
    bufText .info (withInfo "01020E740E88010BA400641D4C000A000000") =
        .ok ([] ++ digits2 1 ++ ({ packA with full := 0 } : PackData).textToFull ++ []) ∧
      bufText .info (withInfo "01020E740E88010BA400641D4C000A0000140001000000") =
        .ok ([] ++ digits2 1 ++ packA.textToFull ++ digits4 packA.cycles ++ digits4 0 ++ octets "00") ∧
      packA.Fits := ⟨by decide +kernel, by decide +kernel, packA_fits⟩

/-- V47d and the empty payload, with the fields the vectors V47a and V47d name: F_PACKS and F_TRAIL. -/
theorem witness_ShortAnalogPayloadIsOverrun :
    octets "01020E740E88010BA400641D4C000A000014000100190" ++ octets "0" = [] ++ digits2 1 ++ packA.text ∧
      [] ++ ([] ++ digits2 1 ++ packA.text) = [] ++ digits2 1 ++ packA.text ∧
      bufText .info (withInfo "01020E740E88010BA400641D4C000A000014000100190") =
        .ok (octets "01020E740E88010BA400641D4C000A000014000100190") ∧ packA.Fits ∧
      fieldAt (⟨1, false, []⟩ :: ⟨2, true, digits2 1⟩ :: packA.fields) 0 = 2 ∧
      fieldAt (⟨1, false, []⟩ :: ⟨2, true, digits2 1⟩ :: packA.fields) 45 = 17 :=
  ⟨by decide +kernel, rfl, by decide +kernel, packA_fits, by decide +kernel, by decide +kernel⟩

/-- V47n: the first voltage of the first pack is no digits under `HEX_LOWER` false. And the count field after one pack and its
stray field, cut short and no digits. -/
theorem witness_BrokenAnalogFieldIsNamed :
    bufText .info (withInfo "01020e740E88010BA400641D4C000A0000140001001900") =
        .ok ([] ++ digits2 1 ++ packsText [] ++ (packA.fields.take 1).flatMap Field.chars ++ octets "0e74" ++
          octets "0E88010BA400641D4C000A0000140001001900") ∧
      packA.fields = packA.fields.take 1 ++ ⟨5, true, digits4 3700⟩ :: packA.fields.drop 2 ∧ packA.fields.take 1 ≠ [] ∧
      (octets "0e74").length = (digits4 3700).length ∧ hexToInt false (octets "0e74") = none ∧
      bufText .info (withInfo "02020E740E88010BA400641D4C000A0000140001001900AA0") =
        .ok ([] ++ digits2 2 ++ packsText [(packA, [0xAA])] ++ [] ++ octets "0" ++ []) ∧
      packA.fields = [] ++ ⟨4, true, digits2 2⟩ :: packA.fields.drop 1 ∧ Absorbed 2 [(packA, [0xAA])] ∧
      (octets "0").length < (digits2 2).length ∧ (octets "0G").length = (digits2 2).length ∧
      hexToInt false (octets "0G") = none :=
  ⟨by decide +kernel, rfl, by simp [PackData.fields], by decide +kernel, by decide +kernel, by decide +kernel, rfl,
    absorbed_packA [0xAA] (by decide) (by decide), by decide +kernel, by decide +kernel, by decide +kernel⟩

/-- V47e, V47g; and V1 under a count of two. -/
theorem witness_AnalogLeftoverErrors :
    bufText .info (withInfo "01020E740E88010BA400641D4C000A00001400010019000") =
        .ok ([] ++ digits2 1 ++ packsText ([] ++ [(packA, [])]) ++ octets "0") ∧
      bufText .info (withInfo "01020E740E88010BA400641D4C000A0000140001001900ZZ") =
        .ok ([] ++ digits2 1 ++ packsText ([] ++ [(packA, [])]) ++ octets "ZZ") ∧
      hexToInt false ((octets "ZZ").take 2) = none ∧
      bufText .info (withInfo "02020E740E88010BA400641D4C000A0000140001001900") =
        .ok ([] ++ digits2 2 ++ packsText ([] ++ [(packA, [])]) ++ []) ∧ 0 + 1 < 2 ∧ Absorbed 2 ([] ++ [(packA, [])]) :=
  ⟨by decide +kernel, by decide +kernel, by decide +kernel, by decide +kernel, by decide,
    absorbed_packA [] (by decide) (by decide)⟩

/-- Each clause, with `LEAD_SKIP = 2` and its boundary lengths 1, 2, 3, 4. -/
theorem witness_PackCountErrors :
    leadChars .two = 2 ∧ (octets "0").length < 2 ∧ (octets "00").length = 2 ∧ (octets "000").length < 2 + 2 ∧
      (octets "000G").length = 2 + 2 ∧ hexToInt false (((octets "000G").drop 2).take 2) = none ∧
      bufText .info (withInfo "000G") = .ok (octets "000G") :=
  ⟨rfl, by decide +kernel, by decide +kernel, by decide +kernel, by decide +kernel, by decide +kernel, by decide +kernel⟩

/-- V49b, V49h; V49e, V49f, V49a. -/
theorem witness_DecCapacityReadsThreeFields :
    let field := fun (t : Text) (j : Nat) => hexToInt false ((t.drop (4 * j)).take 4)
    (octets "000A0014001").length = 4 * 2 + 3 ∧ field (octets "000A0014001") 0 ≠ none ∧
      field (octets "000A0014001") 1 ≠ none ∧ (octets "000A001400xx").length = 4 * 2 + 4 ∧
      field (octets "000A001400xx") 2 = none ∧ field (octets "000A00000019") 1 = some 0 ∧
      field (octets "000A00140000") 2 = some 0 ∧
      (List.range 3).map (field (octets "000A00140019")) = [some 10, some 20, some 25] ∧
      bufText .info (withInfo "000A00140019") = .ok (octets "000A00140019") :=
  ⟨by decide +kernel, by decide +kernel, by decide +kernel, by decide +kernel, by decide +kernel, by decide +kernel,
    by decide +kernel, by decide +kernel, by decide +kernel⟩

/-- The two packs of V72. -/
def warnA : WarnData := ⟨[0, 2], [1], 0, 2, 0, 0x10, 0, 0x86, 0, 0, 5, 0, 0, 0x80⟩
def warnB : WarnData := ⟨[0, 0], [0], 0, 0, 0, 0xFF, 0xFF, 0xFF, 0, 0, 0xAA, 0x55, 0, 0⟩

theorem warnA_fits : warnA.Fits := by refine ⟨?_, ?_, ?_, ?_, ?_⟩ <;> decide +kernel
theorem warnB_fits : warnB.Fits := by refine ⟨?_, ?_, ?_, ?_, ?_⟩ <;> decide +kernel

/-- V72, with the flag between the packs and without it. -/
theorem witness_DecWarnDecodesMultiPackPayload :
    bufText .info (withInfo ("020200020101000200100086000005000080" ++ "00" ++ "0200000100000000FFFFFF0000AA550000")) =
        .ok ([] ++ digits2 2 ++ warnsText [(warnA, some 0), (warnB, none)] ++ []) ∧
      bufText .info (withInfo ("020200020101000200100086000005000080" ++ "0200000100000000FFFFFF0000AA550000")) =
        .ok ([] ++ digits2 2 ++ warnsText [(warnA, none), (warnB, none)] ++ []) ∧
      warnA.Fits ∧ warnB.Fits ∧ Separated [(warnA, some 0), (warnB, none)] ∧
      Separated [(warnA, none), (warnB, none)] ∧ Leftover [] :=
  ⟨by decide +kernel, by decide +kernel, warnA_fits, warnB_fits, by simp [Separated, warnA],
    by simp [Separated, warnA, warnB], .inl rfl⟩

/-- V74c, with the field it names: F_WARN2. -/
theorem witness_ShortWarnPayloadIsOverrun :
    octets "0102000201010002001000860000050000" ++ octets "80" = [] ++ digits2 1 ++ warnA.text ∧
      bufText .info (withInfo "0102000201010002001000860000050000") =
        .ok (octets "0102000201010002001000860000050000") ∧ warnA.Fits ∧
      fieldAt (⟨1, false, []⟩ :: ⟨2, true, digits2 1⟩ :: warnA.fields) 34 = 37 :=
  ⟨by decide +kernel, by decide +kernel, warnA_fits, by decide +kernel⟩

/-- V74g: PROT2 is no digits. And the count field after one pack and its flag, cut short. -/
theorem witness_BrokenWarnFieldIsNamed :
    bufText .info (withInfo "010200020101000200101G86000005000080") =
        .ok ([] ++ digits2 1 ++ warnsText [] ++ (warnA.fields.take 9).flatMap Field.chars ++ octets "1G" ++
          octets "86000005000080") ∧
      warnA.fields = warnA.fields.take 9 ++ ⟨30, true, digits2 0⟩ :: warnA.fields.drop 10 ∧ warnA.fields.take 9 ≠ [] ∧
      (octets "1G").length = (digits2 0).length ∧ hexToInt false (octets "1G") = none ∧
      Separated ([] ++ [(warnA, none)]) ∧
      bufText .info (withInfo "02020002010100020010008600000500008000") =
        .ok ([] ++ digits2 2 ++ warnsText [(warnA, some 0)] ++ [] ++ [] ++ []) ∧
      warnA.fields = [] ++ ⟨22, true, digits2 2⟩ :: warnA.fields.drop 1 ∧ Separated ([(warnA, some 0)] ++ [(warnA, none)]) ∧
      ([] : Text).length < (digits2 2).length :=
  ⟨by decide +kernel, rfl, by simp [WarnData.fields], by decide +kernel, by decide +kernel, by simp [Separated],
    by decide +kernel, rfl, by simp [Separated, warnA], by decide +kernel⟩

/-- V74d; a pair that is no digits; and V70 under a count of two. -/
theorem witness_WarnLeftoverErrors :
    bufText .info (withInfo "0102000201010002001000860000050000800") =
        .ok ([] ++ digits2 1 ++ warnsText ([] ++ [(warnA, none)]) ++ octets "0") ∧
      bufText .info (withInfo "010200020101000200100086000005000080ZZ") =
        .ok ([] ++ digits2 1 ++ warnsText ([] ++ [(warnA, none)]) ++ octets "ZZ") ∧
      hexToInt false ((octets "ZZ").take 2) = none ∧
      bufText .info (withInfo "020200020101000200100086000005000080") =
        .ok ([] ++ digits2 2 ++ warnsText ([] ++ [(warnA, none)]) ++ []) ∧ 0 + 1 < 2 ∧ Separated ([] ++ [(warnA, none)]) :=
  ⟨by decide +kernel, by decide +kernel, by decide +kernel, by decide +kernel, by decide, by simp [Separated]⟩

/-- A state each operation ends on with `Ok`, and one it ends on with an error. -/
def okState (i : Instr) : State :=
  match i with
  | .chksumCalc => withRaw "~"
  | .lchksumCalc => withLarg 0x30 0x30 0x32
  | .encodeReq => request ⟨0x34, 0x32⟩ "FF"
  | .decodeResp => frameState
  | .decVersion => withInfo "2041"
  | .decSerial => withInfo "534E203031323334353637383941422020202020504B2D3030303030303034322020"
  | .decAnalog => withInfo "00"
  | .decCapacity => withInfo "000A00140019"
  | .decWarn => withInfo "00"

def errState (i : Instr) : State :=
  match i with
  | .encodeReq => { State.reset with lenidOvrEn := true }
  | .decVersion => withInfo "503"
  | .chksumCalc | .lchksumCalc | .decodeResp | .decSerial | .decAnalog | .decCapacity | .decWarn => State.reset

def allOps : List Instr :=
  [.chksumCalc, .lchksumCalc, .encodeReq, .decodeResp, .decVersion, .decSerial, .decAnalog, .decCapacity, .decWarn]

/-- For `GroupsAreWrittenWholeOrInvalid`, `OperandsAreNeverWritten`, `BuffersAreWrittenOnlyByFrameOperations`,
`ErrorMakesOnlyTheListedWrites`, `WorkingRegistersChangedByEachOperation`, `CursorNeverExceedsInfoLen` and
`NothingCrossesOperations`: every operation has a next state, with `Ok` and with an error. -/
theorem witness_every_operation_ends_both_ways :
    (allOps.map fun i => (outcome i (okState i)).map (·.1)) = List.replicate 9 (some 0) ∧
    (allOps.map fun i => (outcome i (errState i)).map (·.1)) =
      [some 5, some 5, some 5, some 1, some 4, some 4, some 4, some 4, some 4] := by
  decide +kernel

/-- A length without octets: the operation stops (assumption log 4). -/
theorem witness_NothingCrossesOperations_fault :
    exec .decVersion { State.reset with infoLen := 2 } = .fault (.noOctet .info 0) := rfl

/-- A payload of uppercase digits only. -/
theorem noLowercase_upper : NoLowercase (withInfo "0A") := by
  refine ⟨fun b i o h => ?_, by decide +kernel⟩
  cases b with
  | raw => simp [octetAt, bufLen, withInfo, putText, State.reset, State.resetWith] at h
  | info =>
    rw [octetAt_of_bufText .info _ (octets "0A") (by decide +kernel)] at h
    have hm : ∀ o ∈ octets "0A", ¬(0x61 ≤ o.toNat ∧ o.toNat ≤ 0x66) := by decide +kernel
    exact hm o (List.mem_of_getElem? h)

/-- No octet at all, but a length. -/
theorem noLowercase_absent : NoLowercase { State.reset with infoLen := 2 } := by
  refine ⟨fun b i o h => ?_, by decide +kernel⟩
  cases b <;> simp [octetAt, bufLen, bufMem, Memory.empty, State.reset, State.resetWith] at h

theorem witness_HexLowerIsIrrelevantWithoutLowercase :
    NoLowercase (withInfo "0A") ∧
      (after (exec .decVersion (withHexLower false (withInfo "0A")))).isSome = true ∧
      NoLowercase { State.reset with infoLen := 2 } ∧
      exec .decVersion (withHexLower false { State.reset with infoLen := 2 }) = .fault (.noOctet .info 0) :=
  ⟨noLowercase_upper, by decide +kernel, noLowercase_absent, rfl⟩

/-- The first and the last position of each buffer. -/
theorem witness_HostWriteChangesOneOctet :
    (bufMem .raw frameState).wf ∧ frameState.status.busy = false ∧ 0 < bufMax .raw ∧ 4112 < bufMax .raw ∧
      4094 < bufMax .info ∧ (bufMem .info frameState).wf := by decide +kernel

/-- An idle block, and the ends of each buffer's size on both sides: for `HostWritesAndReadsOperandRegisters`,
`HostWriteSetsLength`, `HostWriteSetsText` and `HostHasNoMoveBeyondBuffer`. -/
theorem witness_host_writes :
    frameState.status.busy = false ∧ (bufMem .raw frameState).wf ∧ (bufMem .info frameState).wf ∧ 4113 ≤ bufMax .raw ∧
      bufMax .raw < 4114 ∧ 4095 ≤ bufMax .info ∧ bufMax .info < 4096 ∧ (octets "").length ≤ bufMax .raw ∧
      (List.replicate 4113 (0x30#8)).length ≤ bufMax .raw ∧ bufMax .raw < (List.replicate 4114 (0x30#8)).length ∧
      (List.replicate 4095 (0x30#8)).length ≤ bufMax .info ∧ bufMax .info < (List.replicate 4096 (0x30#8)).length := by
  refine ⟨rfl, by decide +kernel, by decide +kernel, by decide, by decide, by decide, by decide, by decide +kernel, ?_⟩
  simp only [List.length_replicate]
  decide

theorem witness_HostReadsNoWorkingRegister : busyState.status.busy = true ∧ frameState.status.busy = false := ⟨rfl, rfl⟩

/-- A write of each kind that has a move, from a state of the invariant; for the length every octet below it has a value. -/
theorem witness_HostWritesKeepInvariant :
    frameState.Inv ∧
      ([HostWrite.op 3, .octet .raw 4112 0, .length .raw 17, .text .info (octets "FF")].all fun w =>
        (after (hostWrite w frameState)).isSome) = true ∧
      ∀ i, i < 17 → ((bufMem .raw frameState).read i).isSome = true :=
  ⟨frameState_inv, by decide +kernel, by decide +kernel⟩

/-! The host's port: R294's limits, and R280's reads. -/

theorem test_hostWrite_limits :
    hostWrite (.octet .raw 4113 0) State.reset = .fault (.noSuchPosition .raw 4113) ∧
      hostWrite (.length .info 4096) State.reset = .fault (.noSuchPosition .info 4096) ∧
      hostWrite (.text .info (octets "FF")) busyState = .fault .hostWhileBusy := ⟨rfl, rfl, rfl⟩

theorem test_hostRead :
    hostReadOperand .op frameState = .ok (.code 4) ∧ hostReadOperand .op busyState = .error .hostWhileBusy ∧
      hostReadOctet .raw 0 frameState = .ok 0x7E ∧ hostReadOctet .raw 18 frameState = .error (.noOctet .raw 18) :=
  ⟨rfl, rfl, rfl, rfl⟩

end Sys2Proof.Tests
end

section
/-! The start of a reserved code (30_encoding.md R101; 60_exceptions.md R266). -/

namespace Sys2Proof.Proofs

open Sys2Proof Sys2Proof.Machine

/-- R101: the codes 0x0 and 0xA to 0xF select no operation. -/
theorem decode_reserved {op : BitVec 4} (h : op = 0 ∨ 10 ≤ op.toNat) : decode op = .error (.reservedOp op) := by
  have hcode : op.toNat = 0 ∨ 10 ≤ op.toNat := h.imp_left (congrArg BitVec.toNat)
  unfold decode
  split
  case h_10 => rfl
  all_goals omega

/-- R269: on an idle block, a code that does not decode ends the start with `IllegalOp`. -/
theorem step_of_decode_error {s : State} {code : BitVec 4} (hidle : s.status.busy = false)
    (hdec : decode s.op = .error (.reservedOp code)) : step s = .next (raiseIllegal code (startOp s)) := by
  have hfetch : fetchOp (startOp s) = .error (.reservedOp code) := hdec
  simp [step, hidle, hfetch]

/-- R266: `KIND` 6, `DETAIL` the code, `FIELD` 0. -/
theorem errStatus_illegalOp (code : BitVec 4) :
    errStatus (.illegalOp code) = Claims.ended 6 (BitVec.ofNat 8 code.toNat) 0 := by
  rw [BitVec.ofNat_toNat]
  rfl

/-- Settles O8: the code does not decode, so the step is `raiseIllegal` on the started block, which rewrites `STATUS` alone. -/
theorem reservedCodeEndsIllegalOp : Obligations.ReservedCodeEndsIllegalOp := by
  intro s hidle hreserved
  rw [step_of_decode_error hidle (decode_reserved hreserved), raiseIllegal, errStatus_illegalOp, startOp]

end Sys2Proof.Proofs
end

section
/-! Digits, fields of digits and scaled values (40_primitives_checksums.md R120 to R136). -/

namespace Sys2Proof.Proofs

open Sys2Proof Sys2Proof.Machine

/-- Settles O11: along the ranges `HexVal` tests, a lowercase digit by the setting. -/
theorem hexValAcceptsExactlyTheDigits : Obligations.HexValAcceptsExactlyTheDigits := by
  intro lower c d
  unfold hexVal
  split
  · simp only [Option.some.injEq]
    omega
  · split
    · simp only [Option.some.injEq]
      omega
    · split
      · cases lower with
        | true =>
          simp only [if_true, Option.some.injEq, true_and]
          omega
        | false =>
          simp only [Bool.false_eq_true, if_false, reduceCtorEq, false_and, or_false, false_iff]
          omega
      · simp only [reduceCtorEq, false_iff]
        omega

/-- R121: the code of the uppercase digit. -/
theorem hexChar_toNat {v : Nat} (h : v ≤ 15) : (hexChar v).toNat = if v ≤ 9 then 0x30 + v else 0x41 + (v - 10) := by
  unfold hexChar
  split
  · exact toNat_ofNat_of_lt (by omega)
  · exact toNat_ofNat_of_lt (by omega)

/-- R123: the digit at place `k` from the left. -/
theorem intToHex_getElem? (v : Nat) {w k : Nat} (h : k < w) :
    (intToHex v w)[k]? = some (hexChar ((v >>> (4 * (w - 1 - k))) &&& 15)) := by
  induction w generalizing k with
  | zero => omega
  | succ w ih =>
    rw [intToHex]
    cases k with
    | zero => rfl
    | succ k =>
      rw [List.getElem?_cons_succ, ih (by omega), show w + 1 - 1 - (k + 1) = w - 1 - k by omega]

/-- Settles O12: digit by digit, and back by the model's own round trip. -/
theorem intToHexRendersAndReadsBack : Obligations.IntToHexRendersAndReadsBack :=
  ⟨fun _ hv => hexChar_toNat hv, fun lower v w hv =>
    ⟨intToHex_length v w, fun _ hk => intToHex_getElem? v hk, hexToInt_intToHex lower v w hv⟩⟩

theorem hexToInt_cons_eq_some {lower : Bool} {c : Octet} {t : Text} {v : Nat} (h : hexToInt lower (c :: t) = some v) :
    ∃ d u, hexVal lower c = some d ∧ hexToInt lower t = some u ∧ v = d * 16 ^ t.length + u := by
  rw [hexToInt] at h
  split at h
  · next d u hd hu => exact ⟨d, u, hd, hu, (Option.some.inj h).symm⟩
  · cases h

/-- R122: the value is the big-endian sum of the digit values. -/
theorem hexToInt_eq_sum {lower : Bool} {t : Text} {v : Nat} (h : hexToInt lower t = some v) :
    v = ((List.range t.length).map fun k => (hexVal lower (t.getD k 0)).getD 0 * 16 ^ (t.length - 1 - k)).sum := by
  induction t generalizing v with
  | nil => exact (Option.some.inj h).symm
  | cons c t ih =>
    obtain ⟨d, u, hd, hu, rfl⟩ := hexToInt_cons_eq_some h
    have hplace : ∀ k, t.length + 1 - 1 - (k + 1) = t.length - 1 - k := fun k => by omega
    simp only [List.length_cons, List.range_succ_eq_map, List.map_cons, List.map_map, Function.comp_def, List.sum_cons,
      List.getD_cons_zero, List.getD_cons_succ, Nat.succ_eq_add_one, hplace, ← ih hu, hd, Option.getD_some]
    rfl

/-- Settles O13: the bound and the failure from the model's laws, the sum character by character. -/
theorem hexToIntIsTheBigEndianSum : Obligations.HexToIntIsTheBigEndianSum := fun lower t =>
  ⟨hexToInt_none_iff lower t, fun v hv => ⟨hexToInt_lt lower t v hv, hexToInt_eq_sum hv⟩⟩

theorem hexPairs_cons_cons_eq_none {lower : Bool} {c d : Octet} {t : Text} :
    hexPairs lower (c :: d :: t) = none ↔ hexVal lower c = none ∨ hexVal lower d = none ∨ hexPairs lower t = none := by
  rw [hexPairs]
  cases hexVal lower c <;> cases hexVal lower d <;> cases hexPairs lower t <;> simp

theorem hexPairs_cons_cons_eq_some {lower : Bool} {c d : Octet} {t v : Text} (h : hexPairs lower (c :: d :: t) = some v) :
    ∃ a b r, hexVal lower c = some a ∧ hexVal lower d = some b ∧ hexPairs lower t = some r ∧
      v = BitVec.ofNat 8 (16 * a + b) :: r := by
  rw [hexPairs] at h
  split at h
  · next a b r ha hb hr => exact ⟨a, b, r, ha, hb, hr, (Option.some.inj h).symm⟩
  · cases h

/-- R124: `HexPairs` fails where a character has no digit value. -/
theorem hexPairs_eq_none_iff (lower : Bool) (t : Text) (heven : t.length % 2 = 0) :
    hexPairs lower t = none ↔ ∃ c ∈ t, hexVal lower c = none := by
  induction t using List.twoStepInduction with
  | nil => simp [hexPairs]
  | singleton c => simp at heven
  | cons_cons c d t ih _ =>
    have htail : t.length % 2 = 0 := by
      rw [List.length_cons, List.length_cons] at heven
      omega
    rw [hexPairs_cons_cons_eq_none, ih htail]
    simp only [List.exists_mem_cons_iff]

theorem hexPairs_length {lower : Bool} {t v : Text} (h : hexPairs lower t = some v) : 2 * v.length = t.length := by
  induction t using List.twoStepInduction generalizing v with
  | nil =>
    cases h
    rfl
  | singleton c => cases h
  | cons_cons c d t ih _ =>
    obtain ⟨a, b, r, _, _, hr, rfl⟩ := hexPairs_cons_cons_eq_some h
    have := ih hr
    simp only [List.length_cons]
    omega

/-- R124, R56: octet `k` is made of the digits `2k` and `2k + 1`, the high nibble first. -/
theorem hexPairs_octet {lower : Bool} {t v : Text} (h : hexPairs lower t = some v) {k : Nat} (hk : k < v.length) :
    ∃ hi lo o, t[2 * k]? = some hi ∧ t[2 * k + 1]? = some lo ∧ v[k]? = some o ∧
      ∃ a b, hexVal lower hi = some a ∧ hexVal lower lo = some b ∧ o.toNat = 16 * a + b := by
  induction t using List.twoStepInduction generalizing v k with
  | nil =>
    cases h
    simp at hk
  | singleton c => cases h
  | cons_cons c d t ih _ =>
    obtain ⟨a, b, r, ha, hb, hr, rfl⟩ := hexPairs_cons_cons_eq_some h
    cases k with
    | zero =>
      have ha' := hexVal_lt lower c a ha
      have hb' := hexVal_lt lower d b hb
      exact ⟨c, d, _, rfl, rfl, rfl, a, b, ha, hb, toNat_ofNat_of_lt (by omega)⟩
    | succ k => exact ih hr (Nat.lt_of_succ_lt_succ hk)

/-- Settles O14, two characters at a time. -/
theorem hexPairsTakesHighNibbleFirst : Obligations.HexPairsTakesHighNibbleFirst := fun lower t heven =>
  ⟨hexPairs_eq_none_iff lower t heven, fun _ hv => ⟨hexPairs_length hv, fun _ hk => hexPairs_octet hv hk⟩⟩

/-! `Pct` by the remainder of `10000 * a` (R135): below a half, above a half, and the tie. -/

theorem pct_below {a b : Nat} (tie : RoundTie) (h : 2 * (10000 * a % b) < b) : pct tie a b = 10000 * a / b := if_pos h

theorem pct_above {a b : Nat} (tie : RoundTie) (h : b < 2 * (10000 * a % b)) : pct tie a b = 10000 * a / b + 1 :=
  (if_neg (by omega)).trans (if_pos h)

theorem pct_tie_halfUp {a b : Nat} (h : 2 * (10000 * a % b) = b) : pct .halfUp a b = 10000 * a / b + 1 :=
  (if_neg (by omega)).trans (if_neg (by omega))

theorem pct_tie_halfEven {a b : Nat} (h : 2 * (10000 * a % b) = b) :
    pct .halfEven a b = if 10000 * a / b % 2 = 0 then 10000 * a / b else 10000 * a / b + 1 :=
  (if_neg (by omega)).trans (if_neg (by omega))

/-- Settles O15: with `10000 * a = b * q + r`, the exact quotient lies at `q + r / b`, and `20000 * a % (2 * b) = 2 * r` tells a
tie. -/
theorem pctRoundsToNearest : Obligations.PctRoundsToNearest := by
  intro tie a b hb
  have hmod : 20000 * a % (2 * b) = 2 * (10000 * a % b) := by
    rw [← Nat.mul_mod_mul_left, ← Nat.mul_assoc]
  have hdiv := Nat.div_add_mod' (10000 * a) b
  have hsucc := Nat.add_one_mul (10000 * a / b) b
  have hrem := Nat.mod_lt (10000 * a) hb
  rw [hmod]
  rcases Nat.lt_trichotomy (2 * (10000 * a % b)) b with hr | hr | hr
  · rw [pct_below tie hr, pct_below .halfEven hr]
    exact ⟨by omega, by omega, fun htie => absurd htie hr.ne, fun _ => rfl⟩
  · cases tie with
    | halfUp =>
      rw [pct_tie_halfUp hr]
      exact ⟨by omega, by omega, fun _ => ⟨fun _ => by omega, nofun⟩, fun hoff => absurd hr hoff⟩
    | halfEven =>
      rw [pct_tie_halfEven hr]
      split
      · next heven => exact ⟨by omega, by omega, fun _ => ⟨nofun, fun _ => heven⟩, fun _ => rfl⟩
      · next hodd => exact ⟨by omega, by omega, fun _ => ⟨nofun, fun _ => by omega⟩, fun _ => rfl⟩
  · rw [pct_above tie hr, pct_above .halfEven hr]
    exact ⟨by omega, by omega, fun htie => absurd htie hr.ne', fun _ => rfl⟩

/-- Settles O16: each scaling by its own law; a percentage is at most `10000 * raw`. -/
theorem scaledRegistersHoldExactValues : Obligations.ScaledRegistersHoldExactValues := fun raw hraw =>
  ⟨tempOf_toInt raw hraw, currentOf_toInt raw hraw, capacityOf_toNat raw hraw, fun tie b hb =>
    ⟨pct_register tie raw b hraw hb, (pct_le tie raw b hb).trans (by omega)⟩⟩

end Sys2Proof.Proofs
end

section
/-! The two checksum functions and their operations (40_primitives_checksums.md R140 to R147). -/

namespace Sys2Proof.Proofs

open Sys2Proof Sys2Proof.Machine Sys2Proof.Claims

/-- R142: two sums have one 16-bit negation exactly when they agree mod 65536. -/
theorem negated16_eq_iff (m n : Nat) : negated16 m = negated16 n ↔ m % 65536 = n % 65536 := by
  unfold negated16
  omega

theorem total_perm {t u : Text} (h : t.Perm u) : total t = total u := (h.map BitVec.toNat).sum_eq

/-- R142: one changed octet changes the sum mod 65536. -/
theorem total_set_mod_ne {t : Text} {i : Nat} {x : Octet} (hi : i < t.length) (hx : t[i]? ≠ some x) :
    total (t.set i x) % 65536 ≠ total t % 65536 := by
  have hval : t[i].toNat ≠ x.toNat := fun h => hx (by rw [List.getElem?_eq_getElem hi, BitVec.eq_of_toNat_eq h])
  have hset := octetSum_set t i x hi
  have hold := t[i].isLt
  have hnew := x.isLt
  rw [total_eq_octetSum, total_eq_octetSum]
  omega

/-- Settles O17: every law is read off the closed form `negated16 (total t)`, in which the octet at position 0 does not stand. -/
theorem chksumIsTheNegatedSum : Obligations.ChksumIsTheNegatedSum := by
  intro o t
  refine ⟨chksumVal_cons o t, ?_, ?_, fun o' => ?_, fun u hperm => ?_, fun i x hi hx => ?_⟩
  · rw [chksumVal_cons, negated16]
    omega
  · rw [chksumVal_cons, negated16]
    omega
  · rw [chksumVal_cons, chksumVal_cons]
  · rw [chksumVal_cons, chksumVal_cons, total_perm hperm]
  · rw [chksumVal_cons, chksumVal_cons, Ne, negated16_eq_iff]
    exact total_set_mod_ne hi hx

theorem lchksumCalc_eq_none_iff (lower : Bool) (t : Text) : lchksumCalc lower t = none ↔ digitSum lower t = none := by
  unfold lchksumCalc
  cases digitSum lower t <;> simp

/-- R145, R147: the value is the negated digit sum, the character its digit. -/
theorem lchksumCalc_of_digitSum {lower : Bool} {t : Text} {n : Nat} (h : digitSum lower t = some n) :
    lchksumCalc lower t = some (negated4 n, hexChar (negated4 n)) := by
  rw [lchksumCalc, h]
  simp only [lchksumVal_eq]
  rfl

theorem negated4_eq_zero_iff (n : Nat) : negated4 n = 0 ↔ n % 16 = 0 := by
  unfold negated4
  omega

theorem negated4_of_mod_eq_fifteen {n : Nat} (h : n % 16 = 15) : negated4 n = 1 := by
  rw [negated4, h]

/-- Settles O18: `LchksumCalc` fails with the digit sum, and its value is the sum's 4-bit negation. -/
theorem lchksumIsTheNegatedDigitSum : Obligations.LchksumIsTheNegatedDigitSum := by
  intro lower t
  refine ⟨(lchksumCalc_eq_none_iff lower t).trans (digitSum_none_iff lower t), fun r hr => ?_⟩
  cases hsum : digitSum lower t with
  | none => rw [(lchksumCalc_eq_none_iff lower t).mpr hsum] at hr; cases hr
  | some n =>
    rw [lchksumCalc_of_digitSum hsum] at hr
    cases hr
    rw [← digitSum_eq_sum lower t n hsum]
    refine ⟨rfl, rfl, negated4_eq_zero_iff n, fun h => ?_⟩
    rw [negated4_of_mod_eq_fifteen h]
    rfl

/-- R141: with octets in RAW the operation ends `Ok`, group CK holding value and text. -/
theorem exec_chksumCalc_of_ne_nil {s : State} {t : Text} (h : bufText .raw s = .ok t) (hne : t ≠ []) :
    ∃ k, exec .chksumCalc s = .next { s with
      ck := some ⟨BitVec.ofNat 16 (chksumVal t), chars4Of (chksumTxt t)⟩, work := k, status := okStatus } := by
  have hfetch : fetchText .raw s 0 s.rawLen.toNat s.work = .ok t s.work := fetchText_ok _ _ _ _ _ _ h
  rw [exec, execChksumCalc, Walk.andThen_of_ok hfetch, chksumCalc_ne_nil hne]
  exact ⟨_, rfl⟩

/-- R141: an empty RAW ends the operation with `EmptyBuffer`. -/
theorem exec_chksumCalc_of_nil {s : State} (h : bufText .raw s = .ok []) :
    exec .chksumCalc s = .next (raiseErr .ck (.encode .emptyBuffer) s) := by
  have hfetch : fetchText .raw s 0 s.rawLen.toNat s.work = .ok [] s.work := fetchText_ok _ _ _ _ _ _ h
  rw [exec, execChksumCalc, Walk.andThen_of_ok hfetch, chksumCalc_nil]
  rfl

/-- Settles O20: RAW of length 0 reads as the empty text; the value and its digits are those of the negated sum. -/
theorem chksumCalcWritesValueAndText : Obligations.ChksumCalcWritesValueAndText := by
  intro s
  refine ⟨fun hempty => ⟨s.work, ?_⟩, fun o t htext => ?_⟩
  · have htext : bufText .raw s = .ok [] := by
      rw [bufText, bufLen, hempty]
      rfl
    rw [exec_chksumCalc_of_nil htext]
    rfl
  · obtain ⟨k, hexec⟩ := exec_chksumCalc_of_ne_nil htext (List.cons_ne_nil o t)
    refine ⟨k, _, hexec, ?_, ?_⟩
    · rw [toNat_ofNat_of_lt (chksumVal_lt (o :: t)), chksumVal_cons]
    · rw [chars4Of_toList _ (chksumTxt_length (o :: t)), chksumTxt, chksumVal_cons, digits4_eq]

/-- R146: the operation on digits. -/
theorem exec_lchksumCalc_of_digitSum {s : State} {n : Nat} (h : digitSum s.cfg.hexLower s.larg.toList = some n) :
    exec .lchksumCalc s = .next { s with
      lck := some ⟨BitVec.ofNat 4 (negated4 n), hexChar (negated4 n)⟩, status := okStatus } := by
  rw [exec, execLchksumCalc, lchksumCalc_of_digitSum h]
  rfl

/-- R146: the operation on a character that is no digit. -/
theorem exec_lchksumCalc_of_none {s : State} (h : digitSum s.cfg.hexLower s.larg.toList = none) :
    exec .lchksumCalc s = .next (raiseErr .lck (.encode .badLenid) s) := by
  rw [exec, execLchksumCalc, (lchksumCalc_eq_none_iff _ _).mpr h]
  rfl

/-- Settles O21: the digit sum of the three characters of LARG, or none. -/
theorem lchksumCalcWritesValueAndCharacter : Obligations.LchksumCalcWritesValueAndCharacter := by
  intro s
  refine ⟨fun a b c ha hb hc => ?_, fun hbad => ⟨s.work, ?_⟩⟩
  · have hsum : digitSum s.cfg.hexLower s.larg.toList = some (a + b + c) := by
      simp [Chars3.toList, digitSum, ha, hb, hc, Nat.add_assoc]
    refine ⟨s.work, _, exec_lchksumCalc_of_digitSum hsum, ?_, rfl⟩
    exact toNat_ofNat_of_lt (Nat.mod_lt _ (by decide))
  · have hnone : digitSum s.cfg.hexLower s.larg.toList = none := by
      rw [digitSum_none_iff]
      simpa [Chars3.toList] using hbad
    rw [exec_lchksumCalc_of_none hnone]
    rfl

end Sys2Proof.Proofs
end

section
/-! The frame codec: `ENCODE_REQ`, `DECODE_RESP` and their round trip (41_frame_codec.md R150 to R164). -/

namespace Sys2Proof.Proofs

open Sys2Proof Sys2Proof.Machine Sys2Proof.Claims

/-! Reads of a buffer whose content is known. -/

theorem fetchText_of_bufText {b : Buffer} {s : State} {t : Text} (h : bufText b s = .ok t) {a n : Nat}
    (hn : a + n ≤ t.length) (k : Work) : fetchText b s a n k = .ok ((t.drop a).take n) k :=
  fetchText_ok _ _ _ _ _ _ (memRead_of_bufText b s t h a n (by rwa [← bufText_length b s t h]))

theorem fetchRaw_of_bufText {s : State} {t : Text} (h : bufText .raw s = .ok t) {i : Nat} (hi : i < t.length) (k : Work) :
    fetchRaw s i k = .ok (t.getD i 0) k := by
  rw [fetchRaw, octetAt_of_bufText .raw s t h i, List.getElem?_eq_getElem hi, List.getD_eq_getElem _ _ hi]

theorem take_three_drop {t : Text} {i : Nat} (h : i + 3 ≤ t.length) :
    (t.drop i).take 3 = [t.getD i 0, t.getD (i + 1) 0, t.getD (i + 2) 0] := by
  rw [List.getD_eq_getElem _ _ (by omega), List.getD_eq_getElem _ _ (by omega), List.getD_eq_getElem _ _ (by omega),
    List.drop_eq_getElem_cons (by omega), List.drop_eq_getElem_cons (by omega), List.drop_eq_getElem_cons (by omega)]
  rfl

/-! `ENCODE_REQ` (R150). -/

theorem digitSum_of_forall_hexVal {lower : Bool} {t : Text} (h : ∀ c ∈ t, hexVal lower c ≠ none) :
    digitSum lower t = some (t.map fun c => (hexVal lower c).getD 0).sum := by
  cases hsum : digitSum lower t with
  | none =>
    obtain ⟨c, hc, hnone⟩ := (digitSum_none_iff lower t).mp hsum
    exact absurd hnone (h c hc)
  | some n => rw [digitSum_eq_sum lower t n hsum]

/-- R163: the fixed `0` for `"000"` is what the digit sum 0 gives. -/
theorem reqLchksum_of_digitSum {lower : Bool} {t : Text} {n : Nat} (h : digitSum lower t = some n) :
    reqLchksum lower t = some (hexChar (negated4 n)) := by
  unfold reqLchksum
  split
  · next hzero =>
    subst hzero
    cases h
    rfl
  · rw [lchksumCalc_of_digitSum h]
    rfl

theorem reqLchksum_of_none {lower : Bool} {t : Text} (h : digitSum lower t = none) : reqLchksum lower t = none := by
  unfold reqLchksum
  split
  · next hzero =>
    subst hzero
    cases h
  · rw [(lchksumCalc_eq_none_iff lower t).mpr h]
    rfl

/-- R162: the override, or the length in three digits. -/
theorem reqLenid_eq (s : State) : reqLenid s = if s.lenidOvrEn then s.lenidOvr.toList else digits3 s.infoLen.toNat := by
  rw [reqLenid, digits3_eq]

theorem reqLenid_length (s : State) : (reqLenid s).length = 3 := by
  rw [reqLenid_eq]
  split <;> rfl

/-- The frame of R150 over a given LCHKSUM character and payload. -/
def reqFrame (s : State) (lchk : Octet) (info : Text) : Text :=
  soi :: reqBody s lchk info ++ chksumTxt (soi :: reqBody s lchk info) ++ [eoi]

theorem reqBody_length (s : State) (lchk : Octet) (info : Text) : (reqBody s lchk info).length = 12 + info.length := by
  simp only [reqBody, Chars2.toList, List.length_append, List.length_cons, List.length_nil, reqLenid_length]

theorem reqFrame_length (s : State) (lchk : Octet) (info : Text) : (reqFrame s lchk info).length = 18 + info.length := by
  simp only [reqFrame, List.length_append, List.length_cons, List.length_nil, reqBody_length, chksumTxt_length]
  omega

/-- R25, R26: a payload that INFO holds makes a frame that RAW holds. -/
theorem reqFrame_length_le {s : State} {info : Text} (hinfo : bufText .info s = .ok info) (lchk : Octet) :
    (reqFrame s lchk info).length ≤ bufMax .raw := by
  have hlen : info.length = s.infoLen.toNat := bufText_length .info s info hinfo
  have hmax := s.infoLen.isLt
  rw [reqFrame_length, bufMax, rawMax]
  omega

theorem encodeReqWalk_ok {s : State} {lchk : Octet} {info : Text} (hinfo : bufText .info s = .ok info)
    (hlchk : reqLchksum s.cfg.hexLower (reqLenid s) = some lchk) (k : Work) :
    ∃ k', encodeReqWalk s k = .ok (reqFrame s lchk info) k' := by
  have hfetch : fetchText .info s 0 s.infoLen.toNat k = .ok info k := fetchText_ok _ _ _ _ _ _ hinfo
  simp only [encodeReqWalk, hlchk, Walk.andThen_of_ok hfetch, Walk.andThen_of_ok (chksumCalc_cons _ _ _), Walk.done_apply]
  exact ⟨_, rfl⟩

/-- R150: with a LCHKSUM character the frame replaces RAW. -/
theorem exec_encodeReq_ok {s : State} {lchk : Octet} {info : Text} (hinfo : bufText .info s = .ok info)
    (hlchk : reqLchksum s.cfg.hexLower (reqLenid s) = some lchk) :
    ∃ k, exec .encodeReq s = .next (putText .raw (reqFrame s lchk info) (finishOk { s with work := k })) := by
  obtain ⟨k, hwalk⟩ := encodeReqWalk_ok hinfo hlchk s.work
  exact ⟨k, by rw [exec, execEncodeReq, hwalk, conclude]⟩

/-- R150: without one the operation raises `BadLenid`. -/
theorem exec_encodeReq_badLenid {s : State} (hlchk : reqLchksum s.cfg.hexLower (reqLenid s) = none) :
    exec .encodeReq s = .next (raiseErr .frame (.encode .badLenid) s) := by
  rw [exec, execEncodeReq, encodeReqWalk, hlchk]
  rfl

/-- Settles O22: the digit sum of LENID is the LCHKSUM character's, or there is none; RAW then holds `reqFrame` or nothing. -/
theorem encodeReqBuildsTheFrame : Obligations.EncodeReqBuildsTheFrame := by
  intro s lenid hlenid
  rw [← reqLenid_eq] at hlenid
  subst hlenid
  constructor
  · intro info hinfo hdigits lchk body frame
    have hframe : reqFrame s lchk info = frame := by
      rw [reqFrame, chksumTxt, chksumVal_cons, ← digits4_eq]
      rfl
    have hlen : frame.length = 18 + info.length := hframe ▸ reqFrame_length s lchk info
    have hmax : frame.length ≤ bufMax .raw := hframe ▸ reqFrame_length_le hinfo lchk
    obtain ⟨k, hexec⟩ := exec_encodeReq_ok hinfo (reqLchksum_of_digitSum (digitSum_of_forall_hexVal hdigits))
    rw [hframe] at hexec
    refine ⟨_, k, hexec, bufText_putText hmax _, fun i hi => ?_, ?_⟩
    · exact octetAt_beyond _ _ _ (by rwa [bufLen_putText hmax])
    · rw [← hlen]
      rfl
  · intro hbad
    have hnone := reqLchksum_of_none ((digitSum_none_iff _ _).mpr hbad)
    obtain ⟨-, hraw⟩ := raiseErr_groupInvalid .encodeReq (.encode .badLenid) s
    exact ⟨_, s.work, exec_encodeReq_badLenid hnone, hraw, rfl⟩

/-! `DECODE_RESP`, step by step over a known content of RAW (R151 to R158). -/

section
variable {s : State} {buf : Text} (hbuf : bufText .raw s = .ok buf)
include hbuf

theorem rawLen_of_bufText : s.rawLen.toNat = buf.length := (bufText_length .raw s buf hbuf).symm

/-- R151: an empty RAW or another first octet. -/
theorem respHead_badSoi (hsoi : buf.head? ≠ some soi) (k : Work) : respHead s k = .err (.framing .badSoi) k := by
  rw [respHead, rawLen_of_bufText hbuf]
  cases buf with
  | nil => rfl
  | cons o t =>
    have hne : (o :: t).getD 0 0 ≠ soi := fun h => hsoi (congrArg some h)
    rw [if_neg (by simp), Walk.andThen_of_ok (fetchRaw_of_bufText hbuf (by simp) k), if_pos hne]
    rfl

/-- R151: the first octet is SOI, so what is left of step 1 is the length test. -/
theorem respHead_of_soi (hsoi : buf.head? = some soi) (k : Work) :
    respHead s k = (if buf.length < 13 then Walk.raise (.framing .truncated)
      else (fetchRaw s 7).andThen fun c0 => (fetchRaw s 8).andThen fun c1 => Walk.done ⟨c0, c1⟩) k := by
  rw [respHead, rawLen_of_bufText hbuf]
  cases buf with
  | nil => cases hsoi
  | cons o t =>
    have heq : (o :: t).getD 0 0 = soi := Option.some.inj hsoi
    rw [if_neg (by simp), Walk.andThen_of_ok (fetchRaw_of_bufText hbuf (by simp) k), if_neg (not_not.mpr heq)]

theorem respHead_truncated (hsoi : buf.head? = some soi) (hlen : buf.length < 13) (k : Work) :
    respHead s k = .err (.framing .truncated) k := by
  rw [respHead_of_soi hbuf hsoi, if_pos hlen]
  rfl

/-- R153: the RTN pair. -/
theorem respHead_ok (hsoi : buf.head? = some soi) (hlen : 13 ≤ buf.length) (k : Work) :
    respHead s k = .ok ⟨buf.getD 7 0, buf.getD 8 0⟩ k := by
  rw [respHead_of_soi hbuf hsoi, if_neg (by omega), Walk.andThen_of_ok (fetchRaw_of_bufText hbuf (by omega) k),
    Walk.andThen_of_ok (fetchRaw_of_bufText hbuf (by omega) k)]
  rfl

/-- R154: a LENID character that is no digit. -/
theorem respTail_badLenid {rtn : Chars2} (hrtn : rtnError rtn = none) (hlen : 13 ≤ buf.length)
    (hbad : ∃ c ∈ (buf.drop 10).take 3, hexVal s.cfg.hexLower c = none) (k : Work) :
    respTail s rtn k = .err (.framing .badLenid) k := by
  have hnone := (lchksumCalc_eq_none_iff _ _).mpr ((digitSum_none_iff _ _).mpr hbad)
  simp only [respTail, hrtn, Walk.andThen_of_ok (fetchText_of_bufText hbuf (a := 10) (n := 3) (by omega) k), hnone,
    Walk.raise_apply]

/-- R154: over three digits, what is left of step 3 is the comparison of LCHKSUM. -/
theorem respTail_of_digits {rtn : Chars2} {d0 d1 d2 : Nat} (hrtn : rtnError rtn = none) (hlen : 13 ≤ buf.length)
    (h0 : hexVal s.cfg.hexLower (buf.getD 10 0) = some d0) (h1 : hexVal s.cfg.hexLower (buf.getD 11 0) = some d1)
    (h2 : hexVal s.cfg.hexLower (buf.getD 12 0) = some d2) (k : Work) :
    respTail s rtn k = (if buf.getD 9 0 ≠ hexChar (negated4 (d0 + d1 + d2)) then Walk.raise (.checksum .lchksum)
      else respInfo s (256 * d0 + 16 * d1 + d2)) k := by
  have hlenid : (buf.drop 10).take 3 = [buf.getD 10 0, buf.getD 11 0, buf.getD 12 0] := take_three_drop hlen
  have hsum : digitSum s.cfg.hexLower ((buf.drop 10).take 3) = some (d0 + d1 + d2) := by
    simp only [hlenid, digitSum, h0, h1, h2, Nat.add_zero, Nat.add_assoc]
  have hval : hexToInt s.cfg.hexLower ((buf.drop 10).take 3) = some (256 * d0 + 16 * d1 + d2) := by
    simp only [hlenid, hexToInt, h0, h1, h2, List.length_cons, List.length_nil, Option.some.injEq]
    omega
  simp only [respTail, hrtn, Walk.andThen_of_ok (fetchText_of_bufText hbuf (a := 10) (n := 3) (by omega) k),
    lchksumCalc_of_digitSum hsum, hval, Walk.andThen_of_ok (fetchRaw_of_bufText hbuf (i := 9) (by omega) k)]

/-- R155: a frame too short for its length word. -/
theorem respInfo_truncated {n : Nat} (hlen : buf.length < 18 + n) (k : Work) :
    respInfo s n k = .err (.framing .truncated) k := by
  rw [respInfo, rawLen_of_bufText hbuf, if_pos (by omega)]
  rfl

/-- R156, R157: in a frame that is long enough the received CHKSUM decides, compared as text. -/
theorem respInfo_of_length {n : Nat} (hlen : 18 + n ≤ buf.length) (k : Work) :
    ∃ k', respInfo s n k =
      (if (buf.drop (13 + n)).take 4 ≠ digits4 (negated16 (total ((buf.take (buf.length - 5)).drop 1)))
        then Walk.raise (.checksum .chksum) else Walk.done ((buf.drop 13).take n)) k' := by
  obtain ⟨o, t, hsummed⟩ : ∃ o t, buf.take (buf.length - 5) = o :: t :=
    List.exists_cons_of_length_pos (by rw [List.length_take]; omega)
  have hfetch := fetchText_of_bufText hbuf (a := 0) (n := buf.length - 5) (by omega) k
  rw [List.drop_zero, hsummed] at hfetch
  rw [respInfo, rawLen_of_bufText hbuf, if_neg (by omega),
    Walk.andThen_of_ok (fetchText_of_bufText hbuf (by omega) k),
    Walk.andThen_of_ok (fetchText_of_bufText hbuf (by omega) k),
    Walk.andThen_of_ok hfetch, Walk.andThen_of_ok (chksumCalc_cons o t k), hsummed, chksumTxt, chksumVal_cons, ← digits4_eq]
  exact ⟨_, rfl⟩

end

/-- R153: a listed RTN pair. -/
theorem respTail_protocol {s : State} {rtn : Chars2} {code : RtnCode} (hrtn : rtnError rtn = some code) (k : Work) :
    respTail s rtn k = .err (.protocol code) k := by
  rw [respTail, hrtn]
  rfl

/-! The ends of `DECODE_RESP` (R152, R158, R159): before step 2 the latch is the old one, from then on it is the RTN pair. -/

theorem exec_decodeResp_of_head {s : State} {rtn : Chars2} {k : Work} (hhead : respHead s s.work = .ok rtn k) :
    exec .decodeResp s = conclude .resp { s with rtnLatch := rtn } (respTail s rtn k) (putText .info) := by
  rw [exec, execDecodeResp, hhead]

theorem rejectsWith_of_head {s : State} {e : OpError} {k : Work} {kind : BitVec 3} {detail : BitVec 8}
    (hhead : respHead s s.work = .err e k) (hst : errStatus e = ended kind detail 0) :
    RejectsWith s kind detail s.rtnLatch := by
  obtain ⟨-, hinfo⟩ := raiseErr_groupInvalid .decodeResp e { s with work := k }
  refine ⟨_, k, by rw [exec, execDecodeResp, hhead]; rfl, hinfo, ?_⟩
  rw [← hst]
  rfl

theorem rejectsWith_of_tail {s : State} {rtn : Chars2} {e : OpError} {k k' : Work} {kind : BitVec 3} {detail : BitVec 8}
    (hhead : respHead s s.work = .ok rtn k) (htail : respTail s rtn k = .err e k')
    (hst : errStatus e = ended kind detail 0) : RejectsWith s kind detail rtn := by
  obtain ⟨-, hinfo⟩ := raiseErr_groupInvalid .decodeResp e { s with rtnLatch := rtn, work := k' }
  refine ⟨_, k', by rw [exec_decodeResp_of_head hhead, htail]; rfl, hinfo, ?_⟩
  rw [← hst]
  rfl

theorem acceptsWith_of_tail {s : State} {rtn : Chars2} {info : Text} {k k' : Work}
    (hhead : respHead s s.work = .ok rtn k) (htail : respTail s rtn k = .ok info k') (hmax : info.length ≤ bufMax .info) :
    AcceptsWith s info rtn :=
  ⟨_, k', by rw [exec_decodeResp_of_head hhead, htail, conclude], bufText_putText hmax _, rfl⟩

/-- Settles O23: each clause is the step lemma it names, then the end that step leads to. -/
theorem decodeRespTakesItsStepsInOrder : Obligations.DecodeRespTakesItsStepsInOrder := by
  intro s buf hbuf l rtn
  refine ⟨fun hsoi => ?_, fun hsoi hlen => ?_, fun hsoi hlen => ?_⟩
  · exact rejectsWith_of_head (respHead_badSoi hbuf hsoi s.work) rfl
  · exact rejectsWith_of_head (respHead_truncated hbuf hsoi hlen s.work) rfl
  have hhead := respHead_ok hbuf hsoi hlen s.work
  refine ⟨fun code hcode => ?_, fun hcode => ⟨fun hbad => ?_, ?_⟩⟩
  · obtain ⟨r, hr, hdetail⟩ := rtnError_of_mem rtn code hcode
    exact rejectsWith_of_tail hhead (respTail_protocol hr s.work) (by rw [← hdetail]; rfl)
  · exact rejectsWith_of_tail hhead (respTail_badLenid hbuf ((rtnError_none_iff rtn).mpr hcode) hlen hbad s.work) rfl
  intro d0 d1 d2 h0 h1 h2 n
  have htail := respTail_of_digits hbuf ((rtnError_none_iff rtn).mpr hcode) hlen h0 h1 h2 s.work
  constructor
  · intro hlchk
    rw [if_pos hlchk] at htail
    exact rejectsWith_of_tail hhead htail rfl
  intro hlchk txt
  rw [if_neg (not_not.mpr hlchk)] at htail
  refine ⟨fun hshort => ?_, fun hlong hchk => ?_, fun hlong hchk => ?_⟩
  · exact rejectsWith_of_tail hhead (htail.trans (respInfo_truncated hbuf hshort s.work)) rfl
  · obtain ⟨k, hinfo⟩ := respInfo_of_length hbuf hlong s.work
    rw [if_pos hchk] at hinfo
    exact rejectsWith_of_tail hhead (htail.trans hinfo) rfl
  · obtain ⟨k, hinfo⟩ := respInfo_of_length hbuf hlong s.work
    rw [if_neg (not_not.mpr hchk)] at hinfo
    refine acceptsWith_of_tail hhead (htail.trans hinfo) ?_
    have hlt0 := hexVal_lt _ _ _ h0
    have hlt1 := hexVal_lt _ _ _ h1
    have hlt2 := hexVal_lt _ _ _ h2
    rw [List.length_take, bufMax, infoMax]
    omega

/-! Where the fields stand in a built frame (20_memory.md R60). -/

section
variable (s : State) (lchk : Octet) (info : Text)

/-- R156: what `DECODE_RESP` sums is the body `ENCODE_REQ` summed. -/
theorem reqFrame_summed :
    ((reqFrame s lchk info).take ((reqFrame s lchk info).length - 5)).drop 1 = reqBody s lchk info := by
  have hbody : (soi :: reqBody s lchk info).length = (reqFrame s lchk info).length - 5 := by
    rw [reqFrame_length, List.length_cons, reqBody_length]
    omega
  rw [← hbody, reqFrame, List.append_assoc, List.take_left]
  rfl

theorem reqFrame_chksum :
    ((reqFrame s lchk info).drop (13 + info.length)).take 4 = digits4 (negated16 (total (reqBody s lchk info))) := by
  have hbody : (soi :: reqBody s lchk info).length = 13 + info.length := by
    rw [List.length_cons, reqBody_length]
    omega
  rw [← hbody, reqFrame, List.append_assoc, List.drop_left, List.take_left' (chksumTxt_length _), chksumTxt, chksumVal_cons,
    digits4_eq]

theorem reqFrame_info : ((reqFrame s lchk info).drop 13).take info.length = info := by
  have hhead : (s.ver.toList ++ s.adr.toList ++ s.cid1.toList ++ s.cid2.toList ++ [lchk] ++ reqLenid s).length = 12 := by
    simp only [Chars2.toList, List.length_append, List.length_cons, List.length_nil, reqLenid_length]
  rw [reqFrame, List.append_assoc, List.cons_append, List.drop_succ_cons, reqBody, List.append_assoc,
    List.drop_left' hhead, List.take_left]

theorem reqFrame_lenid {c0 c1 c2 : Octet} (h : reqLenid s = [c0, c1, c2]) :
    (reqFrame s lchk info).getD 10 0 = c0 ∧ (reqFrame s lchk info).getD 11 0 = c1 ∧
      (reqFrame s lchk info).getD 12 0 = c2 := by
  rw [reqFrame, reqBody, h]
  exact ⟨rfl, rfl, rfl⟩

end

/-! The round trip (R164). -/

theorem hexVal_hexChar_mod (lower : Bool) (v : Nat) : hexVal lower (hexChar (v % 16)) = some (v % 16) :=
  hexVal_hexChar lower _ (Nat.mod_lt v (by decide))

theorem digitSum_digits3 (lower : Bool) (v : Nat) :
    digitSum lower (digits3 v) = some (v / 256 % 16 + v / 16 % 16 + v % 16) := by
  simp only [digits3, digitSum, hexVal_hexChar_mod, Nat.add_zero, Nat.add_assoc]

/-- R162, R163: without an override the LCHKSUM character is that of the three digits of `INFO_LEN`. -/
theorem reqLchksum_of_noOverride {s : State} (hovr : s.lenidOvrEn = false) :
    reqLchksum s.cfg.hexLower (reqLenid s) = some (hexChar (negated4
      (s.infoLen.toNat / 256 % 16 + s.infoLen.toNat / 16 % 16 + s.infoLen.toNat % 16))) := by
  rw [reqLenid_eq, hovr]
  exact reqLchksum_of_digitSum (digitSum_digits3 _ _)

/-- R164: `DECODE_RESP` accepts the frame built without an override. -/
theorem acceptsWith_of_reqFrame {s t : State} {lchk : Octet} {info : Text} (hinfo : bufText .info s = .ok info)
    (hovr : s.lenidOvrEn = false) (hcid2 : ∀ code, (s.cid2.toList, code) ∉ rtnErrors)
    (hlchk : reqLchksum s.cfg.hexLower (reqLenid s) = some lchk)
    (hraw : bufText .raw t = .ok (reqFrame s lchk info)) : AcceptsWith t info s.cid2 := by
  have hlen : info.length = s.infoLen.toNat := bufText_length .info s info hinfo
  have hmax := s.infoLen.isLt
  have hlenid : reqLenid s = digits3 s.infoLen.toNat := by rw [reqLenid_eq, hovr]; rfl
  rw [reqLchksum_of_noOverride hovr] at hlchk
  cases hlchk
  obtain ⟨h0, h1, h2⟩ := reqFrame_lenid s _ info hlenid
  obtain ⟨-, -, hlong⟩ := decodeRespTakesItsStepsInOrder t _ hraw
  obtain ⟨-, hunlisted⟩ := hlong rfl (by rw [reqFrame_length]; omega)
  obtain ⟨-, hdigits⟩ := hunlisted hcid2
  obtain ⟨-, hagree⟩ := hdigits _ _ _ (h0 ▸ hexVal_hexChar_mod _ _) (h1 ▸ hexVal_hexChar_mod _ _)
    (h2 ▸ hexVal_hexChar_mod _ _)
  have hvalue : 256 * (s.infoLen.toNat / 256 % 16) + 16 * (s.infoLen.toNat / 16 % 16) + s.infoLen.toNat % 16 =
      info.length := by omega
  rw [hvalue, reqFrame_summed, reqFrame_chksum, reqFrame_info] at hagree
  obtain ⟨-, -, haccept⟩ := hagree rfl
  exact haccept (reqFrame_length _ _ _).ge rfl

theorem hostWrite_op {s : State} (hidle : s.status.busy = false) (v : BitVec 4) :
    hostWrite (.op v) s = .next { s with op := v } := by
  simp [hostWrite, hidle]

/-- R269, R67: on an idle block, a code written to `OP` that decodes starts its operation. -/
theorem step_withOp {s : State} {v : BitVec 4} {i : Instr} (hidle : s.status.busy = false) (hdec : decode v = .ok i) :
    step { s with op := v } = exec i (startOp { s with op := v }) := by
  have hfetch : fetchOp (startOp { s with op := v }) = .ok i := hdec
  simp [step, hidle, hfetch]

/-- R21, R269: neither the write of `OP` nor the start touches a buffer. -/
theorem bufText_startOp_withOp (b : Buffer) (s : State) (v : BitVec 4) : bufText b (startOp { s with op := v }) = bufText b s :=
  bufText_congr b _ s (by cases b <;> rfl) (by cases b <;> rfl)

/-- Settles O24: `ENCODE_REQ` leaves `reqFrame` in RAW, and `DECODE_RESP` accepts it. -/
theorem encodeThenDecodeReturnsInfo : Obligations.EncodeThenDecodeReturnsInfo := by
  intro s info hidle hinfo hovr hcid2
  have hstarted : bufText .info (startOp { s with op := 3 }) = .ok info := (bufText_startOp_withOp .info s 3).trans hinfo
  obtain ⟨lchk, hlchk⟩ : ∃ lchk, reqLchksum s.cfg.hexLower (reqLenid s) = some lchk := ⟨_, reqLchksum_of_noOverride hovr⟩
  obtain ⟨k, hencode⟩ := exec_encodeReq_ok hstarted hlchk
  have hraw := bufText_putText (reqFrame_length_le hstarted lchk) (finishOk { startOp { s with op := 3 } with work := k })
  obtain ⟨u, _, hdecode, hreturned, hu⟩ :=
    acceptsWith_of_reqFrame hstarted hovr hcid2 hlchk ((bufText_startOp_withOp .raw _ 4).trans hraw)
  have hlen : BitVec.ofNat 12 info.length = s.infoLen := by
    rw [bufText_length .info s info hinfo, bufLen, BitVec.ofNat_toNat, BitVec.setWidth_eq]
  exact ⟨_, _, _, u, hostWrite_op hidle 3, (step_withOp hidle rfl).trans hencode, hostWrite_op rfl 4,
    (step_withOp rfl rfl).trans hdecode, congrArg State.status hu, hreturned,
    (congrArg State.infoLen hu).trans hlen, congrArg State.rtnLatch hu⟩

end Sys2Proof.Proofs
end

section
/-! The identity decoders (42_identity.md R180 to R184). -/

namespace Sys2Proof.Proofs

open Sys2Proof Sys2Proof.Machine Sys2Proof.Claims

/-! What the decoders read of an INFO whose content is known. -/

section
variable {s : State} {t : Text} (hinfo : bufText .info s = .ok t)
include hinfo

theorem infoLen_of_bufText : s.infoLen.toNat = t.length := (bufText_length .info s t hinfo).symm

theorem readPairs_badHex {a n : Nat} (f : FieldId) (hn : a + n ≤ t.length)
    (hpairs : hexPairs s.cfg.hexLower ((t.drop a).take n) = none) (k : Work) :
    readPairs s a n f k = .err (.decode .badHex f) k := by
  rw [readPairs, Walk.andThen_of_ok (fetchText_of_bufText hinfo hn k), hpairs]
  rfl

theorem readPairs_ok {a n : Nat} (f : FieldId) (hn : a + n ≤ t.length) {v : Text}
    (hpairs : hexPairs s.cfg.hexLower ((t.drop a).take n) = some v) (k : Work) : readPairs s a n f k = .ok v k := by
  rw [readPairs, Walk.andThen_of_ok (fetchText_of_bufText hinfo hn k), hpairs]
  rfl

/-! `DEC_VERSION` (R181). -/

theorem versionWalk_oddLength (hodd : t.length % 2 = 1) (k : Work) :
    versionWalk s k = .err (.decode .oddLength .version) k := by
  rw [versionWalk, infoLen_of_bufText hinfo, if_pos hodd, Walk.raise_apply]

/-- R181: over an even length, what is left is the read of the whole payload. -/
theorem versionWalk_of_even (heven : t.length % 2 = 0) : versionWalk s = readPairs s 0 t.length .version := by
  rw [versionWalk, infoLen_of_bufText hinfo, if_neg (by omega)]

theorem versionWalk_badHex (heven : t.length % 2 = 0) (hpairs : hexPairs s.cfg.hexLower t = none) (k : Work) :
    versionWalk s k = .err (.decode .badHex .version) k := by
  rw [versionWalk_of_even hinfo heven]
  exact readPairs_badHex hinfo _ (Nat.zero_add _).le (by rwa [List.drop_zero, List.take_length]) k

theorem versionWalk_ok (heven : t.length % 2 = 0) {v : Text} (hpairs : hexPairs s.cfg.hexLower t = some v) (k : Work) :
    versionWalk s k = .ok v k := by
  rw [versionWalk_of_even hinfo heven]
  exact readPairs_ok hinfo _ (Nat.zero_add _).le (by rwa [List.drop_zero, List.take_length]) k

/-! `DEC_SERIAL`, check by check (R183). -/

theorem serialWalk_bmsOverrun (hlen : t.length < 30) (k : Work) : serialWalk s k = .err (.decode .overrun .bmsSn) k := by
  rw [serialWalk, infoLen_of_bufText hinfo, if_pos hlen, Walk.raise_apply]

theorem serialWalk_bmsBadHex (hlen : 30 ≤ t.length) (hbms : hexPairs s.cfg.hexLower (t.take 30) = none) (k : Work) :
    serialWalk s k = .err (.decode .badHex .bmsSn) k := by
  rw [serialWalk, infoLen_of_bufText hinfo, if_neg (by omega),
    Walk.andThen_of_err (readPairs_badHex hinfo _ (by omega) (by rwa [List.drop_zero]) k)]

/-- R183: behind a BMS serial that decodes, what is left is the pack serial. -/
theorem serialWalk_of_bms (hlen : 30 ≤ t.length) {b : Text} (hbms : hexPairs s.cfg.hexLower (t.take 30) = some b)
    (k : Work) :
    serialWalk s k = (if t.length < 68 then Walk.raise (.decode .overrun .packSn)
      else (readPairs s 40 28 .packSn).andThen fun p => Walk.done (removeSpaces b, removeSpaces p)) k := by
  rw [serialWalk, infoLen_of_bufText hinfo, if_neg (by omega),
    Walk.andThen_of_ok (readPairs_ok hinfo _ (by omega) (by rwa [List.drop_zero]) k)]

theorem serialWalk_packOverrun (hlen : 30 ≤ t.length) {b : Text} (hbms : hexPairs s.cfg.hexLower (t.take 30) = some b)
    (hshort : t.length < 68) (k : Work) : serialWalk s k = .err (.decode .overrun .packSn) k := by
  rw [serialWalk_of_bms hinfo hlen hbms, if_pos hshort, Walk.raise_apply]

theorem serialWalk_packBadHex (hlen : 68 ≤ t.length) {b : Text} (hbms : hexPairs s.cfg.hexLower (t.take 30) = some b)
    (hpack : hexPairs s.cfg.hexLower ((t.drop 40).take 28) = none) (k : Work) :
    serialWalk s k = .err (.decode .badHex .packSn) k := by
  rw [serialWalk_of_bms hinfo (by omega) hbms, if_neg (by omega),
    Walk.andThen_of_err (readPairs_badHex hinfo _ (by omega) hpack k)]

theorem serialWalk_ok (hlen : 68 ≤ t.length) {b p : Text} (hbms : hexPairs s.cfg.hexLower (t.take 30) = some b)
    (hpack : hexPairs s.cfg.hexLower ((t.drop 40).take 28) = some p) (k : Work) :
    serialWalk s k = .ok (removeSpaces b, removeSpaces p) k := by
  rw [serialWalk_of_bms hinfo (by omega) hbms, if_neg (by omega),
    Walk.andThen_of_ok (readPairs_ok hinfo _ (by omega) hpack k), Walk.done_apply]

end

/-! The ends of the two operations: the error with an invalid group, or the group written. -/

theorem exec_decVersion_of_err {s : State} {e : OpError} {k : Work} (hwalk : versionWalk s s.work = .err e k) :
    exec .decVersion s = .next { s with idVer := none, work := k, status := errStatus e } := by
  rw [exec, execDecVersion, hwalk]
  rfl

theorem exec_decVersion_of_ok {s : State} {v : Text} {k : Work} (hwalk : versionWalk s s.work = .ok v k) :
    exec .decVersion s = .next { s with
      idVer := some ⟨v, BitVec.ofNat 11 (s.infoLen.toNat / 2)⟩, work := k, status := okStatus } := by
  rw [exec, execDecVersion, hwalk]
  rfl

theorem exec_decSerial_of_err {s : State} {e : OpError} {k : Work} (hwalk : serialWalk s s.work = .err e k) :
    exec .decSerial s = .next { s with idSn := none, work := k, status := errStatus e } := by
  rw [exec, execDecSerial, hwalk]
  rfl

theorem exec_decSerial_of_ok {s : State} {b p : Text} {k : Work} (hwalk : serialWalk s s.work = .ok (b, p) k) :
    exec .decSerial s = .next { s with
      idSn := some ⟨b, BitVec.ofNat 4 b.length, p, BitVec.ofNat 4 p.length⟩, work := k, status := okStatus } := by
  rw [exec, execDecSerial, hwalk]
  rfl

/-- Settles O27: the length's parity, then the digits; a payload of at most 4095 characters is at most 2047 octets, which
`VERSION_LEN` holds. -/
theorem decVersionDecodesWholePayload : Obligations.DecVersionDecodesWholePayload := by
  intro s t hinfo
  refine ⟨fun hodd => ⟨_, exec_decVersion_of_err (versionWalk_oddLength hinfo hodd _)⟩, fun heven =>
    ⟨fun hpairs => ⟨_, exec_decVersion_of_err (versionWalk_badHex hinfo heven hpairs _)⟩, fun v hpairs => ?_⟩⟩
  have hlen := infoLen_of_bufText hinfo
  have hmax := s.infoLen.isLt
  have hoctets := hexPairs_length hpairs
  refine ⟨_, _, exec_decVersion_of_ok (versionWalk_ok hinfo heven hpairs _), rfl, ?_, by omega⟩
  rw [hlen]
  exact toNat_ofNat_of_lt (by omega)

theorem removeSpaces_eq (t : Text) : removeSpaces t = t.filter fun o => o != 0x20 :=
  List.filter_congr fun _ _ => by rw [decide_not, bne, beq_eq_decide]

/-- R184: a serial decoded from at most 30 characters has a length that its register holds. -/
theorem serialLen_of_hexPairs {lower : Bool} {t v : Text} (hpairs : hexPairs lower t = some v) (hlen : t.length ≤ 30) :
    (BitVec.ofNat 4 (removeSpaces v).length).toNat = (removeSpaces v).length := by
  have hoctets := hexPairs_length hpairs
  have hkept : (removeSpaces v).length ≤ v.length := List.length_filter_le _ _
  exact toNat_ofNat_of_lt (by omega)

/-- Settles O28: the four checks in their order, then the two serials without their spaces. -/
theorem decSerialDecodesTwoRanges : Obligations.DecSerialDecodesTwoRanges := by
  intro s t hinfo l b p
  refine ⟨fun hshort => ?_, fun hlen hbms => ?_, fun hlen hshort hbms => ?_, fun hlen hbms hpack => ?_,
    fun hlen x y hbms hpack => ?_⟩
  · exact ⟨_, exec_decSerial_of_err (serialWalk_bmsOverrun hinfo hshort _)⟩
  · exact ⟨_, exec_decSerial_of_err (serialWalk_bmsBadHex hinfo hlen hbms _)⟩
  · obtain ⟨x, hx⟩ := Option.ne_none_iff_exists'.mp hbms
    exact ⟨_, exec_decSerial_of_err (serialWalk_packOverrun hinfo hlen hx hshort _)⟩
  · obtain ⟨x, hx⟩ := Option.ne_none_iff_exists'.mp hbms
    exact ⟨_, exec_decSerial_of_err (serialWalk_packBadHex hinfo hlen hx hpack _)⟩
  · exact ⟨_, _, exec_decSerial_of_ok (serialWalk_ok hinfo hlen hbms hpack _), removeSpaces_eq x,
      serialLen_of_hexPairs hbms (List.length_take_le _ _), removeSpaces_eq y,
      serialLen_of_hexPairs hpack ((List.length_take_le _ _).trans (by decide))⟩

end Sys2Proof.Proofs
end

section
/-! `DEC_CAPACITY` (43_analog_capacity.md R220). -/

namespace Sys2Proof.Proofs

open Sys2Proof Sys2Proof.Machine Sys2Proof.Claims

/-- The working registers with the cursor before the 4-character field `j`. -/
def atField (k : Work) (j : Nat) : Work := { k with cur := BitVec.ofNat 12 (4 * j) }

theorem advance_atField (k : Work) (j : Nat) : advance valW (atField k j) = atField k (j + 1) := by
  have hcur : BitVec.ofNat 12 ((BitVec.ofNat 12 (4 * j)).toNat + 4) = BitVec.ofNat 12 (4 * (j + 1)) := by
    rw [BitVec.ofNat_add, BitVec.ofNat_toNat, BitVec.setWidth_eq, ← BitVec.ofNat_add, Nat.mul_succ]
  exact congrArg (fun c => { k with cur := c }) hcur

/-- R220: the walk starts before field 0. -/
theorem set_cur_zero (k : Work) : Walk.set (fun k => { k with cur := 0 }) k = .ok () (atField k 0) := rfl

/-- The numbers of the three fields, which lie end to end from position 0, and their identifiers (R220, R265). -/
def capacityFields : List (Nat × FieldId) := [(0, .rem), (1, .full), (2, .design)]

theorem hexToInt_take_four_lt {lower : Bool} {t : Text} {v : Nat} (h : hexToInt lower (t.take 4) = some v) : v < 65536 :=
  (hexToInt_lt lower _ v h).trans_le (Nat.pow_le_pow_right (by decide) (List.length_take_le 4 t))

theorem field_length {t : Text} {j : Nat} (hj : 4 * j + 4 ≤ t.length) : ((t.drop (4 * j)).take 4).length = valW := by
  rw [List.length_take, List.length_drop, valW]
  omega

/-! One field of an INFO whose content is known (R126). -/

section
variable {s : State} {t : Text} (hinfo : bufText .info s = .ok t) (k : Work) {j : Nat} (f : FieldId)
include hinfo

theorem at_atField (hj : 4 * j ≤ t.length) : At s (atField k j) (t.drop (4 * j)) := by
  have hlen := infoLen_of_bufText hinfo
  have hmax := s.infoLen.isLt
  refine ⟨t.take (4 * j), by rwa [List.take_append_drop], ?_⟩
  rw [List.length_take_of_le hj, atField, toNat_ofNat_of_lt (by omega)]

theorem at_atField_split (hj : 4 * j + 4 ≤ t.length) :
    At s (atField k j) ((t.drop (4 * j)).take 4 ++ (t.drop (4 * j)).drop 4) := by
  rw [List.take_append_drop]
  exact at_atField hinfo k (by omega)

theorem readField_atField (hj : 4 * j + 4 ≤ t.length) {v : Nat}
    (hv : hexToInt s.cfg.hexLower ((t.drop (4 * j)).take 4) = some v) :
    readField s valW f (atField k j) = .ok v (atField k (j + 1)) := by
  rw [readField_of_peek (peekField_at f (at_atField_split hinfo k hj) (field_length hj) hv), advance_atField]

theorem readField_atField_badHex (hj : 4 * j + 4 ≤ t.length)
    (hv : hexToInt s.cfg.hexLower ((t.drop (4 * j)).take 4) = none) :
    readField s valW f (atField k j) = .err (.decode .badHex f) (atField k j) :=
  readField_badHex f (at_atField_split hinfo k hj) (field_length hj) hv

theorem readField_atField_overrun (hj : 4 * j ≤ t.length) (hshort : t.length < 4 * j + 4) :
    readField s valW f (atField k j) = .err (.decode .overrun f) (atField k j) :=
  readField_overrun f (at_atField hinfo k hj) (by rw [List.length_drop, valW]; omega)

/-- R220: the fields before field `j` being readable, what its read raises the walk raises. -/
theorem capacityWalk_of_readField_err (hf : (j, f) ∈ capacityFields) (hj : 4 * j ≤ t.length)
    (hbefore : ∀ i < j, hexToInt s.cfg.hexLower ((t.drop (4 * i)).take 4) ≠ none) {e : OpError} {k' : Work}
    (herr : readField s valW f (atField k j) = .err e k') : capacityWalk s k = .err e k' := by
  have hread : ∀ i < j, ∀ f, ∃ v, readField s valW f (atField k i) = .ok v (atField k (i + 1)) := fun i hi f =>
    have ⟨v, hv⟩ := Option.ne_none_iff_exists'.mp (hbefore i hi)
    ⟨v, readField_atField hinfo k f (by omega) hv⟩
  rw [capacityWalk, Walk.andThen_of_ok (set_cur_zero k)]
  simp only [capacityFields, List.mem_cons, Prod.mk.injEq, List.not_mem_nil, or_false] at hf
  obtain ⟨rfl, rfl⟩ | ⟨rfl, rfl⟩ | ⟨rfl, rfl⟩ := hf
  · rw [Walk.andThen_of_err herr]
  · obtain ⟨rem, hrem⟩ := hread 0 (by decide) .rem
    rw [Walk.andThen_of_ok hrem, Walk.andThen_of_err herr]
  · obtain ⟨rem, hrem⟩ := hread 0 (by decide) .rem
    obtain ⟨full, hfull⟩ := hread 1 (by decide) .full
    rw [Walk.andThen_of_ok hrem, Walk.andThen_of_ok hfull, Walk.andThen_of_err herr]

/-! What follows the three reads. -/

variable (hlen : 12 ≤ t.length) {rem full design : Nat}
  (hrem : hexToInt s.cfg.hexLower ((t.drop (4 * 0)).take 4) = some rem)
  (hfull : hexToInt s.cfg.hexLower ((t.drop (4 * 1)).take 4) = some full)
  (hdesign : hexToInt s.cfg.hexLower ((t.drop (4 * 2)).take 4) = some design)
include hlen hrem hfull hdesign

theorem capacityWalk_of_fields :
    capacityWalk s k = ((ratio s .soc rem full).andThen fun soc => (ratio s .soh full design).andThen fun soh =>
      Walk.done ⟨capacityOf rem, capacityOf full, capacityOf design, soc, soh⟩) (atField k 3) := by
  rw [capacityWalk, Walk.andThen_of_ok (set_cur_zero k),
    Walk.andThen_of_ok (readField_atField hinfo k _ (by omega) hrem),
    Walk.andThen_of_ok (readField_atField hinfo k _ (by omega) hfull),
    Walk.andThen_of_ok (readField_atField hinfo k _ (by omega) hdesign)]

theorem capacityWalk_socDivZero (hzero : full = 0) :
    capacityWalk s k = .err (.decode .divZero .soc) (atField k 3) := by
  subst hzero
  rw [capacityWalk_of_fields hinfo k hlen hrem hfull hdesign, Walk.andThen_of_err (ratio_zero s .soc rem _)]

theorem capacityWalk_sohDivZero (hpos : full ≠ 0) (hzero : design = 0) :
    capacityWalk s k = .err (.decode .divZero .soh) (atField k 3) := by
  subst hzero
  rw [capacityWalk_of_fields hinfo k hlen hrem hfull hdesign, Walk.andThen_of_ok (ratio_pos s .soc rem full _ hpos),
    Walk.andThen_of_err (ratio_zero s .soh full _)]

theorem capacityWalk_ok (hfull0 : full ≠ 0) (hdesign0 : design ≠ 0) :
    capacityWalk s k = .ok ⟨capacityOf rem, capacityOf full, capacityOf design,
      BitVec.ofNat 30 (pct s.cfg.roundTie rem full), BitVec.ofNat 30 (pct s.cfg.roundTie full design)⟩ (atField k 3) := by
  rw [capacityWalk_of_fields hinfo k hlen hrem hfull hdesign, Walk.andThen_of_ok (ratio_pos s .soc rem full _ hfull0),
    Walk.andThen_of_ok (ratio_pos s .soh full design _ hdesign0), Walk.done_apply]

end

theorem exec_decCapacity_of_err {s : State} {e : OpError} {k : Work} (hwalk : capacityWalk s s.work = .err e k) :
    exec .decCapacity s = .next { s with cap := none, work := k, status := errStatus e } := by
  rw [exec, execDecCapacity, hwalk]
  rfl

theorem exec_decCapacity_of_ok {s : State} {g : CapGroup} {k : Work} (hwalk : capacityWalk s s.work = .ok g k) :
    exec .decCapacity s = .next { s with cap := some g, work := k, status := okStatus } := by
  rw [exec, execDecCapacity, hwalk]
  rfl

/-- Settles O34: the reads in field order, then the two divisors; a raw value has four digits, so each result fits its
register. -/
theorem decCapacityReadsThreeFields : Obligations.DecCapacityReadsThreeFields := by
  intro s t hinfo field fails
  refine ⟨fun j code hcode hbefore hj => ?_, fun hlen rem full design hrem hfull hdesign =>
    ⟨fun hzero => ?_, fun hpos hzero => ?_, fun hfull0 hdesign0 => ?_⟩⟩
  · obtain ⟨⟨_, f⟩, hf, ⟨⟩⟩ : ∃ p ∈ capacityFields, (p.1, fieldCode p.2) = (j, code) := List.mem_map.mp hcode
    have hraise {e : OpError} {k : Work} := capacityWalk_of_readField_err hinfo s.work f hf hj hbefore (e := e) (k' := k)
    exact ⟨fun hshort => ⟨_, exec_decCapacity_of_err (hraise (readField_atField_overrun hinfo _ f hj hshort))⟩,
      fun hlong hbad => ⟨_, exec_decCapacity_of_err (hraise (readField_atField_badHex hinfo _ f hlong hbad))⟩⟩
  · exact ⟨_, exec_decCapacity_of_err (capacityWalk_socDivZero hinfo _ hlen hrem hfull hdesign hzero)⟩
  · exact ⟨_, exec_decCapacity_of_err (capacityWalk_sohDivZero hinfo _ hlen hrem hfull hdesign hpos hzero)⟩
  · have hscaled {raw : Nat} (h : raw < 65536) : (capacityOf raw).toNat = 10 * raw :=
      (capacityOf_toNat raw h).trans (Nat.mul_comm _ _)
    have hremLt := hexToInt_take_four_lt hrem
    have hfullLt := hexToInt_take_four_lt hfull
    exact ⟨_, _, exec_decCapacity_of_ok (capacityWalk_ok hinfo _ hlen hrem hfull hdesign hfull0 hdesign0),
      hscaled hremLt, hscaled hfullLt, hscaled (hexToInt_take_four_lt hdesign),
      pct_register _ _ _ hremLt (Nat.pos_of_ne_zero hfull0), pct_register _ _ _ hfullLt (Nat.pos_of_ne_zero hdesign0)⟩

end Sys2Proof.Proofs
end

section
/-! Every operation ends (60_exceptions.md R260). A part of an operation that reads its buffers only below their lengths has
no stop, so it ends with a value or an error of the code tables; the operation's end turns either into a `STATUS` of R261. -/

namespace Sys2Proof.Proofs

open Sys2Proof Sys2Proof.Machine

/-! Every error the frame and checksum operations raise is in the code tables; a `DecodeError` is so for some fields only. -/

theorem errLegal_framing (d : FramingDetail) : ErrLegal (.framing d) := by cases d <;> decide

theorem errLegal_checksum (d : ChecksumDetail) : ErrLegal (.checksum d) := by cases d <;> decide

theorem errLegal_protocol (r : RtnCode) : ErrLegal (.protocol r) := by cases r <;> decide

theorem errLegal_encode (d : EncodeDetail) : ErrLegal (.encode d) := by cases d <;> decide

/-- R270: an error leaves `BUSY = 0` and `DONE = 1`. -/
theorem errStatus_busy_done (e : OpError) : (errStatus e).busy = false ∧ (errStatus e).done = true := by
  cases e <;> exact ⟨rfl, rfl⟩

/-! How an operation ends. -/

/-- The outcome is a next state, idle and done, with an outcome of the code tables in `STATUS` (R260). -/
def EndsLegally (o : Host.Outcome State Fault Refusal) : Prop :=
  ∃ t, o = .next t ∧ t.status.busy = false ∧ t.status.done = true ∧
    outcomeLegal t.status.kind.toNat t.status.detail.toNat t.status.field.toNat = true

/-- From any working registers a part of an operation ends with a value or an error of the code tables, never with a stop. -/
abbrev Ends {α : Type} (m : Walk α) : Prop := m.Sat (fun _ => True) (fun _ _ => True) (fun e _ => ErrLegal e) False

theorem endsLegally_raiseErr (g : Group) {e : OpError} (he : ErrLegal e) (s : State) :
    EndsLegally (.next (raiseErr g e s)) := by
  obtain ⟨hbusy, hdone⟩ := errStatus_busy_done e
  exact ⟨_, rfl, by rwa [raiseErr_status], by rwa [raiseErr_status], by rwa [raiseErr_status]⟩

/-- R270, R271: what a part that ends makes of its operation, when writing the group leaves `STATUS` alone. -/
theorem endsLegally_conclude {α : Type} {m : Walk α} (hm : Ends m) {g : Group} {s : State} {k : Work}
    {commit : α → State → State} (hcommit : ∀ a t, (commit a t).status = t.status := by intros; rfl) :
    EndsLegally (conclude g s (m k) commit) := by
  rcases conclude_cases g s (m k) commit with ⟨a, k', -, hc⟩ | ⟨e, k', hmk, hc⟩ | ⟨f, hmk, -⟩
  · have hst := hcommit a (finishOk { s with work := k' })
    rw [finishOk_status] at hst
    exact ⟨_, hc, by rw [hst]; rfl, by rw [hst]; rfl, by rw [hst]; decide⟩
  · rw [hc]
    exact endsLegally_raiseErr g (hm.err trivial hmk) _
  · exact (hm.fault trivial hmk).elim

/-! The parts of the operations end. -/

theorem ends_done {α : Type} (a : α) : Ends (Walk.done a) := fun _ _ => trivial

theorem ends_raise {α : Type} {e : OpError} (he : ErrLegal e) : Ends (Walk.raise e : Walk α) := fun _ _ => he

/-- R141: the empty buffer is the one error of `ChksumCalc`. -/
theorem ends_chksumCalc (t : Text) : Ends (chksumCalc t) := by
  cases t with
  | nil => exact ends_raise (errLegal_encode .emptyBuffer)
  | cons o t => exact fun k _ => by rw [chksumCalc_cons]; trivial

/-- A buffer of the invariant has a value at every position below its length (R294). -/
theorem readable_of_bufferInv {b : Buffer} {s : State} (h : BufferInv b s) : Readable b s := by
  obtain ⟨-, -, -, hread⟩ := h
  exact (readable_iff b s).mpr fun i hi => by rw [octetAt, if_pos hi]; exact hread i hi

theorem ends_fetchText {b : Buffer} {s : State} (hb : Readable b s) {a n : Nat} (hn : a + n ≤ bufLen b s) :
    Ends (fetchText b s a n) := fun k _ => by
  obtain ⟨t, ht⟩ := hb.memRead a n hn
  rw [fetchText_ok b s a n t k ht]
  trivial

/-- R150: the LENID of a request has digits or not; below its length INFO is read whole. -/
theorem ends_encodeReqWalk {s : State} (hinfo : Readable .info s) : Ends (encodeReqWalk s) := by
  unfold encodeReqWalk
  split
  · exact ends_raise (errLegal_encode .badLenid)
  · exact (ends_fetchText hinfo (Nat.zero_add _).le).andThen fun info => (ends_chksumCalc _).andThen fun r => ends_done _

section
variable {s : State} (hraw : Readable .raw s)
include hraw

theorem ends_fetchRaw {i : Nat} (hi : i < s.rawLen.toNat) : Ends (fetchRaw s i) := fun k _ => by
  obtain ⟨o, ho⟩ := Option.isSome_iff_exists.mp ((readable_iff .raw s).mp hraw i hi)
  rw [fetchRaw, ho]
  trivial

/-- R155 to R157: the length test stands before the reads it bounds. -/
theorem ends_respInfo (n : Nat) : Ends (respInfo s n) := by
  unfold respInfo
  split
  · exact ends_raise (errLegal_framing .truncated)
  · next hlong =>
    have hlen : 13 + n + 5 ≤ bufLen .raw s := Nat.not_lt.mp hlong
    refine (ends_fetchText hraw (by omega)).andThen fun info => (ends_fetchText hraw (by omega)).andThen fun rx =>
      (ends_fetchText hraw (by simp only [bufLen]; omega)).andThen fun summed => (ends_chksumCalc summed).andThen fun r => ?_
    split
    · exact ends_raise (errLegal_checksum .chksum)
    · exact ends_done info

/-- R153, R154: of a frame that passed step 1, RTN, LENID and LCHKSUM. -/
theorem ends_respTail (hlen : 13 ≤ s.rawLen.toNat) (rtn : Chars2) : Ends (respTail s rtn) := by
  unfold respTail
  split
  · exact ends_raise (errLegal_protocol _)
  · refine (ends_fetchText hraw (show 10 + 3 ≤ s.rawLen.toNat by omega)).andThen fun lenid => ?_
    split
    · refine (ends_fetchRaw hraw (by omega)).andThen fun o => ?_
      split
      · exact ends_raise (errLegal_checksum .lchksum)
      · exact ends_respInfo hraw _
    · exact ends_raise (errLegal_framing .badLenid)

/-- R152: step 1 rejects the frame, or it has the thirteen octets the later steps read. -/
theorem endsLegally_exec_decodeResp : EndsLegally (exec .decodeResp s) := by
  obtain ⟨buf, hbuf⟩ := hraw
  have rejects {e : OpError} (he : ErrLegal e) (hhead : respHead s s.work = .err e s.work) :
      EndsLegally (exec .decodeResp s) := by
    rw [exec, execDecodeResp, hhead]
    exact endsLegally_raiseErr .resp he _
  by_cases hsoi : buf.head? = some soi
  · rcases Nat.lt_or_ge buf.length 13 with hlen | hlen
    · exact rejects (errLegal_framing _) (respHead_truncated hbuf hsoi hlen s.work)
    · rw [exec_decodeResp_of_head (respHead_ok hbuf hsoi hlen s.work)]
      exact endsLegally_conclude (ends_respTail ⟨buf, hbuf⟩ (rawLen_of_bufText hbuf ▸ hlen) _)
  · exact rejects (errLegal_framing _) (respHead_badSoi hbuf hsoi s.work)

end

section
variable {s : State} (hinfo : Readable .info s)
include hinfo

theorem ends_readPairs {a n : Nat} (hn : a + n ≤ s.infoLen.toNat) {f : FieldId} (hf : ErrLegal (.decode .badHex f)) :
    Ends (readPairs s a n f) := by
  refine (ends_fetchText hinfo hn).andThen fun t => ?_
  split
  · exact ends_raise hf
  · exact ends_done _

theorem ends_versionWalk : Ends (versionWalk s) := by
  unfold versionWalk
  split
  · exact ends_raise (by decide)
  · exact ends_readPairs hinfo (Nat.zero_add _).le (by decide)

/-- R183: each length test stands before the range it bounds. -/
theorem ends_serialWalk : Ends (serialWalk s) := by
  unfold serialWalk
  split
  · exact ends_raise (by decide)
  · refine (ends_readPairs hinfo (by omega) (by decide)).andThen fun b => ?_
    split
    · exact ends_raise (by decide)
    · exact (ends_readPairs hinfo (by omega) (by decide)).andThen fun p => ends_done _

/-- A cursor walk whose only stop is on an INFO octet without a value has none here. -/
theorem ends_of_kept {α : Type} {m : Walk α} {I : Work → Prop} {Q : α → Work → Prop}
    (h : m.Sat (fun _ => True) Q (ErrKept I) (¬ Readable .info s)) : Ends m :=
  h.weaken (fun _ _ => trivial) (fun _ _ _ => trivial) (fun _ _ he => he.2) fun hstop => hstop hinfo

end

/-- R24: the cursor within INFO is a condition the walk of `DEC_ANALOG`, and so every cursor walk, keeps. -/
theorem keptAnalog_cursor (s : State) : KeptAnalog s fun k => k.cur.toNat ≤ s.infoLen.toNat where
  cur _ h := h
  adv k n _ hn := (advance_cur n k (by omega)).trans_le hn
  packs _ _ h := h
  p _ _ h := h
  cells _ _ h := h
  temps _ _ h := h
  prev _ _ h := h
  volt b _ _ h := by cases b <;> exact h

/-- Every operation over buffers that have a value below their lengths ends. -/
theorem endsLegally_exec {s : State} (hraw : Readable .raw s) (hinfo : Readable .info s) (i : Instr) :
    EndsLegally (exec i s) := by
  have hkept := keptAnalog_cursor s
  cases i with
  | chksumCalc =>
    rw [exec, execChksumCalc]
    exact endsLegally_conclude ((ends_fetchText hraw (Nat.zero_add _).le).andThen ends_chksumCalc)
  | lchksumCalc =>
    cases hsum : digitSum s.cfg.hexLower s.larg.toList with
    | none =>
      rw [exec_lchksumCalc_of_none hsum]
      exact endsLegally_raiseErr .lck (errLegal_encode .badLenid) s
    | some n =>
      rw [exec_lchksumCalc_of_digitSum hsum]
      exact ⟨_, rfl, rfl, rfl, rfl⟩
  | encodeReq =>
    rw [exec, execEncodeReq]
    exact endsLegally_conclude (ends_encodeReqWalk hinfo)
  | decodeResp => exact endsLegally_exec_decodeResp hraw
  | decVersion =>
    rw [exec, execDecVersion]
    exact endsLegally_conclude (ends_versionWalk hinfo)
  | decSerial =>
    rw [exec, execDecSerial]
    exact endsLegally_conclude (ends_serialWalk hinfo)
  | decAnalog =>
    rw [exec, execDecAnalog]
    exact endsLegally_conclude (ends_of_kept hinfo (analogWalk_kept hkept fun _ _ => Nat.zero_le _))
  | decCapacity =>
    rw [exec, execDecCapacity]
    exact endsLegally_conclude (ends_of_kept hinfo (capacityWalk_kept hkept.toKept fun _ _ => Nat.zero_le _))
  | decWarn =>
    rw [exec, execDecWarn]
    exact endsLegally_conclude (ends_of_kept hinfo (warnWalk_kept hkept.toKept fun _ _ => Nat.zero_le _))

/-- R100: the code of an operation selects it. -/
theorem decode_encode_eq_ok (i : Instr) : decode (encode i) = .ok i := by cases i <;> rfl

/-- The write of `OP` and the start leave a readable buffer readable. -/
theorem readable_startOp_withOp {b : Buffer} {s : State} (hb : Readable b s) (v : BitVec 4) :
    Readable b (startOp { s with op := v }) := by
  obtain ⟨t, ht⟩ := hb
  exact ⟨t, (bufText_startOp_withOp b s v).trans ht⟩

/-- Settles O4: the invariant makes both buffers readable, so the operation ends; the start runs it on the same buffers. -/
theorem everyOperationEndsInOkOrOneError : Obligations.EveryOperationEndsInOkOrOneError := by
  intro s i hinv
  have hraw := readable_of_bufferInv hinv.raw
  have hinfo := readable_of_bufferInv hinv.info
  refine ⟨endsLegally_exec hraw hinfo i, ?_⟩
  obtain ⟨hidle, -⟩ := hinv.status
  obtain ⟨t, ht, -⟩ :=
    endsLegally_exec (readable_startOp_withOp hraw (encode i)) (readable_startOp_withOp hinfo (encode i)) i
  exact ⟨t, (step_withOp hidle (decode_encode_eq_ok i)).trans ht⟩

end Sys2Proof.Proofs
end

section
/-! The operations as a walk and its end (60_exceptions.md R270, R271): one equation per operation, and for `DECODE_RESP`, whose
end is in two parts (41_frame_codec.md R153), the two ways it can have a next state. -/

namespace Sys2Proof.Proofs

open Sys2Proof Sys2Proof.Machine

theorem exec_chksumCalc (s : State) :
    exec .chksumCalc s = conclude .ck s (((fetchText .raw s 0 s.rawLen.toNat).andThen chksumCalc) s.work)
      fun r t => { t with ck := some ⟨BitVec.ofNat 16 r.1, chars4Of r.2⟩ } := rfl

theorem exec_encodeReq (s : State) :
    exec .encodeReq s = conclude .frame s (encodeReqWalk s s.work) (putText .raw) := rfl

theorem exec_decVersion (s : State) :
    exec .decVersion s = conclude .idVer s (versionWalk s s.work)
      fun v t => { t with idVer := some ⟨v, BitVec.ofNat 11 (s.infoLen.toNat / 2)⟩ } := rfl

theorem exec_decSerial (s : State) :
    exec .decSerial s = conclude .idSn s (serialWalk s s.work)
      fun r t => { t with idSn := some ⟨r.1, BitVec.ofNat 4 r.1.length, r.2, BitVec.ofNat 4 r.2.length⟩ } := rfl

theorem exec_decAnalog (s : State) :
    exec .decAnalog s = conclude .analog s (analogWalk s s.work) fun g t => { t with analog := some g } := rfl

theorem exec_decCapacity (s : State) :
    exec .decCapacity s = conclude .cap s (capacityWalk s s.work) fun g t => { t with cap := some g } := rfl

theorem exec_decWarn (s : State) :
    exec .decWarn s = conclude .warn s (warnWalk s s.work) fun g t => { t with warn := some g } := rfl

theorem exec_decodeResp_of_head_err {s : State} {e : OpError} {k : Work} (hhead : respHead s s.work = .err e k) :
    exec .decodeResp s = .next (raiseErr .resp e { s with work := k }) := by
  rw [exec, execDecodeResp, hhead]

theorem exec_decodeResp_of_head_fault {s : State} {f : Fault} (hhead : respHead s s.work = .fault f) :
    exec .decodeResp s = .fault f := by
  rw [exec, execDecodeResp, hhead]

/-- R151, R153: the head of the frame is rejected, or the RTN pair is latched and the rest decides. -/
theorem exec_decodeResp_next {s t : State} (h : exec .decodeResp s = .next t) :
    (∃ e k, respHead s s.work = .err e k ∧ t = raiseErr .resp e { s with work := k }) ∨
    ∃ rtn k, respHead s s.work = .ok rtn k ∧
      conclude .resp { s with rtnLatch := rtn } (respTail s rtn k) (putText .info) = .next t := by
  cases hhead : respHead s s.work with
  | ok rtn k => exact .inr ⟨rtn, k, rfl, (exec_decodeResp_of_head hhead).symm.trans h⟩
  | err e k =>
    rw [exec_decodeResp_of_head_err hhead] at h
    cases h
    exact .inl ⟨e, k, rfl, rfl⟩
  | fault f =>
    rw [exec_decodeResp_of_head_fault hhead] at h
    cases h

end Sys2Proof.Proofs
end

section
/-! The invariant of the block (10_state.md sections 2, 4, 5). It is one condition on `STATUS` and one on each result group;
an operation writes `STATUS` and its own group, so those two are all a step has to show. -/

namespace Sys2Proof.Proofs

open Sys2Proof Sys2Proof.Machine Sys2Proof.Claims

/-- What the invariant asks of one result group (R25, R26, R31 to R36). -/
def GroupInv (g : Group) (s : State) : Prop :=
  match g with
  | .ck => ∀ v, s.ck = some v → CkInv v
  | .lck => ∀ v, s.lck = some v → LckInv v
  | .frame => BufferInv .raw s
  | .resp => BufferInv .info s
  | .idVer => ∀ v, s.idVer = some v → VersionInv v
  | .idSn => ∀ v, s.idSn = some v → SerialInv v
  | .analog => ∀ v, s.analog = some v → AnalogInv s.cfg.roundTie v
  | .cap => ∀ v, s.cap = some v → CapacityInv s.cfg.roundTie v.rem v.full v.design v.soc v.soh
  | .warn => ∀ v, s.warn = some v → WarnInv s.cfg.boolMap v

theorem inv_iff (s : State) : s.Inv ↔ StatusInv s.status ∧ ∀ g, GroupInv g s := by
  constructor
  · intro h
    refine ⟨h.status, fun g => ?_⟩
    cases g with
    | ck => exact h.ck
    | lck => exact h.lck
    | frame => exact h.raw
    | resp => exact h.info
    | idVer => exact h.idVer
    | idSn => exact h.idSn
    | analog => exact h.analog
    | cap => exact h.cap
    | warn => exact h.warn
  · rintro ⟨hst, h⟩
    exact ⟨h .frame, h .resp, hst, h .ck, h .lck, h .idVer, h .idSn, h .analog, h .cap, h .warn⟩

/-- A group that is left alone keeps its condition. -/
theorem groupInv_congr {g : Group} {s t : State} (hsame : SameGroup g s t) (hcfg : t.cfg = s.cfg) (h : GroupInv g s) :
    GroupInv g t := by
  cases g with
  | ck | lck | idVer | idSn =>
    intro v hv
    exact h v (hsame.symm.trans hv)
  | analog | cap | warn =>
    intro v hv
    rw [hcfg]
    exact h v (hsame.symm.trans hv)
  | frame | resp =>
    obtain ⟨hmem, hlen⟩ := hsame
    simpa only [GroupInv, BufferInv, bufMem, bufLen, hmem, hlen] using h

/-- R30, R32: a group that has just been made invalid meets its condition. -/
theorem groupInv_invalidate (g : Group) (s : State) : GroupInv g (invalidate g s) := by
  cases g with
  | ck | lck | idVer | idSn | analog | cap | warn => exact fun _ hv => nomatch hv
  | frame | resp => exact ⟨Memory.empty_wf, nofun, Nat.zero_le _, fun i hi => absurd hi (Nat.not_lt_zero i)⟩

theorem ofText_position_lt {t : Text} {c : Host.Cell} (h : c ∈ Memory.ofText t) : c.1 < t.length := by
  have := Memory.cellsFrom_bounds 0 t c h
  omega

/-- R25, R26: a text that fits makes a buffer in good order. -/
theorem bufferInv_putText {b : Buffer} {t : Text} (h : t.length ≤ bufMax b) (s : State) : BufferInv b (putText b t s) := by
  rw [BufferInv, bufMem_putText, bufLen_putText h]
  refine ⟨Memory.ofText_wf t, fun c hc => (ofText_position_lt hc).trans_le h, h, fun i hi => ?_⟩
  rw [Memory.read_ofText, List.getElem?_eq_getElem hi]
  rfl

/-! What each operation writes to its group on `Ok`. -/

/-- The group written at a successful end meets its condition, when the values the walk can give do. -/
theorem groupInv_of_conclude {α : Type} {m : Walk α} {φ : α → Prop} {E : OpError → Work → Prop} {F : Prop} {g : Group}
    {s t : State} {k : Work} {commit : α → State → State} (hm : m.Sat (fun _ => True) (fun a _ => φ a) E F)
    (hcommit : ∀ a k, φ a → GroupInv g (commit a (finishOk { s with work := k })))
    (h : conclude g s (m k) commit = .next t) : GroupInv g t := by
  rcases conclude_next h with ⟨a, k', hmk, rfl⟩ | ⟨e, k', -, rfl⟩
  · exact hcommit a k' (hm.ok trivial hmk)
  · exact groupInv_invalidate g _

theorem sat_fetchText (b : Buffer) (s : State) (a n : Nat) :
    (fetchText b s a n).Sat (fun _ => True) (fun t _ => t.length = n) (fun _ _ => True) True := fun k _ => by
  rcases fetchText_cases b s a n k with ⟨t, hread, hfetch⟩ | ⟨f, -, hfetch⟩ <;> rw [hfetch]
  · exact memRead_length b s a n t hread
  · trivial

theorem sat_fetchRaw (s : State) (i : Nat) :
    (fetchRaw s i).Sat (fun _ => True) (fun _ _ => True) (fun _ _ => True) True := fun k _ => by
  rw [fetchRaw]
  cases octetAt .raw s i <;> trivial

/-- R140: value and text of `ChksumCalc` belong together. -/
theorem sat_chksumCalc {P : Work → Prop} (t : Text) :
    (chksumCalc t).Sat P (fun r _ => ∃ u, r = (chksumVal u, chksumTxt u)) (fun _ _ => True) True := by
  cases t with
  | nil => exact Walk.sat_raise _ _ _ _ _ fun _ _ => trivial
  | cons o t => exact fun k _ => by rw [chksumCalc_cons]; exact ⟨_, rfl⟩

theorem ckInv_of_chksum (u : Text) : CkInv ⟨BitVec.ofNat 16 (chksumVal u), chars4Of (chksumTxt u)⟩ := by
  rw [CkInv, chars4Of_toList _ (chksumTxt_length u), toNat_ofNat_of_lt (chksumVal_lt u)]
  rfl

/-- R155: INFO of an accepted frame has the length its length word says. -/
theorem sat_respInfo (s : State) (n : Nat) {P : Work → Prop} :
    (respInfo s n).Sat P (fun info _ => info.length = n) (fun _ _ => True) True := by
  unfold respInfo
  split
  · exact Walk.sat_raise _ _ _ _ _ fun _ _ => trivial
  · refine ((sat_fetchText .raw s 13 n).pre fun _ _ => trivial).andThen fun info => ?_
    refine Walk.Sat.pre (P := fun _ => True ∧ info.length = n) (Walk.Sat.of_fact fun hn => ?_) fun _ h => ⟨trivial, h⟩
    refine ((sat_fetchText .raw s (13 + n) 4).andThen fun rx =>
      ((sat_fetchText .raw s 0 _).pre fun _ _ => trivial).andThen fun summed => (sat_chksumCalc summed).andThen fun r => ?_)
    split
    · exact Walk.sat_raise _ _ _ _ _ fun _ _ => trivial
    · exact Walk.sat_value _ (fun _ _ => hn) _ _

/-- R154: a length word has three digits, so INFO fits its buffer. -/
theorem sat_respTail (s : State) (rtn : Chars2) :
    (respTail s rtn).Sat (fun _ => True) (fun info _ => info.length ≤ bufMax .info) (fun _ _ => True) True := by
  unfold respTail
  split
  · exact Walk.sat_raise _ _ _ _ _ fun _ _ => trivial
  · refine (sat_fetchText .raw s 10 3).andThen fun lenid => ?_
    refine Walk.Sat.pre (P := fun _ => True ∧ lenid.length = 3) (Walk.Sat.of_fact fun hlen => ?_) fun _ h => ⟨trivial, h⟩
    split
    · next r n _ hn =>
      have hlt := hexToInt_lt _ _ _ hn
      rw [hlen] at hlt
      refine (sat_fetchRaw s 9).andThen fun o => ?_
      split
      · exact Walk.sat_raise _ _ _ _ _ fun _ _ => trivial
      · exact (sat_respInfo s n).post fun info _ h => by rw [h, bufMax, infoMax]; omega
    · exact Walk.sat_raise _ _ _ _ _ fun _ _ => trivial

/-- R124: two characters make one octet. -/
theorem sat_readPairs (s : State) (a n : Nat) (f : FieldId) {P : Work → Prop} :
    (readPairs s a n f).Sat P (fun v _ => 2 * v.length = n) (fun _ _ => True) True := by
  refine ((sat_fetchText .info s a n).pre fun _ _ => trivial).andThen fun t => ?_
  split
  · exact Walk.sat_raise _ _ _ _ _ fun _ _ => trivial
  · next v hv => exact Walk.sat_value _ (fun _ hlen => (hexPairs_length hv).trans hlen) _ _

theorem sat_versionWalk (s : State) :
    (versionWalk s).Sat (fun _ => True) (fun v _ => 2 * v.length = s.infoLen.toNat) (fun _ _ => True) True := by
  unfold versionWalk
  split
  · exact Walk.sat_raise _ _ _ _ _ fun _ _ => trivial
  · exact sat_readPairs s 0 _ _

theorem not_mem_removeSpaces (t : Text) : (0x20#8) ∉ removeSpaces t := by simp [removeSpaces]

theorem removeSpaces_length_le (t : Text) : (removeSpaces t).length ≤ t.length := List.length_filter_le _ _

/-- R183, R184: 30 and 28 characters make at most 15 and 14 octets. -/
theorem serialInv_of_octets {b p : Text} (hb : 2 * b.length = 30) (hp : 2 * p.length = 28) :
    SerialInv ⟨removeSpaces b, BitVec.ofNat 4 (removeSpaces b).length, removeSpaces p,
      BitVec.ofNat 4 (removeSpaces p).length⟩ := by
  have hbLen := removeSpaces_length_le b
  have hpLen := removeSpaces_length_le p
  exact ⟨toNat_ofNat_of_lt (by omega), toNat_ofNat_of_lt (by omega), by simp only; omega, by simp only; omega,
    not_mem_removeSpaces b, not_mem_removeSpaces p⟩

theorem sat_serialWalk (s : State) :
    (serialWalk s).Sat (fun _ => True)
      (fun r _ => SerialInv ⟨r.1, BitVec.ofNat 4 r.1.length, r.2, BitVec.ofNat 4 r.2.length⟩) (fun _ _ => True) True := by
  unfold serialWalk
  split
  · exact Walk.sat_raise _ _ _ _ _ fun _ _ => trivial
  · refine (sat_readPairs s 0 30 _).andThen fun b => ?_
    refine Walk.Sat.pre (P := fun _ => True ∧ 2 * b.length = 30) (Walk.Sat.of_fact fun hb => ?_) fun _ h => ⟨trivial, h⟩
    split
    · exact Walk.sat_raise _ _ _ _ _ fun _ _ => trivial
    · refine (sat_readPairs s 40 28 _).andThen fun p => ?_
      exact Walk.sat_value _ (fun _ hp => serialInv_of_octets hb hp) _ _

/-- An operation's own group meets its condition after it. -/
theorem groupInv_exec_own {i : Instr} {s t : State} (hinfo : Readable .info s) (h : exec i s = .next t) :
    GroupInv (groupOf i) t := by
  have hkept := keptAnalog_cursor s
  have hstart : ∀ k : Work, True → ({ k with cur := 0 } : Work).cur.toNat ≤ s.infoLen.toNat := fun _ _ => Nat.zero_le _
  cases i with
  | chksumCalc =>
    rw [exec_chksumCalc] at h
    refine groupInv_of_conclude ((sat_fetchText .raw s 0 _).andThen fun u => sat_chksumCalc u) (fun r k hr => ?_) h
    rintro _ ⟨⟩
    obtain ⟨u, rfl⟩ := hr
    exact ckInv_of_chksum u
  | lchksumCalc =>
    cases hsum : digitSum s.cfg.hexLower s.larg.toList with
    | none =>
      rw [exec_lchksumCalc_of_none hsum] at h
      cases h
      exact groupInv_invalidate .lck _
    | some n =>
      rw [exec_lchksumCalc_of_digitSum hsum] at h
      cases h
      rintro _ ⟨⟩
      exact congrArg hexChar (toNat_ofNat_of_lt (show negated4 n < 2 ^ 4 from Nat.mod_lt _ (by decide))).symm
  | encodeReq =>
    obtain ⟨info, htext⟩ := hinfo
    cases hlchk : reqLchksum s.cfg.hexLower (reqLenid s) with
    | none =>
      rw [exec_encodeReq_badLenid hlchk] at h
      cases h
      exact groupInv_invalidate .frame _
    | some lchk =>
      obtain ⟨k, hexec⟩ := exec_encodeReq_ok htext hlchk
      rw [hexec] at h
      cases h
      exact bufferInv_putText (reqFrame_length_le htext lchk) _
  | decodeResp =>
    obtain ⟨e, k, -, rfl⟩ | ⟨rtn, k, -, h⟩ := exec_decodeResp_next h
    · exact groupInv_invalidate .resp _
    · exact groupInv_of_conclude (sat_respTail s rtn) (fun info k hlen => bufferInv_putText hlen _) h
  | decVersion =>
    rw [exec_decVersion] at h
    refine groupInv_of_conclude (sat_versionWalk s) (fun v k hv => ?_) h
    rintro _ ⟨⟩
    have hmax := s.infoLen.isLt
    exact (toNat_ofNat_of_lt (by omega)).trans (show s.infoLen.toNat / 2 = v.length by omega)
  | decSerial =>
    rw [exec_decSerial] at h
    refine groupInv_of_conclude (sat_serialWalk s) (fun r k hr => ?_) h
    rintro _ ⟨⟩
    exact hr
  | decAnalog =>
    rw [exec_decAnalog] at h
    refine groupInv_of_conclude ((analogWalk_kept hkept hstart).post fun _ _ hg => hg.2) (fun g k hg => ?_) h
    rintro _ ⟨⟩
    exact hg
  | decCapacity =>
    rw [exec_decCapacity] at h
    refine groupInv_of_conclude ((capacityWalk_kept hkept.toKept hstart).post fun _ _ hg => hg.2) (fun g k hg => ?_) h
    rintro _ ⟨⟩
    exact hg
  | decWarn =>
    rw [exec_decWarn] at h
    refine groupInv_of_conclude ((warnWalk_kept hkept.toKept hstart).post fun _ _ hg => hg.2) (fun g k hg => ?_) h
    rintro _ ⟨⟩
    exact hg

/-! The step, reset and the host's writes. -/

/-- What an operation does not write: every group but its own, and the parameters. -/
theorem exec_other_groups {i : Instr} {s t : State} (h : exec i s = .next t) :
    t.cfg = s.cfg ∧ ∀ g, g ≠ groupOf i → SameGroup g s t := by
  obtain ⟨l, -, hframe, -⟩ := exec_frame h
  obtain ⟨hcfg, -, -, -, -, -, -, -, -, -, -, -, -, hgroups⟩ := fields_of_invalidate_eq hframe
  exact ⟨hcfg, fun g hg => by have := hgroups g hg; cases g <;> exact this⟩

/-- Every operation keeps the conditions on the groups and ends with a legal `STATUS`. -/
theorem inv_of_exec {i : Instr} {s t : State} (hgroups : ∀ g, GroupInv g s) (h : exec i s = .next t) : t.Inv := by
  have hraw := readable_of_bufferInv (hgroups .frame)
  have hinfo := readable_of_bufferInv (hgroups .resp)
  obtain ⟨u, hu, hbusy, -, hlegal⟩ := endsLegally_exec hraw hinfo i
  obtain rfl : u = t := by
    rw [hu] at h
    cases h
    rfl
  obtain ⟨hcfg, hother⟩ := exec_other_groups h
  refine (inv_iff u).mpr ⟨⟨hbusy, hlegal⟩, fun g => ?_⟩
  by_cases hg : g = groupOf i
  · exact hg ▸ groupInv_exec_own hinfo h
  · exact groupInv_congr (hother g hg) hcfg (hgroups g)

theorem sameGroup_startOp (g : Group) (s : State) : SameGroup g s (startOp s) := by
  cases g with
  | frame | resp => exact ⟨rfl, rfl⟩
  | ck | lck | idVer | idSn | analog | cap | warn => rfl

theorem sameGroup_raiseIllegal (g : Group) (code : BitVec 4) (s : State) : SameGroup g s (raiseIllegal code s) := by
  cases g with
  | frame | resp => exact ⟨rfl, rfl⟩
  | ck | lck | idVer | idSn | analog | cap | warn => rfl

/-- R101: only the codes 0 and 10 to 15 are rejected. -/
theorem reserved_of_decode_error {op code : BitVec 4} (h : decode op = .error (.reservedOp code)) :
    code = op ∧ (op = 0 ∨ 10 ≤ op.toNat) := by
  revert op code
  decide

theorem errLegal_illegalOp {code : BitVec 4} (h : code = 0 ∨ 10 ≤ code.toNat) : ErrLegal (.illegalOp code) := by
  revert code
  decide

/-- Settles O3: the start leaves every group alone; a reserved code then writes a legal `STATUS`, an operation keeps the
invariant. -/
theorem everyStepKeepsInvariant : Obligations.EveryStepKeepsInvariant := by
  intro s t hinv hstep
  obtain ⟨⟨hidle, -⟩, hgroups⟩ := (inv_iff s).mp hinv
  have hstarted : ∀ g, GroupInv g (startOp s) := fun g => groupInv_congr (sameGroup_startOp g s) rfl (hgroups g)
  cases hdec : decode s.op with
  | error r =>
    obtain ⟨code⟩ := r
    rw [step_of_decode_error hidle hdec] at hstep
    cases hstep
    obtain ⟨rfl, hreserved⟩ := reserved_of_decode_error hdec
    obtain ⟨hbusy, -⟩ := errStatus_busy_done (.illegalOp s.op)
    refine (inv_iff _).mpr ⟨⟨hbusy, errLegal_illegalOp hreserved⟩, fun g => ?_⟩
    exact groupInv_congr (sameGroup_raiseIllegal g _ _) rfl (hstarted g)
  | ok i =>
    have hexec : step s = exec i (startOp s) := step_withOp hidle hdec
    exact inv_of_exec hstarted (hexec.symm.trans hstep)

/-- Settles O2: at reset the buffers are empty, `STATUS` is zero and every register group is invalid. -/
theorem invariantHoldsAtReset : Obligations.InvariantHoldsAtReset := by
  intro cfg
  refine (inv_iff _).mpr ⟨⟨rfl, rfl⟩, fun g => ?_⟩
  have hinvalid : invalidate g (State.resetWith cfg) = State.resetWith cfg := by cases g <;> rfl
  exact hinvalid ▸ groupInv_invalidate g (State.resetWith cfg)

theorem bufferInv_congr {b : Buffer} {s t : State} (hmem : bufMem b t = bufMem b s) (hlen : bufLen b t = bufLen b s)
    (h : BufferInv b s) : BufferInv b t := by
  simpa only [BufferInv, hmem, hlen] using h

theorem bufferInv_writeOctet {b : Buffer} {pos : Nat} {s : State} (hpos : pos < bufMax b) (h : BufferInv b s) (v : Octet) :
    BufferInv b (writeOctet b pos v s) := by
  obtain ⟨hwf, hcells, hlen, hread⟩ := h
  rw [BufferInv, bufMem_writeOctet, bufLen_writeOctet]
  refine ⟨Memory.write_wf _ _ _ hwf, fun c hc => ?_, hlen, fun i hi => ?_⟩
  · rcases Memory.mem_write _ _ _ _ hc with rfl | hc
    · exact hpos
    · exact hcells c hc
  · rw [Memory.read_write _ _ _ _ hwf]
    split
    · rfl
    · exact hread i hi

/-- R294: a length within the buffer, every octet below it having a value. -/
theorem bufferInv_writeLength {b : Buffer} {n : Nat} {s : State} (hn : n ≤ bufMax b) (h : BufferInv b s)
    (hduty : ∀ i, i < n → ((bufMem b s).read i).isSome = true) : BufferInv b (writeLength b n s) := by
  obtain ⟨hwf, hcells, -, -⟩ := h
  rw [BufferInv, bufMem_writeLength, bufLen_writeLength hn]
  refine ⟨Memory.truncate_wf _ _ hwf, fun c hc => hcells c (List.mem_of_mem_filter hc), hn, fun i hi => ?_⟩
  rw [Memory.read_truncate, if_pos hi]
  exact hduty i hi

/-- The invariant sees nothing a host writes but the buffers. -/
theorem inv_of_host_fields {s t : State} (hinv : s.Inv) (hbuf : ∀ b, BufferInv b t)
    (ht : t = { s with
      op := t.op, ver := t.ver, adr := t.adr, cid1 := t.cid1, cid2 := t.cid2, lenidOvrEn := t.lenidOvrEn,
      lenidOvr := t.lenidOvr, larg := t.larg, raw := t.raw, rawLen := t.rawLen, info := t.info, infoLen := t.infoLen }) :
    t.Inv where
  raw := hbuf .raw
  info := hbuf .info
  status := by rw [ht]; exact hinv.status
  ck := by rw [ht]; exact hinv.ck
  lck := by rw [ht]; exact hinv.lck
  idVer := by rw [ht]; exact hinv.idVer
  idSn := by rw [ht]; exact hinv.idSn
  analog := by rw [ht]; exact hinv.analog
  cap := by rw [ht]; exact hinv.cap
  warn := by rw [ht]; exact hinv.warn

theorem bufferInv_of_inv {s : State} (h : s.Inv) (b : Buffer) : BufferInv b s := by
  cases b
  · exact h.raw
  · exact h.info

/-- Settles O57: the buffer written stays in good order, the other one and every register the invariant reads stay as they
are. -/
theorem hostWritesKeepInvariant : Obligations.HostWritesKeepInvariant := by
  intro w s t hinv hwrite hduty
  obtain ⟨-, h⟩ := hostWrite_next hwrite
  rcases h with ⟨b, pos, v, -, hpos, rfl⟩ | ⟨b, n, hw, hn, rfl⟩ | ⟨b, x, -, hx, rfl⟩ | ht
  · refine inv_of_host_fields hinv (fun b' => ?_) (by cases b <;> rfl)
    obtain rfl | hb := eq_or_ne b' b
    · exact bufferInv_writeOctet hpos (bufferInv_of_inv hinv b') v
    · exact bufferInv_congr (bufMem_writeOctet_other hb pos v s) (bufLen_writeOctet b b' pos v s) (bufferInv_of_inv hinv b')
  · refine inv_of_host_fields hinv (fun b' => ?_) (by cases b <;> rfl)
    obtain rfl | hb := eq_or_ne b' b
    · exact bufferInv_writeLength hn (bufferInv_of_inv hinv b') (hduty b' n hw)
    · obtain ⟨hmem, hlen⟩ := bufMem_writeLength_other hb n s
      exact bufferInv_congr hmem hlen (bufferInv_of_inv hinv b')
  · refine inv_of_host_fields hinv (fun b' => ?_) (by cases b <;> rfl)
    obtain rfl | hb := eq_or_ne b' b
    · exact bufferInv_putText hx s
    · obtain ⟨hmem, hlen⟩ := bufMem_putText_other hb x s
      exact bufferInv_congr hmem hlen (bufferInv_of_inv hinv b')
  · refine inv_of_host_fields hinv (fun b' => ?_) (by rw [ht])
    exact bufferInv_congr (by rw [ht]; cases b' <;> rfl) (by rw [ht]; cases b' <;> rfl) (bufferInv_of_inv hinv b')

end Sys2Proof.Proofs
end

section
/-! Rules of the whole block: what an operation leaves unchanged, what an error writes, which working registers move
(10_state.md sections 3 to 5; 60_exceptions.md section 3). -/

namespace Sys2Proof.Proofs

open Sys2Proof Sys2Proof.Machine Sys2Proof.Claims

/-- R261: `KIND` tells the two ends of an operation apart. -/
theorem exec_end_of_kind {i : Instr} {s t : State} (h : exec i s = .next t) :
    (t.status.kind = 0 → GroupValid (groupOf i) t) ∧
    (t.status.kind ≠ 0 → GroupInvalid (groupOf i) t ∧ t = invalidate (groupOf i) t ∧
      t.status.busy = false ∧ t.status.done = true) := by
  obtain ⟨l, -, -, hend⟩ := exec_frame h
  rcases hend with ⟨hst, hvalid⟩ | ⟨e, hst, hinvalid, hempty⟩
  · exact ⟨fun _ => hvalid, fun hkind => absurd (by rw [hst]; rfl) hkind⟩
  · refine ⟨fun hkind => absurd (hst ▸ hkind) (errStatus_kind_ne_zero e), fun _ => ⟨hinvalid, hempty, ?_⟩⟩
    rw [hst]
    exact errStatus_busy_done e

/-- R40: no group holds a value at reset. -/
theorem groupInvalid_reset (g : Group) (cfg : Params) : GroupInvalid g (State.resetWith cfg) := by
  cases g with
  | frame | resp => exact ⟨rfl, fun _ => rfl⟩
  | ck | lck | idVer | idSn | analog | cap | warn => rfl

theorem hostReadOctet_of_none {b : Buffer} {pos : Nat} {t : State} (hidle : t.status.busy = false)
    (hnone : octetAt b t pos = none) : hostReadOctet b pos t = .error (.noOctet b pos) := by
  simp [hostReadOctet, hidle, hnone]

/-- Settles O37: the two ends of an operation, and the fault of each host read of what has no value. -/
theorem groupsAreWrittenWholeOrInvalid : Obligations.GroupsAreWrittenWholeOrInvalid := by
  intro i s t h
  obtain ⟨hok, herr⟩ := exec_end_of_kind h
  obtain ⟨-, hother⟩ := exec_other_groups h
  exact ⟨hok, fun hkind => (herr hkind).1, hother, congrArg (validGroup .ck), congrArg (validGroup .lck),
    congrArg (validGroup .idVer), congrArg (validGroup .idSn), congrArg (validGroup .analog), congrArg (validGroup .cap),
    congrArg (validGroup .warn), fun _ _ => hostReadOctet_of_none, groupInvalid_reset⟩

/-- Settles O38: the fields outside the operation's own group are those of the state it started from. -/
theorem operandsAreNeverWritten : Obligations.OperandsAreNeverWritten := by
  intro i s t h
  obtain ⟨l, -, hframe, -⟩ := exec_frame h
  obtain ⟨hcfg, hop, hlatched, hver, hadr, hcid1, hcid2, hen, hovr, hlarg, -⟩ := fields_of_invalidate_eq hframe
  exact ⟨hcfg, hop, hlatched, hver, hadr, hcid1, hcid2, hen, hovr, hlarg⟩

/-- R29: only `DECODE_RESP` writes the latch. -/
theorem exec_rtnLatch {i : Instr} {s t : State} (h : exec i s = .next t) (hi : i ≠ .decodeResp) :
    t.rtnLatch = s.rtnLatch := by
  obtain ⟨l, hl, hframe, -⟩ := exec_frame h
  obtain ⟨-, -, -, -, -, -, -, -, -, -, hlatch, -⟩ := fields_of_invalidate_eq hframe
  exact hlatch.trans (hl hi)

theorem groupOf_ne_frame {i : Instr} (h : i ≠ .encodeReq) : Group.frame ≠ groupOf i := by
  cases i with
  | encodeReq => exact absurd rfl h
  | chksumCalc | lchksumCalc | decodeResp | decVersion | decSerial | decAnalog | decCapacity | decWarn => exact nofun

theorem groupOf_ne_resp {i : Instr} (h : i ≠ .decodeResp) : Group.resp ≠ groupOf i := by
  cases i with
  | decodeResp => exact absurd rfl h
  | chksumCalc | lchksumCalc | encodeReq | decVersion | decSerial | decAnalog | decCapacity | decWarn => exact nofun

/-- Settles O39: RAW is group FRAME, which is `ENCODE_REQ`'s; INFO is group RESP, which is `DECODE_RESP`'s. -/
theorem buffersAreWrittenOnlyByFrameOperations : Obligations.BuffersAreWrittenOnlyByFrameOperations := by
  intro i s t h
  obtain ⟨-, hother⟩ := exec_other_groups h
  refine ⟨fun hi => ?_, fun hi => ?_⟩
  · obtain ⟨hmem, hlen⟩ : t.raw = s.raw ∧ t.rawLen = s.rawLen := hother .frame (groupOf_ne_frame hi)
    exact ⟨hlen, fun a => by rw [hmem]⟩
  · obtain ⟨hmem, hlen⟩ : t.info = s.info ∧ t.infoLen = s.infoLen := hother .resp (groupOf_ne_resp hi)
    exact ⟨hlen, exec_rtnLatch h hi, fun a => by rw [hmem]⟩

/-- Settles O40: the state is its own group made invalid, and outside that group only `STATUS`, working registers and the
latch differ. -/
theorem errorMakesOnlyTheListedWrites : Obligations.ErrorMakesOnlyTheListedWrites := by
  intro i s t h hkind
  obtain ⟨-, herr⟩ := exec_end_of_kind h
  obtain ⟨-, hempty, hbusy, hdone⟩ := herr hkind
  refine ⟨⟨t.work, ?_⟩, hbusy, hdone⟩
  obtain ⟨l, hl, hframe, -⟩ := exec_frame h
  obtain ⟨-, -, -, -, -, -, -, -, -, -, hlatch, -⟩ := fields_of_invalidate_eq hframe
  have hlatch : l = if i = .decodeResp then t.rtnLatch else s.rtnLatch := by
    split
    · exact hlatch.symm
    · next hi => exact hl hi
  rw [← hlatch]
  exact hempty.trans hframe

/-! Which working registers a part of an operation moves. -/

/-- A condition on the working registers that holds before a part holds after it, however the part ends. -/
abbrev Preserves {α : Type} (I : Work → Prop) (m : Walk α) : Prop := m.Sat I (fun _ k => I k) (fun _ k => I k) True

section
variable {I : Work → Prop}

theorem preserves_done {α : Type} (a : α) : Preserves I (Walk.done a) := fun _ hk => hk

theorem preserves_raise {α : Type} (e : OpError) : Preserves I (Walk.raise e : Walk α) := fun _ hk => hk

theorem preserves_fetchText (b : Buffer) (s : State) (a n : Nat) : Preserves I (fetchText b s a n) := fun k hk => by
  rcases fetchText_cases b s a n k with ⟨t, -, h⟩ | ⟨f, -, h⟩ <;> rw [h]
  · exact hk
  · trivial

theorem preserves_fetchRaw (s : State) (i : Nat) : Preserves I (fetchRaw s i) := fun k hk => by
  rw [fetchRaw]
  cases octetAt .raw s i
  · trivial
  · exact hk

theorem preserves_readPairs (s : State) (a n : Nat) (f : FieldId) : Preserves I (readPairs s a n f) := by
  refine (preserves_fetchText .info s a n).andThen fun t => ?_
  split
  · exact preserves_raise _
  · exact preserves_done _

theorem preserves_versionWalk (s : State) : Preserves I (versionWalk s) := by
  unfold versionWalk
  split
  · exact preserves_raise _
  · exact preserves_readPairs s _ _ _

theorem preserves_serialWalk (s : State) : Preserves I (serialWalk s) := by
  unfold serialWalk
  split
  · exact preserves_raise _
  · refine (preserves_readPairs s _ _ _).andThen fun b => ?_
    split
    · exact preserves_raise _
    · exact (preserves_readPairs s _ _ _).andThen fun p => preserves_done _

theorem preserves_ratio (s : State) (f : FieldId) (a b : Nat) : Preserves I (ratio s f a b) :=
  (ratio_sat s f a b I True).weaken (fun _ h => h) (fun _ _ h => h.1) (fun _ _ h => h.1) id

/-! A condition that does not look at `ACC`. -/

variable (hacc : ∀ k x, I k → I { k with acc := x })
include hacc

theorem preserves_chksumCalc (t : Text) : Preserves I (chksumCalc t) := by
  cases t with
  | nil => exact preserves_raise _
  | cons o t => exact fun k hk => by rw [chksumCalc_cons]; exact hacc k _ hk

theorem preserves_encodeReqWalk (s : State) : Preserves I (encodeReqWalk s) := by
  unfold encodeReqWalk
  split
  · exact preserves_raise _
  · exact (preserves_fetchText .info s _ _).andThen fun info => (preserves_chksumCalc hacc _).andThen fun r => preserves_done _

theorem preserves_respInfo (s : State) (n : Nat) : Preserves I (respInfo s n) := by
  unfold respInfo
  split
  · exact preserves_raise _
  · refine (preserves_fetchText .raw s _ _).andThen fun info => (preserves_fetchText .raw s _ _).andThen fun rx =>
      (preserves_fetchText .raw s _ _).andThen fun summed => (preserves_chksumCalc hacc summed).andThen fun r => ?_
    split
    · exact preserves_raise _
    · exact preserves_done _

theorem preserves_respTail (s : State) (rtn : Chars2) : Preserves I (respTail s rtn) := by
  unfold respTail
  split
  · exact preserves_raise _
  · refine (preserves_fetchText .raw s _ _).andThen fun lenid => ?_
    split
    · refine (preserves_fetchRaw s 9).andThen fun o => ?_
      split
      · exact preserves_raise _
      · exact preserves_respInfo hacc s _
    · exact preserves_raise _

end

theorem preserves_respHead {I : Work → Prop} (s : State) : Preserves I (respHead s) := by
  unfold respHead
  split
  · exact preserves_raise _
  · refine (preserves_fetchRaw s 0).andThen fun o => ?_
    split
    · exact preserves_raise _
    · split
      · exact preserves_raise _
      · exact (preserves_fetchRaw s 7).andThen fun c0 => (preserves_fetchRaw s 8).andThen fun c1 => preserves_done _

/-- R126: a field read moves the cursor alone. -/
theorem preserves_readField (k0 : Work) (s : State) (w : Nat) (f : FieldId) : Preserves (OnlyCursor k0) (readField s w f) :=
  (readField_sat s w f (OnlyCursor k0)).weaken (fun _ h => h)
    (fun _ _ ⟨k, hk, hk', _⟩ => hk' ▸ hk.trans (onlyCursor_advance w k)) (fun _ _ h => h.1) fun _ => trivial

theorem setCur_onlyCursor (k : Work) : OnlyCursor k { k with cur := 0 } := rfl

theorem preserves_capacityWalk (k0 : Work) (s : State) : Preserves (OnlyCursor k0) (capacityWalk s) :=
  (Walk.sat_set _ _ _ _ _ fun _ hk => hk.trans (setCur_onlyCursor _)).andThen fun _ =>
  (preserves_readField k0 s valW .rem).andThen fun rem =>
  (preserves_readField k0 s valW .full).andThen fun full =>
  (preserves_readField k0 s valW .design).andThen fun design =>
  (preserves_ratio s .soc rem full).andThen fun _ =>
  (preserves_ratio s .soh full design).andThen fun _ => preserves_done _

/-- What a part leaves in the working registers, its operation leaves there. -/
theorem work_of_conclude {α : Type} {m : Walk α} {P I : Work → Prop} {F : Prop}
    (hm : m.Sat P (fun _ k => I k) (fun _ k => I k) F) {g : Group} {s t : State} {k : Work} {commit : α → State → State}
    (hk : P k) (h : conclude g s (m k) commit = .next t)
    (hcommit : ∀ a u, (commit a u).work = u.work := by intros; rfl) : I t.work := by
  rcases conclude_next h with ⟨a, k', hmk, rfl⟩ | ⟨e, k', hmk, rfl⟩
  · rw [hcommit]
    exact hm.ok hk hmk
  · rw [raiseErr_work]
    exact hm.err hk hmk

/-- Working registers that differ at most in `ACC`. -/
def OnlyAcc (k k' : Work) : Prop := k' = { k with acc := k'.acc }

theorem OnlyAcc.refl (k : Work) : OnlyAcc k k := rfl

theorem onlyAcc_acc (k0 k : Work) (x : BitVec 16) (h : OnlyAcc k0 k) : OnlyAcc k0 { k with acc := x } := by
  unfold OnlyAcc at *
  rw [h]

theorem work_of_identity {i : Instr} {s t : State} (hi : i = .lchksumCalc ∨ i = .decVersion ∨ i = .decSerial)
    (h : exec i s = .next t) : t.work = s.work := by
  obtain rfl | rfl | rfl := hi
  · cases hsum : digitSum s.cfg.hexLower s.larg.toList with
    | none => rw [exec_lchksumCalc_of_none hsum] at h; cases h; rfl
    | some n => rw [exec_lchksumCalc_of_digitSum hsum] at h; cases h; rfl
  · exact work_of_conclude (preserves_versionWalk (I := (· = s.work)) s) rfl ((exec_decVersion s).symm.trans h)
  · exact work_of_conclude (preserves_serialWalk (I := (· = s.work)) s) rfl ((exec_decSerial s).symm.trans h)

theorem work_of_frame {i : Instr} {s t : State} (hi : i = .chksumCalc ∨ i = .encodeReq ∨ i = .decodeResp)
    (h : exec i s = .next t) : OnlyAcc s.work t.work := by
  have hacc := onlyAcc_acc s.work
  obtain rfl | rfl | rfl := hi
  · exact work_of_conclude ((preserves_fetchText .raw s 0 _).andThen fun u => preserves_chksumCalc hacc u) (.refl _)
      ((exec_chksumCalc s).symm.trans h)
  · exact work_of_conclude (preserves_encodeReqWalk hacc s) (.refl _) ((exec_encodeReq s).symm.trans h)
  · have hhead := preserves_respHead (I := OnlyAcc s.work) s
    obtain ⟨e, k, hk, rfl⟩ | ⟨rtn, k, hk, h⟩ := exec_decodeResp_next h
    · exact hhead.err (.refl s.work) hk
    · exact work_of_conclude (preserves_respTail hacc s rtn) (hhead.ok (.refl s.work) hk) h

/-- A cursor walk keeps the cursor within INFO, and registers it does not name as they are. -/
theorem keptAnalog_cursor_acc (s : State) (k0 : Work) :
    KeptAnalog s fun k => k.cur.toNat ≤ s.infoLen.toNat ∧ k.acc = k0.acc where
  cur _ h := h.1
  adv k n h hn := ⟨(advance_cur n k (by omega)).trans_le hn, h.2⟩
  packs _ _ h := h
  p _ _ h := h
  cells _ _ h := h
  temps _ _ h := h
  prev _ _ h := h
  volt b _ _ h := by cases b <;> exact h

theorem kept_cursor_volts (s : State) (k0 : Work) :
    Kept s fun k => k.cur.toNat ≤ s.infoLen.toNat ∧
      k.acc = k0.acc ∧ k.cellsPrev = k0.cellsPrev ∧ k.vmin = k0.vmin ∧ k.vmax = k0.vmax where
  cur _ h := h.1
  adv k n h hn := ⟨(advance_cur n k (by omega)).trans_le hn, h.2⟩
  packs _ _ h := h
  p _ _ h := h
  cells _ _ h := h
  temps _ _ h := h

theorem work_of_decAnalog {s t : State} (h : exec .decAnalog s = .next t) :
    t.work.cur.toNat ≤ s.infoLen.toNat ∧ t.work.acc = s.work.acc :=
  work_of_conclude ((analogWalk_kept (keptAnalog_cursor_acc s s.work) (P0 := (· = s.work))
    fun _ hk => ⟨Nat.zero_le _, hk ▸ rfl⟩).weaken (fun _ h => h) (fun _ _ h => h.1) (fun _ _ h => h.1) id) rfl
    ((exec_decAnalog s).symm.trans h)

theorem work_of_decWarn {s t : State} (h : exec .decWarn s = .next t) :
    t.work.cur.toNat ≤ s.infoLen.toNat ∧ t.work.acc = s.work.acc ∧ t.work.cellsPrev = s.work.cellsPrev ∧
      t.work.vmin = s.work.vmin ∧ t.work.vmax = s.work.vmax :=
  work_of_conclude ((warnWalk_kept (kept_cursor_volts s s.work) (P0 := (· = s.work))
    fun _ hk => ⟨Nat.zero_le _, hk ▸ ⟨rfl, rfl, rfl, rfl⟩⟩).weaken (fun _ h => h) (fun _ _ h => h.1) (fun _ _ h => h.1) id) rfl
    ((exec_decWarn s).symm.trans h)

/-- Settles O41: operation by operation, the condition its walk preserves. -/
theorem workingRegistersChangedByEachOperation : Obligations.WorkingRegistersChangedByEachOperation := by
  intro i s t h
  refine ⟨fun hi => work_of_identity hi h, fun hi => work_of_frame hi h, ?_, ?_, ?_⟩
  · rintro rfl
    exact work_of_conclude (preserves_capacityWalk s.work s) (.refl _) ((exec_decCapacity s).symm.trans h)
  · rintro rfl
    obtain ⟨-, hacc⟩ := work_of_decAnalog h
    exact hacc
  · rintro rfl
    obtain ⟨-, hrest⟩ := work_of_decWarn h
    exact hrest

/-- Settles O42: each cursor walk starts at 0 and keeps the cursor within INFO, at an error too. -/
theorem cursorNeverExceedsInfoLen : Obligations.CursorNeverExceedsInfoLen := by
  intro i s t hi h
  obtain rfl | rfl | rfl := hi
  · obtain ⟨hcur, -⟩ := work_of_decAnalog h
    exact hcur
  · exact work_of_conclude ((capacityWalk_kept (keptAnalog_cursor s).toKept (P0 := fun _ => True)
      fun _ _ => Nat.zero_le _).weaken (fun _ h => h) (fun _ _ h => h.1) (fun _ _ h => h.1) id) trivial
      ((exec_decCapacity s).symm.trans h)
  · obtain ⟨hcur, -⟩ := work_of_decWarn h
    exact hcur

end Sys2Proof.Proofs
end

section
/-! Codes, start and reset (30_encoding.md R100, R101; 60_exceptions.md R261 to R269; 70_reset_and_hazards.md R300). -/

namespace Sys2Proof.Proofs

open Sys2Proof Sys2Proof.Machine Sys2Proof.Claims

/-- Settles O1: reset is `State.resetWith` of the block's parameters. -/
theorem resetLeavesStatedValues : Obligations.ResetLeavesStatedValues := fun s =>
  ⟨rfl, rfl, rfl, rfl, rfl, fun g => groupInvalid_reset g s.cfg, rfl, rfl⟩

/-- Settles O5: the eleven codes, evaluated. -/
theorem opCodesDecodeAsTabled : Obligations.OpCodesDecodeAsTabled :=
  ⟨rfl, rfl, rfl, rfl, rfl, rfl, rfl, rfl, rfl, rfl, rfl⟩

theorem opWellFormed_encode (i : Instr) : opWellFormed (encode i) = true := by cases i <;> rfl

/-- R100: a code that decodes is the code of its operation. -/
theorem encode_of_decode {op : BitVec 4} {i : Instr} (h : decode op = .ok i) : encode i = op := by
  refine BitVec.eq_of_toNat_eq ?_
  unfold decode at h
  split at h
  case h_10 => cases h
  all_goals cases h; exact Eq.symm ‹_›

/-- R101: the codes that are not well formed are 0 and 10 to 15. -/
theorem reserved_of_not_wellFormed {op : BitVec 4} (h : opWellFormed op = false) : op = 0 ∨ 10 ≤ op.toNat := by
  have hcode : ¬(1 ≤ op.toNat ∧ op.toNat ≤ 9) := by simpa [opWellFormed] using h
  rcases Nat.eq_zero_or_pos op.toNat with hzero | hpos
  · exact .inl (BitVec.eq_of_toNat_eq hzero)
  · exact .inr (by omega)

/-- Settles O6: the two tables agree row by row; what is not well formed is reserved. -/
theorem decodeAndEncodeAgree : Obligations.DecodeAndEncodeAgree :=
  ⟨fun i => ⟨decode_encode_eq_ok i, opWellFormed_encode i⟩, fun _ _ => encode_of_decode, fun _ h =>
    decode_reserved (reserved_of_not_wellFormed h)⟩

/-- Settles O7: the started block has latched the code that decodes. -/
theorem startRunsDecodedOperation : Obligations.StartRunsDecodedOperation := fun _ _ hidle hdec => step_withOp hidle hdec

/-- Settles O9: both moves test `BUSY` first. -/
theorem hostHasNoMoveWhileBusy : Obligations.HostHasNoMoveWhileBusy := fun _ w hbusy => ⟨hostWrite_busy w hbusy, if_pos hbusy⟩

/-! The codes of an error determine it (R261 to R266). -/

theorem framingCode_injective {d d' : FramingDetail} (h : framingCode d = framingCode d') : d = d' := by
  revert h; cases d <;> cases d' <;> decide

theorem checksumCode_injective {d d' : ChecksumDetail} (h : checksumCode d = checksumCode d') : d = d' := by
  revert h; cases d <;> cases d' <;> decide

theorem rtnDetail_injective {r r' : RtnCode} (h : rtnDetail r = rtnDetail r') : r = r' := by
  revert h; cases r <;> cases r' <;> decide

theorem decodeCode_injective {d d' : DecodeDetail} (h : decodeCode d = decodeCode d') : d = d' := by
  revert h; cases d <;> cases d' <;> decide

theorem encodeCode_injective {d d' : EncodeDetail} (h : encodeCode d = encodeCode d') : d = d' := by
  revert h; cases d <;> cases d' <;> decide

/-- The field of a code of R265: `fieldCode` read backwards. -/
def fieldOfCode (c : BitVec 6) : Option FieldId :=
  [FieldId.lead, .packs, .extra, .cells, .vcell, .temps, .tcell, .ipack, .vpack, .rem, .rsvd, .full, .soc, .cycles, .design,
    .soh, .trail, .flag, .version, .bmsSn, .packSn, .cellsw, .cellw, .tempsw, .tempw, .chgw, .vtotw, .dsgw, .prot1, .prot2,
    .instr, .ctrl, .fault, .bal1, .bal2, .warn1, .warn2][c.toNat - 1]?

theorem fieldOfCode_fieldCode (f : FieldId) : fieldOfCode (fieldCode f) = some f := by cases f <;> rfl

theorem fieldCode_injective {f f' : FieldId} (h : fieldCode f = fieldCode f') : f = f' :=
  Option.some.inj ((fieldOfCode_fieldCode f).symm.trans ((congrArg fieldOfCode h).trans (fieldOfCode_fieldCode f')))

/-- R266: the four bits of a reserved code stand in `DETAIL`. -/
theorem illegalDetail_injective {c c' : BitVec 4} (h : c.setWidth 8 = c'.setWidth 8) : c = c' := by
  bv_omega

/-- Settles O45: `KIND` gives the constructor, `DETAIL` and `FIELD` its arguments. -/
theorem errorCodesIdentifyTheError : Obligations.ErrorCodesIdentifyTheError := by
  intro e e' h
  have hkind := congrArg Status.kind h
  have hdetail := congrArg Status.detail h
  have hfield := congrArg Status.field h
  cases e <;> cases e'
  case framing.framing => exact congrArg _ (framingCode_injective hdetail)
  case checksum.checksum => exact congrArg _ (checksumCode_injective hdetail)
  case protocol.protocol => exact congrArg _ (rtnDetail_injective hdetail)
  case decode.decode => exact congrArg₂ _ (decodeCode_injective hdetail) (fieldCode_injective hfield)
  case encode.encode => exact congrArg _ (encodeCode_injective hdetail)
  case illegalOp.illegalOp => exact congrArg _ (illegalDetail_injective hdetail)
  all_goals exact absurd hkind (by simp [errStatus, errStatusOf])

end Sys2Proof.Proofs
end

section
/-! The host's accesses (10_state.md R21 to R26; 60_exceptions.md R280, R291, R294). -/

namespace Sys2Proof.Proofs

open Sys2Proof Sys2Proof.Machine Sys2Proof.Claims

/-- Settles O46: the octet written, and what either buffer holds beside it. -/
theorem hostWriteChangesOneOctet : Obligations.HostWriteChangesOneOctet := by
  intro b pos v s hwf hidle hpos
  refine ⟨_, hostWrite_octet hidle hpos v, ?_, fun a => ?_, fun b' hb => bufMem_writeOctet_other hb pos v s, fun b' =>
    bufLen_writeOctet b b' pos v s, by cases b <;> rfl⟩
  · rw [bufMem_writeOctet]
    exact Memory.write_wf _ _ _ hwf
  · rw [bufMem_writeOctet, Memory.read_write _ _ _ _ hwf]
    simp only [eq_comm]

/-- Settles O53: the memory is cut at the length, which its register holds. -/
theorem hostWriteSetsLength : Obligations.HostWriteSetsLength := by
  intro b n s hwf hidle hn
  have hread : ∀ i, (bufMem b (writeLength b n s)).read i = if i < n then (bufMem b s).read i else none := fun i => by
    rw [bufMem_writeLength, Memory.read_truncate]
  refine ⟨_, hostWrite_length hidle hn, bufLen_writeLength hn s, ?_, fun i => ?_, hread, fun b' hb =>
    bufMem_writeLength_other hb n s, by cases b <;> rfl⟩
  · rw [bufMem_writeLength]
    exact Memory.truncate_wf _ _ hwf
  · rw [octetAt, bufLen_writeLength hn, hread]
    split <;> rfl

theorem hostReadOctet_of_some {b : Buffer} {pos : Nat} {t : State} {o : Octet} (hidle : t.status.busy = false)
    (ho : octetAt b t pos = some o) : hostReadOctet b pos t = .ok o := by
  simp [hostReadOctet, hidle, ho]

/-- Settles O54: the text is the buffer's content, and a host read is a read of that content. -/
theorem hostWriteSetsText : Obligations.HostWriteSetsText := by
  intro b x s hidle hx
  have htext := bufText_putText hx s
  refine ⟨_, hostWrite_text hidle hx, htext, bufLen_putText hx s, ?_, fun i o ho => ?_, fun b' hb =>
    bufMem_putText_other hb x s, by cases b <;> rfl⟩
  · rw [bufMem_putText]
    exact Memory.ofText_wf x
  · exact hostReadOctet_of_some (by rwa [putText_status]) ((octetAt_of_bufText _ _ _ htext i).trans ho)

/-- An idle block answers what the register holds. -/
theorem hostReadOperand_of_idle {s : State} (hidle : s.status.busy = false) (r : OperandReg) :
    hostReadOperand r s = .ok (operandVal r s) := by
  simp [hostReadOperand, hidle]

/-- A write of one register alone, read back. -/
theorem write_then_read {w : HostWrite} {s u : State} {r : OperandReg} {v : OperandVal}
    (hwrite : hostWrite w s = .next u) (hidle : u.status.busy = false) (hval : operandVal r u = v) :
    ∃ t, hostWrite w s = .next t ∧ t = u ∧ hostReadOperand r t = .ok v :=
  ⟨u, hwrite, rfl, hval ▸ hostReadOperand_of_idle hidle r⟩

/-- Settles O52: register by register. -/
theorem hostWritesAndReadsOperandRegisters : Obligations.HostWritesAndReadsOperandRegisters := by
  intro s hidle
  have moves : ∀ {w : HostWrite} {o : Host.Outcome State Fault Refusal},
      (if s.status.busy then .fault .hostWhileBusy else o) = hostWrite w s → hostWrite w s = o := by
    intro w o h
    rw [← h, hidle]
    rfl
  exact ⟨fun _ => write_then_read (moves rfl) hidle rfl, fun _ => write_then_read (moves rfl) hidle rfl,
    fun _ => write_then_read (moves rfl) hidle rfl, fun _ => write_then_read (moves rfl) hidle rfl,
    fun _ => write_then_read (moves rfl) hidle rfl, fun _ => write_then_read (moves rfl) hidle rfl,
    fun _ => write_then_read (moves rfl) hidle rfl, fun _ => write_then_read (moves rfl) hidle rfl,
    hostReadOperand_of_idle hidle .rawLen, hostReadOperand_of_idle hidle .infoLen⟩

/-- Settles O55: each of the three writes tests its limit. -/
theorem hostHasNoMoveBeyondBuffer : Obligations.HostHasNoMoveBeyondBuffer := by
  intro b n v x s hidle
  refine ⟨fun h => ?_, fun h => ?_, fun h => ?_, rfl, rfl⟩
  · simp [hostWrite, hidle, Nat.not_lt.mpr h]
  · simp [hostWrite, hidle, Nat.not_le.mpr h]
  · simp [hostWrite, hidle, Nat.not_le.mpr h]

/-- Settles O56: no read function looks at `work`; those of operands and buffers test `BUSY` first. -/
theorem hostReadsNoWorkingRegister : Obligations.HostReadsNoWorkingRegister := by
  intro s k t
  refine ⟨fun r => by cases r <;> rfl, fun b i => by cases b <;> rfl, rfl, rfl, rfl, rfl, rfl, rfl, rfl, rfl, rfl, fun hbusy =>
    ⟨fun r => if_pos hbusy, fun b i => if_pos hbusy⟩⟩

end Sys2Proof.Proofs
end

section
/-! What the frame's checks cover (41_frame_codec.md R151 to R166; 70_reset_and_hazards.md R311, R317). -/

namespace Sys2Proof.Proofs

open Sys2Proof Sys2Proof.Machine Sys2Proof.Claims

/-! The sum of a short hex frame (R317). -/

theorem total_cons (c : Octet) (t : Text) : total (c :: t) = c.toNat + total t := rfl

theorem total_bounds {t : Text} (h : ∀ c ∈ t, 0x30 ≤ c.toNat ∧ c.toNat ≤ 0x46) :
    48 * t.length ≤ total t ∧ total t ≤ 70 * t.length := by
  induction t with
  | nil => exact ⟨le_refl 0, le_refl 0⟩
  | cons c t ih =>
    obtain ⟨hc, ht⟩ := List.forall_mem_cons.mp h
    have := ih ht
    rw [total_cons, List.length_cons]
    omega

theorem digits4_head (v : Nat) : (digits4 v).head? = some (hexChar (v / 4096 % 16)) := rfl

/-- Settles O19: the negated sum is at least 65536 - 61390, so its first digit is not 0. -/
theorem checksumReadingsAgreeOnShortHexFrames : Obligations.ChecksumReadingsAgreeOnShortHexFrames := by
  intro o t hchars hmin hmax
  obtain ⟨hlow, hhigh⟩ := total_bounds hchars
  refine ⟨hlow, hhigh, by omega, by omega, by omega, ?_⟩
  rw [chksumTxt, chksumVal_cons, ← digits4_eq, digits4_head, negated16]
  intro hzero
  have hdigit : (65536 - total t % 65536) % 65536 / 4096 % 16 = 0 :=
    hexChar_injective (Nat.mod_lt _ (by decide)) (by decide) (Option.some.inj hzero)
  have hlead : 1 ≤ (65536 - total t) / 4096 ∧ (65536 - total t) / 4096 < 16 := by omega
  rw [Nat.mod_eq_of_lt (show total t < 65536 by omega),
    Nat.mod_eq_of_lt (show 65536 - total t < 65536 by omega)] at hdigit
  omega

/-! One octet of a text replaced. -/

theorem getD_set (t : Text) (o : Octet) {i : Nat} (hi : i < t.length) (j : Nat) :
    (t.set i o).getD j 0 = if i = j then o else t.getD j 0 := by
  rw [List.getD_eq_getElem?_getD, List.getElem?_set]
  split
  · rfl
  · rw [List.getD_eq_getElem?_getD]

theorem slice_set_of_outside (t : Text) (o : Octet) {i a n : Nat} (h : i < a ∨ a + n ≤ i) :
    ((t.set i o).drop a).take n = (t.drop a).take n := by
  refine List.ext_getElem? fun j => ?_
  rw [List.getElem?_take, List.getElem?_take]
  split
  · rw [List.getElem?_drop, List.getElem?_drop, List.getElem?_set_ne (by omega)]
  · rfl

theorem slice_set_of_inside (t : Text) (o : Octet) {i a n : Nat} (ha : a ≤ i) :
    ((t.set i o).drop a).take n = ((t.drop a).take n).set (i - a) o := by
  rw [List.drop_set, if_neg (by omega), List.take_set]

theorem slice_getElem? (t : Text) {i a n : Nat} (ha : a ≤ i) (hn : i < a + n) : ((t.drop a).take n)[i - a]? = t[i]? := by
  rw [List.getElem?_take, if_pos (by omega), List.getElem?_drop, Nat.add_sub_cancel' ha]

/-- A replaced octet shows in every slice that holds it. -/
theorem slice_set_ne {t : Text} {o : Octet} {i a n : Nat} (hi : i < t.length) (hne : t[i]? ≠ some o) (ha : a ≤ i)
    (hn : i < a + n) : ((t.set i o).drop a).take n ≠ (t.drop a).take n := fun h => hne <| by
  rw [← slice_getElem? t ha hn, ← h, slice_getElem? _ ha hn, List.getElem?_set_self hi]

/-! The octets CHKSUM counts (R156). -/

/-- What `DECODE_RESP` sums of a buffer. -/
def counted (buf : Text) : Text := (buf.take (buf.length - 5)).drop 1

theorem counted_eq_slice (buf : Text) : counted buf = (buf.drop 1).take (buf.length - 5 - 1) := by
  rw [counted, List.drop_take]

theorem counted_set_of_outside (buf : Text) (o : Octet) {i : Nat} (h : i = 0 ∨ buf.length - 5 ≤ i) (hlen : 6 ≤ buf.length) :
    counted (buf.set i o) = counted buf := by
  rw [counted_eq_slice, counted_eq_slice, List.length_set, slice_set_of_outside buf o (by omega)]

theorem digits4_negated16_inj {m n : Nat} (h : digits4 (negated16 m) = digits4 (negated16 n)) : m % 65536 = n % 65536 := by
  rw [digits4_eq, digits4_eq] at h
  exact (negated16_eq_iff m n).mp
    (intToHex_injective _ _ 4 (Nat.mod_lt _ (by decide)) (Nat.mod_lt _ (by decide)) h)

/-- R142: one changed counted octet changes the CHKSUM text. -/
theorem chksum_set_ne {buf : Text} {o : Octet} {i : Nat} (hne : buf[i]? ≠ some o) (hpos : 1 ≤ i) (hi : i < buf.length - 5) :
    digits4 (negated16 (total (counted (buf.set i o)))) ≠ digits4 (negated16 (total (counted buf))) := fun h => by
  have hmod := digits4_negated16_inj h
  rw [counted_eq_slice, counted_eq_slice, List.length_set, slice_set_of_inside buf o hpos] at hmod
  refine total_set_mod_ne ?_ ?_ hmod
  · rw [List.length_take, List.length_drop]
    omega
  · rwa [slice_getElem? buf hpos (by omega)]

/-! A frame that is accepted. -/

/-- The checks of R151 to R157 on a buffer, all passed, with the payload length its LENID says. -/
structure FrameOk (lower : Bool) (buf : Text) (n : Nat) : Prop where
  soi : buf.head? = some 0x7E
  rtn : ∀ code, ([buf.getD 7 0, buf.getD 8 0], code) ∉ rtnErrors
  lenid : ∃ d0 d1 d2, hexVal lower (buf.getD 10 0) = some d0 ∧ hexVal lower (buf.getD 11 0) = some d1 ∧
    hexVal lower (buf.getD 12 0) = some d2 ∧ n = 256 * d0 + 16 * d1 + d2 ∧ buf.getD 9 0 = hexChar (negated4 (d0 + d1 + d2))
  long : 18 + n ≤ buf.length
  chksum : (buf.drop (13 + n)).take 4 = digits4 (negated16 (total (counted buf)))

theorem FrameOk.info_length {lower : Bool} {buf : Text} {n : Nat} (h : FrameOk lower buf n) :
    ((buf.drop 13).take n).length = n := by
  have := h.long
  rw [List.length_take, List.length_drop]
  omega

theorem FrameOk.n_lt {lower : Bool} {buf : Text} {n : Nat} (h : FrameOk lower buf n) : n < 4096 := by
  obtain ⟨d0, d1, d2, h0, h1, h2, hn, -⟩ := h.lenid
  have := hexVal_lt _ _ _ h0
  have := hexVal_lt _ _ _ h1
  have := hexVal_lt _ _ _ h2
  omega

/-- R158: a frame that passes every check is accepted. -/
theorem FrameOk.accepts {s : State} {buf : Text} {n : Nat} (h : FrameOk s.cfg.hexLower buf n)
    (hbuf : bufText .raw s = .ok buf) : AcceptsWith s ((buf.drop 13).take n) ⟨buf.getD 7 0, buf.getD 8 0⟩ := by
  have hlong := h.long
  obtain ⟨d0, d1, d2, h0, h1, h2, rfl, hlchk⟩ := h.lenid
  obtain ⟨-, -, hrest⟩ := decodeRespTakesItsStepsInOrder s buf hbuf
  obtain ⟨-, hunlisted⟩ := hrest h.soi (by omega)
  obtain ⟨-, hdigits⟩ := hunlisted h.rtn
  obtain ⟨-, hagree⟩ := hdigits d0 d1 d2 h0 h1 h2
  obtain ⟨-, -, haccept⟩ := hagree hlchk
  exact haccept hlong h.chksum

/-- An outcome of `DECODE_RESP` with `KIND` 0 is no rejection. -/
theorem not_rejectsWith {s t : State} (hexec : exec .decodeResp s = .next t) (hkind : t.status.kind = 0) {kind : BitVec 3}
    {detail : BitVec 8} {latch : Chars2} (hne : kind ≠ 0) : ¬ RejectsWith s kind detail latch := by
  rintro ⟨u, k, hu, -, hstate⟩
  rw [hexec] at hu
  cases hu
  rw [hstate] at hkind
  exact hne hkind

/-- R152: only a frame that passes every check is accepted. -/
theorem frameOk_of_accepted {s t : State} {buf : Text} (hbuf : bufText .raw s = .ok buf)
    (hexec : exec .decodeResp s = .next t) (hkind : t.status.kind = 0) : ∃ n, FrameOk s.cfg.hexLower buf n := by
  have hrej := fun (kind : BitVec 3) (detail latch) => not_rejectsWith (s := s) (kind := kind) (detail := detail)
    (latch := latch) hexec hkind
  obtain ⟨hsoi, hshort, hrest⟩ := decodeRespTakesItsStepsInOrder s buf hbuf
  have hsoi : buf.head? = some 0x7E := by_contra fun h => hrej 1 _ _ (by decide) (hsoi h)
  have hlen : 13 ≤ buf.length := Nat.le_of_not_lt fun h => hrej 1 _ _ (by decide) (hshort hsoi h)
  obtain ⟨hlisted, hrest⟩ := hrest hsoi hlen
  have hrtn : ∀ code, ([buf.getD 7 0, buf.getD 8 0], code) ∉ rtnErrors := fun code h =>
    hrej 3 _ _ (by decide) (hlisted code h)
  obtain ⟨hbad, hdigits⟩ := hrest hrtn
  have hdigit : ∀ i, 10 ≤ i → i < 13 → ∃ d, hexVal s.cfg.hexLower (buf.getD i 0) = some d := fun i h1 h2 =>
    Option.ne_none_iff_exists'.mp fun hnone => hrej 1 _ _ (by decide) <| hbad ⟨buf.getD i 0, by
      rw [take_three_drop hlen]
      obtain rfl | rfl | rfl : i = 10 ∨ i = 11 ∨ i = 12 := by omega
      all_goals simp, hnone⟩
  obtain ⟨d0, h0⟩ := hdigit 10 (by decide) (by decide)
  obtain ⟨d1, h1⟩ := hdigit 11 (by decide) (by decide)
  obtain ⟨d2, h2⟩ := hdigit 12 (by decide) (by decide)
  obtain ⟨hlchk, hagree⟩ := hdigits d0 d1 d2 h0 h1 h2
  have hlchk : buf.getD 9 0 = hexChar (negated4 (d0 + d1 + d2)) := by_contra fun h => hrej 2 _ _ (by decide) (hlchk h)
  obtain ⟨htrunc, hchk, -⟩ := hagree hlchk
  have hlong : 18 + (256 * d0 + 16 * d1 + d2) ≤ buf.length := Nat.le_of_not_lt fun h => hrej 1 _ _ (by decide) (htrunc h)
  exact ⟨_, hsoi, hrtn, ⟨d0, d1, d2, h0, h1, h2, rfl, hlchk⟩, hlong, by_contra fun h => hrej 2 _ _ (by decide) (hchk hlong h)⟩

/-- What an accepted frame leaves, read off the state after it. -/
theorem accepted_next {s t : State} {info : Text} {latch : Chars2} (h : AcceptsWith s info latch)
    (hexec : exec .decodeResp s = .next t) :
    bufText .info t = .ok info ∧ t.infoLen = BitVec.ofNat 12 info.length ∧ t.rtnLatch = latch ∧ t.status = ended 0 0 0 := by
  obtain ⟨u, k, hu, htext, hstate⟩ := h
  rw [hexec] at hu
  cases hu
  exact ⟨htext, congrArg State.infoLen hstate, congrArg State.rtnLatch hstate, congrArg State.status hstate⟩

/-- R158: no check and no field of the payload looks at the last octet. -/
theorem FrameOk.set_last {lower : Bool} {buf : Text} {n : Nat} (h : FrameOk lower buf n) (o : Octet) :
    FrameOk lower (buf.set (buf.length - 1) o) n := by
  have hlong := h.long
  have hget : ∀ j, j < 13 → (buf.set (buf.length - 1) o).getD j 0 = buf.getD j 0 := fun j hj => by
    rw [getD_set buf o (by omega), if_neg (by omega)]
  refine ⟨?_, ?_, ?_, by rwa [List.length_set], ?_⟩
  · rw [List.head?_eq_getElem?, List.getElem?_set_ne (by omega), ← List.head?_eq_getElem?, h.soi]
  · rw [hget 7 (by decide), hget 8 (by decide)]
    exact h.rtn
  · rw [hget 9 (by decide), hget 10 (by decide), hget 11 (by decide), hget 12 (by decide)]
    exact h.lenid
  · rw [slice_set_of_outside buf o (by omega), counted_set_of_outside buf o (by omega) (by omega), h.chksum]

/-- Settles O51: the two frames pass the same checks and carry the same payload. -/
theorem lastOctetIsNotInspected : Obligations.LastOctetIsNotInspected := by
  intro s s' t buf o hbuf hexec hkind hcfg hbuf'
  obtain ⟨n, hframe⟩ := frameOk_of_accepted hbuf hexec hkind
  have hlong := hframe.long
  obtain ⟨hinfo, hlen, hlatch, -⟩ := accepted_next (hframe.accepts hbuf) hexec
  obtain ⟨u, k, hu, hinfo', hstate⟩ := FrameOk.accepts (s := s') (hcfg ▸ hframe.set_last o) hbuf'
  rw [slice_set_of_outside buf o (by omega)] at hinfo' hstate
  rw [getD_set buf o (by omega), if_neg (by omega), getD_set buf o (by omega), if_neg (by omega)] at hstate
  refine ⟨u, hu, congrArg State.status hstate, (congrArg State.infoLen hstate).trans hlen.symm,
    (congrArg State.rtnLatch hstate).trans hlatch.symm, fun a => ?_⟩
  rw [octetAt_of_bufText _ _ _ hinfo', octetAt_of_bufText _ _ _ hinfo]

/-! One changed octet (R166). -/

/-- `DECODE_RESP` ends with an error of this kind and detail. -/
def RespEnds (s : State) (kind : BitVec 3) (detail : BitVec 8) : Prop :=
  ∃ u, exec .decodeResp s = .next u ∧ u.status = ended kind detail 0

theorem respEnds_of_rejectsWith {s : State} {kind : BitVec 3} {detail : BitVec 8} {latch : Chars2}
    (h : RejectsWith s kind detail latch) : RespEnds s kind detail := by
  obtain ⟨u, k, hu, -, hstate⟩ := h
  exact ⟨u, hu, congrArg State.status hstate⟩

/-- R147: digit sums that differ mod 16 have different LCHKSUM characters. -/
theorem hexChar_negated4_ne {m n : Nat} (h : m % 16 ≠ n % 16) : hexChar (negated4 m) ≠ hexChar (negated4 n) := fun he => by
  have heq := hexChar_injective (show negated4 m < 16 from Nat.mod_lt _ (by decide))
    (show negated4 n < 16 from Nat.mod_lt _ (by decide)) he
  unfold negated4 at heq
  omega

/-! The errors behind step 1, over any buffer that passes it. -/

section
variable {s : State} {buf : Text} (hbuf : bufText .raw s = .ok buf) (hsoi : buf.head? = some 0x7E) (hlen : 13 ≤ buf.length)
include hbuf hsoi hlen

theorem respEnds_protocol {code : BitVec 8} (h : ([buf.getD 7 0, buf.getD 8 0], code) ∈ rtnErrors) : RespEnds s 3 code := by
  obtain ⟨-, -, hrest⟩ := decodeRespTakesItsStepsInOrder s buf hbuf
  obtain ⟨hlisted, -⟩ := hrest hsoi hlen
  exact respEnds_of_rejectsWith (hlisted code h)

variable (hrtn : ∀ code, ([buf.getD 7 0, buf.getD 8 0], code) ∉ rtnErrors)
include hrtn

theorem respEnds_badLenid {j : Nat} (hj : 10 ≤ j) (hj' : j < 13) (hbad : hexVal s.cfg.hexLower (buf.getD j 0) = none) :
    RespEnds s 1 3 := by
  obtain ⟨-, -, hrest⟩ := decodeRespTakesItsStepsInOrder s buf hbuf
  obtain ⟨-, hunlisted⟩ := hrest hsoi hlen
  obtain ⟨hlenid, -⟩ := hunlisted hrtn
  refine respEnds_of_rejectsWith (hlenid ⟨buf.getD j 0, ?_, hbad⟩)
  rw [take_three_drop hlen]
  obtain rfl | rfl | rfl : j = 10 ∨ j = 11 ∨ j = 12 := by omega
  all_goals simp

variable {d0 d1 d2 : Nat} (h0 : hexVal s.cfg.hexLower (buf.getD 10 0) = some d0)
  (h1 : hexVal s.cfg.hexLower (buf.getD 11 0) = some d1) (h2 : hexVal s.cfg.hexLower (buf.getD 12 0) = some d2)
include h0 h1 h2

theorem respEnds_lchksum (h : buf.getD 9 0 ≠ hexChar (negated4 (d0 + d1 + d2))) : RespEnds s 2 1 := by
  obtain ⟨-, -, hrest⟩ := decodeRespTakesItsStepsInOrder s buf hbuf
  obtain ⟨-, hunlisted⟩ := hrest hsoi hlen
  obtain ⟨-, hdigits⟩ := hunlisted hrtn
  obtain ⟨hlchk, -⟩ := hdigits d0 d1 d2 h0 h1 h2
  exact respEnds_of_rejectsWith (hlchk h)

theorem respEnds_chksum {n : Nat} (hn : n = 256 * d0 + 16 * d1 + d2) (h9 : buf.getD 9 0 = hexChar (negated4 (d0 + d1 + d2)))
    (hlong : 18 + n ≤ buf.length) (h : (buf.drop (13 + n)).take 4 ≠ digits4 (negated16 (total (counted buf)))) :
    RespEnds s 2 2 := by
  subst hn
  obtain ⟨-, -, hrest⟩ := decodeRespTakesItsStepsInOrder s buf hbuf
  obtain ⟨-, hunlisted⟩ := hrest hsoi hlen
  obtain ⟨-, hdigits⟩ := hunlisted hrtn
  obtain ⟨-, hagree⟩ := hdigits d0 d1 d2 h0 h1 h2
  obtain ⟨-, hchk, -⟩ := hagree h9
  exact respEnds_of_rejectsWith (hchk hlong h)

end

/-! A frame of `18 + n` octets that is accepted, with octet `i` replaced. -/

section
variable {s : State} {buf : Text} {i n : Nat} {o : Octet} (hframe : FrameOk s.cfg.hexLower buf n)
  (hbuf : bufText .raw s = .ok (buf.set i o)) (hlen : buf.length = 18 + n) (hne : buf[i]? ≠ some o)
include hframe hbuf hlen hne

/-- R151. -/
theorem changed_soi (hi : i = 0) : RespEnds s 1 1 := by
  subst hi
  obtain ⟨hsoi, -⟩ := decodeRespTakesItsStepsInOrder s _ hbuf
  refine respEnds_of_rejectsWith (hsoi fun h => hne ?_)
  rw [List.head?_eq_getElem?, List.getElem?_set_self (by omega)] at h
  rw [← List.head?_eq_getElem?, hframe.soi, h]

omit hbuf hne in
theorem changed_head (hpos : 1 ≤ i) : (buf.set i o).head? = some 0x7E ∧ 13 ≤ (buf.set i o).length := by
  rw [List.head?_eq_getElem?, List.getElem?_set_ne (by omega), ← List.head?_eq_getElem?, List.length_set]
  exact ⟨hframe.soi, by omega⟩

omit hbuf in
/-- R156, R157: received and computed CHKSUM no longer agree, the one being changed and the other not. -/
theorem changed_chksum_ne (hpos : 1 ≤ i) (hi : i < 17 + n) :
    ((buf.set i o).drop (13 + n)).take 4 ≠ digits4 (negated16 (total (counted (buf.set i o)))) := by
  rcases Nat.lt_or_ge i (13 + n) with hin | hin
  · rw [slice_set_of_outside buf o (by omega), hframe.chksum]
    exact (chksum_set_ne hne hpos (by omega)).symm
  · rw [counted_set_of_outside buf o (by omega) (by omega), ← hframe.chksum]
    exact slice_set_ne (by omega) hne hin (by omega)

/-- When the RTN pair is still unlisted and LENID and LCHKSUM still say the same, the sum finds the change. -/
theorem changed_chksum (hpos : 1 ≤ i) (hi : i < 17 + n)
    (hrtn : ∀ code, ([(buf.set i o).getD 7 0, (buf.set i o).getD 8 0], code) ∉ rtnErrors)
    (h9 : (buf.set i o).getD 9 0 = buf.getD 9 0)
    (hlenid : ∀ j, 10 ≤ j → j < 13 →
      hexVal s.cfg.hexLower ((buf.set i o).getD j 0) = hexVal s.cfg.hexLower (buf.getD j 0)) : RespEnds s 2 2 := by
  obtain ⟨hsoi, hshort⟩ := changed_head hframe hlen (o := o) hpos
  obtain ⟨d0, d1, d2, h0, h1, h2, hn, hlchk⟩ := hframe.lenid
  exact respEnds_chksum hbuf hsoi hshort hrtn ((hlenid 10 (by decide) (by decide)).trans h0)
    ((hlenid 11 (by decide) (by decide)).trans h1) ((hlenid 12 (by decide) (by decide)).trans h2) hn (h9.trans hlchk)
    (by rw [List.length_set, hlen]) (changed_chksum_ne hframe hlen hne hpos hi)

omit hframe hbuf hne in
theorem changed_getD (hi : i < 17 + n) (j : Nat) : (buf.set i o).getD j 0 = if i = j then o else buf.getD j 0 :=
  getD_set buf o (by omega) j

omit hframe hbuf hne in
theorem changed_getD_ne (hi : i < 17 + n) {j : Nat} (hij : i ≠ j) : (buf.set i o).getD j 0 = buf.getD j 0 := by
  rw [changed_getD hlen hi, if_neg hij]

omit hbuf hne in
/-- Away from positions 7 and 8 the RTN pair is the accepted one. -/
theorem changed_rtn_unlisted (hi : i < 17 + n) (h7 : i ≠ 7) (h8 : i ≠ 8) :
    ∀ code, ([(buf.set i o).getD 7 0, (buf.set i o).getD 8 0], code) ∉ rtnErrors := by
  rw [changed_getD_ne hlen hi h7, changed_getD_ne hlen hi h8]
  exact hframe.rtn

/-- VER, ADR, CID1, INFO, CHKSUM. -/
theorem changed_uninspected (h : (1 ≤ i ∧ i < 7) ∨ (13 ≤ i ∧ i < 17 + n)) : RespEnds s 2 2 := by
  have hi : i < 17 + n := by omega
  refine changed_chksum hframe hbuf hlen hne (by omega) hi (changed_rtn_unlisted hframe hlen hi (by omega) (by omega)) ?_
    fun j h1 h2 => ?_
  · exact changed_getD_ne hlen hi (by omega)
  · rw [changed_getD_ne hlen hi (by omega)]

/-- RTN, when the changed pair is not listed. -/
theorem changed_rtn (h : i = 7 ∨ i = 8)
    (hrtn : ∀ code, ([(buf.set i o).getD 7 0, (buf.set i o).getD 8 0], code) ∉ rtnErrors) : RespEnds s 2 2 := by
  have hi : i < 17 + n := by omega
  refine changed_chksum hframe hbuf hlen hne (by omega) hi hrtn (changed_getD_ne hlen hi (by omega)) fun j h1 h2 => ?_
  rw [changed_getD_ne hlen hi (by omega)]

/-- LCHKSUM. -/
theorem changed_lchksum (h : i = 9) : RespEnds s 2 1 := by
  subst h
  have hi : 9 < 17 + n := by omega
  obtain ⟨hsoi, hshort⟩ := changed_head hframe hlen (o := o) (i := 9) (by decide)
  obtain ⟨d0, d1, d2, h0, h1, h2, -, hlchk⟩ := hframe.lenid
  rw [← changed_getD_ne hlen (o := o) hi (by decide)] at h0 h1 h2
  refine respEnds_lchksum hbuf hsoi hshort (changed_rtn_unlisted hframe hlen hi (by decide) (by decide)) h0 h1 h2 ?_
  rw [← hlchk, changed_getD hlen hi, if_pos rfl, List.getD_eq_getElem _ _ (by omega)]
  exact fun he => hne (by rw [List.getElem?_eq_getElem (by omega), he])

omit hne in
/-- LENID: no digit. -/
theorem changed_lenid_noDigit (h10 : 10 ≤ i) (h13 : i < 13) (ho : hexVal s.cfg.hexLower o = none) : RespEnds s 1 3 := by
  have hi : i < 17 + n := by omega
  obtain ⟨hsoi, hshort⟩ := changed_head hframe hlen (o := o) (i := i) (by omega)
  refine respEnds_badLenid hbuf hsoi hshort (changed_rtn_unlisted hframe hlen hi (by omega) (by omega)) h10 h13 ?_
  rwa [changed_getD hlen hi, if_pos rfl]

/-- LENID: a digit of another value; the digit sums differ by less than 16. -/
theorem changed_lenid_value (h10 : 10 ≤ i) (h13 : i < 13) {d : Nat} (ho : hexVal s.cfg.hexLower o = some d)
    (hd : hexVal s.cfg.hexLower (buf.getD i 0) ≠ some d) : RespEnds s 2 1 := by
  have hi : i < 17 + n := by omega
  have hlt := hexVal_lt _ _ _ ho
  obtain ⟨hsoi, hshort⟩ := changed_head hframe hlen (o := o) (i := i) (by omega)
  obtain ⟨d0, d1, d2, h0, h1, h2, -, hlchk⟩ := hframe.lenid
  have hlt0 := hexVal_lt _ _ _ h0
  have hlt1 := hexVal_lt _ _ _ h1
  have hlt2 := hexVal_lt _ _ _ h2
  have hrtn := changed_rtn_unlisted hframe hlen (o := o) hi (by omega) (by omega)
  have hself : hexVal s.cfg.hexLower ((buf.set i o).getD i 0) = some d := by rwa [changed_getD hlen hi, if_pos rfl]
  have hother : ∀ {j v}, i ≠ j → hexVal s.cfg.hexLower (buf.getD j 0) = some v →
      hexVal s.cfg.hexLower ((buf.set i o).getD j 0) = some v := fun hij hv => by rwa [changed_getD_ne hlen hi hij]
  have ends : ∀ {m}, m % 16 ≠ (d0 + d1 + d2) % 16 → (buf.set i o).getD 9 0 ≠ hexChar (negated4 m) := fun hm => by
    rw [changed_getD_ne hlen hi (by omega), hlchk]
    exact (hexChar_negated4_ne hm).symm
  obtain rfl | rfl | rfl : i = 10 ∨ i = 11 ∨ i = 12 := by omega
  · have : d0 ≠ d := fun h => hd (h ▸ h0)
    exact respEnds_lchksum hbuf hsoi hshort hrtn hself (hother (by decide) h1) (hother (by decide) h2) (ends (by omega))
  · have : d1 ≠ d := fun h => hd (h ▸ h1)
    exact respEnds_lchksum hbuf hsoi hshort hrtn (hother (by decide) h0) hself (hother (by decide) h2) (ends (by omega))
  · have : d2 ≠ d := fun h => hd (h ▸ h2)
    exact respEnds_lchksum hbuf hsoi hshort hrtn (hother (by decide) h0) (hother (by decide) h1) hself (ends (by omega))

/-- LENID: the same digit in the other case. -/
theorem changed_lenid_case (h10 : 10 ≤ i) (h13 : i < 13)
    (ho : hexVal s.cfg.hexLower o = hexVal s.cfg.hexLower (buf.getD i 0)) : RespEnds s 2 2 := by
  have hi : i < 17 + n := by omega
  refine changed_chksum hframe hbuf hlen hne (by omega) hi (changed_rtn_unlisted hframe hlen hi (by omega) (by omega))
    (changed_getD_ne hlen hi (by omega)) fun j h1 h2 => ?_
  rw [changed_getD hlen hi]
  split
  · next hij => rw [← hij, ho]
  · rfl

end

/-- The RTN pair as the slice of the statement. -/
theorem take_two_drop {t : Text} {i : Nat} (h : i + 2 ≤ t.length) : (t.drop i).take 2 = [t.getD i 0, t.getD (i + 1) 0] := by
  rw [List.getD_eq_getElem _ _ (by omega), List.getD_eq_getElem _ _ (by omega),
    List.drop_eq_getElem_cons (by omega), List.drop_eq_getElem_cons (by omega)]
  rfl

/-- Settles O25: the field the octet stands in names the first step that meets the change. -/
theorem oneChangedOctetIsRejected : Obligations.OneChangedOctetIsRejected := by
  intro s s' t buf i o hbuf hexec hkind hlen hcfg hbuf' hne ends rtn digit
  obtain ⟨n, hframe⟩ := frameOk_of_accepted hbuf hexec hkind
  obtain ⟨-, hinfoLen, -⟩ := accepted_next (hframe.accepts hbuf) hexec
  have hn : t.infoLen.toNat = n := by
    rw [hinfoLen, hframe.info_length]
    exact toNat_ofNat_of_lt hframe.n_lt
  rw [hn] at hlen ⊢
  have hrtn : rtn = [(buf.set i o).getD 7 0, (buf.set i o).getD 8 0] :=
    take_two_drop (by rw [List.length_set]; omega)
  rw [hrtn]
  have hdigit : digit = hexVal s'.cfg.hexLower := by rw [hcfg]
  rw [hdigit]
  rw [← hcfg] at hframe
  refine ⟨changed_soi hframe hbuf' hlen hne, changed_uninspected hframe hbuf' hlen hne, fun hi => ⟨fun code hcode => ?_,
    changed_rtn hframe hbuf' hlen hne hi⟩, changed_lchksum hframe hbuf' hlen hne, fun h10 h13 =>
    ⟨changed_lenid_noDigit hframe hbuf' hlen h10 h13, fun ho hd => ?_, fun _ =>
      changed_lenid_case hframe hbuf' hlen hne h10 h13⟩⟩
  · obtain ⟨hsoi, hshort⟩ := changed_head hframe hlen (o := o) (i := i) (by omega)
    exact respEnds_protocol hbuf' hsoi hshort hcode
  · obtain ⟨d, hod⟩ := Option.ne_none_iff_exists'.mp ho
    exact changed_lenid_value hframe hbuf' hlen hne h10 h13 hod fun h => hd (hod.trans h.symm)

end Sys2Proof.Proofs
end

section
/-! What an operation reads (10_state.md R21, R27; 20_memory.md R65). Two states that answer every read alike make each walk the
same function of the working registers, so `HEX_LOWER` matters only where it changes the value of a character that is there. -/

namespace Sys2Proof.Proofs

open Sys2Proof Sys2Proof.Machine Sys2Proof.Claims

/-- Every operand of an operation reads the same in both states: parameters, lengths, octets, registers, and the digit value of
each character there is. -/
structure SameReads (s s' : State) : Prop where
  leadSkip : s.cfg.leadSkip = s'.cfg.leadSkip
  roundTie : s.cfg.roundTie = s'.cfg.roundTie
  boolMap : s.cfg.boolMap = s'.cfg.boolMap
  rawLen : s.rawLen = s'.rawLen
  infoLen : s.infoLen = s'.infoLen
  octet : ∀ b i, octetAt b s i = octetAt b s' i
  digit : ∀ b i o, octetAt b s i = some o → hexVal s.cfg.hexLower o = hexVal s'.cfg.hexLower o
  header : s.ver = s'.ver ∧ s.adr = s'.adr ∧ s.cid1 = s'.cid1 ∧ s.cid2 = s'.cid2
  override : s.lenidOvrEn = s'.lenidOvrEn ∧ s.lenidOvr = s'.lenidOvr
  larg : s.larg = s'.larg
  operandDigit : ∀ o ∈ s.larg.toList ++ s.lenidOvr.toList, hexVal s.cfg.hexLower o = hexVal s'.cfg.hexLower o

/-! Functions of a text whose characters have the same value under both settings. -/

section
variable {l l' : Bool}

theorem hexToInt_of_digits {t : Text} (h : ∀ c ∈ t, hexVal l c = hexVal l' c) : hexToInt l t = hexToInt l' t := by
  induction t with
  | nil => rfl
  | cons c t ih =>
    obtain ⟨hc, ht⟩ := List.forall_mem_cons.mp h
    rw [hexToInt, hexToInt, hc, ih ht]

theorem digitSum_of_digits {t : Text} (h : ∀ c ∈ t, hexVal l c = hexVal l' c) : digitSum l t = digitSum l' t := by
  induction t with
  | nil => rfl
  | cons c t ih =>
    obtain ⟨hc, ht⟩ := List.forall_mem_cons.mp h
    rw [digitSum, digitSum, hc, ih ht]

theorem lchksumCalc_of_digits {t : Text} (h : ∀ c ∈ t, hexVal l c = hexVal l' c) : lchksumCalc l t = lchksumCalc l' t := by
  rw [lchksumCalc, lchksumCalc, digitSum_of_digits h]

theorem hexPairs_of_digits {t : Text} (h : ∀ c ∈ t, hexVal l c = hexVal l' c) : hexPairs l t = hexPairs l' t := by
  induction t using List.twoStepInduction with
  | nil => rfl
  | singleton c => rfl
  | cons_cons c d t ih _ =>
    obtain ⟨hc, ht⟩ := List.forall_mem_cons.mp h
    obtain ⟨hd, ht⟩ := List.forall_mem_cons.mp ht
    rw [hexPairs, hexPairs, hc, hd, ih ht]

end

section
variable {s s' : State} (h : SameReads s s')
include h

theorem memRead_same (b : Buffer) (a n : Nat) : memRead b s a n = memRead b s' a n := by
  induction n generalizing a with
  | zero => rfl
  | succ n ih => rw [memRead, memRead, h.octet, ih]

theorem digits_of_memRead {b : Buffer} {a n : Nat} {t : Text} (ht : memRead b s a n = .ok t) :
    ∀ c ∈ t, hexVal s.cfg.hexLower c = hexVal s'.cfg.hexLower c := fun c hc => by
  obtain ⟨i, hi, hget⟩ := List.mem_iff_getElem.mp hc
  obtain ⟨hlen, hoctets⟩ := (memRead_ok_iff b s a n t).mp ht
  exact h.digit b (a + i) c ((hoctets i (hlen ▸ hi)).trans (by rw [List.getElem?_eq_getElem hi, hget]))

theorem fetchText_same (b : Buffer) (a n : Nat) : fetchText b s a n = fetchText b s' a n := by
  funext k
  rw [fetchText, fetchText, memRead_same h]

theorem fetchRaw_same (i : Nat) : fetchRaw s i = fetchRaw s' i := by
  funext k
  rw [fetchRaw, fetchRaw, h.octet]

/-- A part that goes on with a text read from a buffer, when it does the same with every text whose digits agree. -/
theorem fetchText_andThen_same {α : Type} (b : Buffer) (a n : Nat) {f f' : Text → Walk α}
    (hf : ∀ t, (∀ c ∈ t, hexVal s.cfg.hexLower c = hexVal s'.cfg.hexLower c) → f t = f' t) :
    (fetchText b s a n).andThen f = (fetchText b s' a n).andThen f' := by
  funext k
  rw [← fetchText_same h]
  rcases fetchText_cases b s a n k with ⟨t, hread, hfetch⟩ | ⟨r, -, hfetch⟩
  · rw [Walk.andThen_of_ok hfetch, Walk.andThen_of_ok hfetch, hf t (digits_of_memRead h hread)]
  · rw [Walk.andThen_of_fault hfetch, Walk.andThen_of_fault hfetch]

/-! The frame operations. -/

theorem reqLenid_same : reqLenid s = reqLenid s' := by
  obtain ⟨hen, hovr⟩ := h.override
  rw [reqLenid, reqLenid, hen, hovr, h.infoLen]

theorem reqLenid_digits : ∀ c ∈ reqLenid s, hexVal s.cfg.hexLower c = hexVal s'.cfg.hexLower c := by
  rw [reqLenid_eq]
  split
  · exact fun c hc => h.operandDigit c (List.mem_append_right _ hc)
  · have hdigit : ∀ v, hexVal s.cfg.hexLower (hexChar (v % 16)) = hexVal s'.cfg.hexLower (hexChar (v % 16)) := fun v => by
      rw [hexVal_hexChar_mod, hexVal_hexChar_mod]
    simp only [digits3, List.forall_mem_cons, hdigit, List.not_mem_nil, false_implies, implies_true, and_self]

theorem encodeReqWalk_same : encodeReqWalk s = encodeReqWalk s' := by
  have hlchk : reqLchksum s.cfg.hexLower (reqLenid s) = reqLchksum s'.cfg.hexLower (reqLenid s') := by
    rw [← reqLenid_same h, reqLchksum, reqLchksum, lchksumCalc_of_digits (reqLenid_digits h)]
  obtain ⟨hver, hadr, hcid1, hcid2⟩ := h.header
  have hbody : reqBody s = reqBody s' := by
    funext lchk info
    rw [reqBody, reqBody, hver, hadr, hcid1, hcid2, reqLenid_same h]
  rw [encodeReqWalk, encodeReqWalk, hlchk, hbody, h.infoLen, fetchText_same h]

theorem respHead_same : respHead s = respHead s' := by
  rw [respHead, respHead, h.rawLen, fetchRaw_same h, fetchRaw_same h, fetchRaw_same h]

theorem respInfo_same (n : Nat) : respInfo s n = respInfo s' n := by
  rw [respInfo, respInfo, h.rawLen, fetchText_same h, fetchText_same h, fetchText_same h]

theorem respTail_same (rtn : Chars2) : respTail s rtn = respTail s' rtn := by
  unfold respTail
  split
  · rfl
  · refine fetchText_andThen_same h .raw 10 3 fun lenid hdigits => ?_
    rw [lchksumCalc_of_digits hdigits, hexToInt_of_digits hdigits, fetchRaw_same h]
    simp only [respInfo_same h]

/-! The decoders. -/

theorem readPairs_same (a n : Nat) (f : FieldId) : readPairs s a n f = readPairs s' a n f :=
  fetchText_andThen_same h .info a n fun t hdigits => by rw [hexPairs_of_digits hdigits]

theorem versionWalk_same : versionWalk s = versionWalk s' := by
  rw [versionWalk, versionWalk, h.infoLen, readPairs_same h]

theorem serialWalk_same : serialWalk s = serialWalk s' := by
  rw [serialWalk, serialWalk, h.infoLen, readPairs_same h, readPairs_same h]

theorem peekField_same (w : Nat) (f : FieldId) : peekField s w f = peekField s' w f := by
  funext k
  rw [peekField, peekField, h.infoLen, ← memRead_same h]
  split
  · rfl
  · cases hread : memRead .info s k.cur.toNat w with
    | error r => rfl
    | ok t => simp only [hexToInt_of_digits (digits_of_memRead h hread)]

theorem skipField_same (w : Nat) (f : FieldId) : skipField s w f = skipField s' w f := by
  funext k
  rw [skipField, skipField, h.infoLen]

theorem readField_same (w : Nat) (f : FieldId) : readField s w f = readField s' w f := by
  rw [readField, readField, peekField_same h]

theorem readFields_same (w : Nat) (f : FieldId) (n : Nat) : readFields s w f n = readFields s' w f n := by
  induction n with
  | zero => rfl
  | succ n ih => rw [readFields, readFields, readField_same h, ih]

theorem trailingFlag_same : trailingFlag s = trailingFlag s' := by
  funext k
  rw [trailingFlag, trailingFlag, h.infoLen, peekField_same h, skipField_same h]

theorem ratio_same (f : FieldId) (a b : Nat) : ratio s f a b = ratio s' f a b := by
  rw [ratio, ratio, h.roundTie]

theorem readPackCount_same : readPackCount s = readPackCount s' := by
  rw [readPackCount, readPackCount, h.leadSkip, skipField_same h, readField_same h]

theorem peekCells_same : peekCells s = peekCells s' := by
  rw [peekCells, peekCells, peekField_same h]

theorem analogHead_same : analogHead s = analogHead s' := by
  rw [analogHead, analogHead, peekCells_same h, skipField_same h, skipField_same h]

theorem readCells_same (n : Nat) (first : Bool) : readCells s n first = readCells s' n first := by
  induction n generalizing first with
  | zero => rfl
  | succ n ih => rw [readCells, readCells, readField_same h, ih]

theorem analogCells_same : analogCells s = analogCells s' := by
  simp only [analogCells, readCells_same h]

theorem analogTemps_same : analogTemps s = analogTemps s' := by
  simp only [analogTemps, readField_same h, readFields_same h]

theorem analogPack_same : analogPack s = analogPack s' := by
  simp only [analogPack, analogHead_same h, analogCells_same h, analogTemps_same h, readField_same h, skipField_same h,
    ratio_same h, trailingFlag_same h]

theorem analogPacks_same (n p : Nat) : analogPacks s n p = analogPacks s' n p := by
  induction n generalizing p with
  | zero => rfl
  | succ n ih => simp only [analogPacks, analogPack_same h, ih]

theorem analogWalk_same : analogWalk s = analogWalk s' := by
  simp only [analogWalk, readPackCount_same h, analogPacks_same h]

theorem capacityWalk_same : capacityWalk s = capacityWalk s' := by
  simp only [capacityWalk, readField_same h, ratio_same h]

theorem readCodes_same (f : FieldId) (src : FlagSrc) (n idx : Nat) :
    readCodes s f src n idx = readCodes s' f src n idx := by
  induction n generalizing idx with
  | zero => rfl
  | succ n ih => simp only [readCodes, readField_same h, ih]

theorem warnLists_same : warnLists s = warnLists s' := by
  simp only [warnLists, readField_same h, readCodes_same h]

theorem warnPack_same : warnPack s = warnPack s' := by
  simp only [warnPack, warnLists_same h, readField_same h, trailingFlag_same h, h.boolMap]

theorem warnPacks_same (n p : Nat) : warnPacks s n p = warnPacks s' n p := by
  induction n generalizing p with
  | zero => rfl
  | succ n ih => simp only [warnPacks, warnPack_same h, ih]

theorem warnWalk_same : warnWalk s = warnWalk s' := by
  simp only [warnWalk, readPackCount_same h, warnPacks_same h]

end

/-! `HEX_LOWER` (92_eei_decisions.md D5). -/

/-- Without an octet `a` to `f` the setting changes no digit. -/
theorem sameReads_withHexLower {s : State} (h : NoLowercase s) (b b' : Bool) :
    SameReads (withHexLower b s) (withHexLower b' s) := by
  obtain ⟨hoctets, hoperands⟩ := h
  have hsame : ∀ c b i, octetAt b (withHexLower c s) i = octetAt b s i := fun c b i => by cases b <;> rfl
  exact
    { leadSkip := rfl
      roundTie := rfl
      boolMap := rfl
      rawLen := rfl
      infoLen := rfl
      octet := fun c i => by rw [hsame, hsame]
      digit := fun c i o ho => hexVal_setting b b' o (hoctets c i o (hsame b c i ▸ ho))
      header := ⟨rfl, rfl, rfl, rfl⟩
      override := ⟨rfl, rfl⟩
      larg := rfl
      operandDigit := fun o ho => hexVal_setting b b' o (hoperands o ho) }

/-- The second outcome is the first with the setting true. -/
def SameButHexLower (o o' : Host.Outcome State Fault Refusal) : Prop :=
  (∀ f, o = .fault f → o' = .fault f) ∧ ∀ t, o = .next t → o' = .next (withHexLower true t)

theorem raiseErr_withHexLower (g : Group) (e : OpError) (b : Bool) (s : State) :
    raiseErr g e (withHexLower b s) = withHexLower b (raiseErr g e s) := by cases g <;> rfl

theorem withHexLower_withHexLower (b b' : Bool) (s : State) : withHexLower b (withHexLower b' s) = withHexLower b s := rfl

theorem sameButHexLower_raiseErr (g : Group) (e : OpError) (s : State) :
    SameButHexLower (.next (raiseErr g e (withHexLower false s))) (.next (raiseErr g e (withHexLower true s))) := by
  refine ⟨nofun, fun t ht => ?_⟩
  cases ht
  rw [← raiseErr_withHexLower, withHexLower_withHexLower]

theorem sameButHexLower_fault (f : Fault) : SameButHexLower (.fault f) (.fault f) := by
  refine ⟨fun _ h => h, fun t ht => ?_⟩
  cases ht

/-- The end of an operation looks at no parameter. -/
theorem sameButHexLower_conclude {α : Type} (g : Group) (s : State) (r : Res α) {c c' : α → State → State}
    (hc : ∀ a u, c' a (withHexLower true u) = withHexLower true (c a u)) :
    SameButHexLower (conclude g (withHexLower false s) r c) (conclude g (withHexLower true s) r c') := by
  cases r with
  | ok a k =>
    refine ⟨nofun, fun t ht => ?_⟩
    cases ht
    exact congrArg Host.Outcome.next (hc a (finishOk { withHexLower false s with work := k }))
  | err e k => exact sameButHexLower_raiseErr g e { s with work := k }
  | fault f => exact sameButHexLower_fault f

theorem lchksumCalc_larg_same {s s' : State} (h : SameReads s s') :
    lchksumCalc s.cfg.hexLower s.larg.toList = lchksumCalc s'.cfg.hexLower s'.larg.toList := by
  rw [← h.larg, lchksumCalc_of_digits fun c hc => h.operandDigit c (List.mem_append_left _ hc)]

/-- Settles O44: both settings read alike, so each operation's walk is the same, and so is its end. -/
theorem hexLowerIsIrrelevantWithoutLowercase : Obligations.HexLowerIsIrrelevantWithoutLowercase := by
  intro i s hno
  have h := sameReads_withHexLower hno false true
  change SameButHexLower _ _
  cases i with
  | chksumCalc =>
    rw [exec_chksumCalc, exec_chksumCalc, fetchText_same h]
    exact sameButHexLower_conclude _ _ _ fun _ _ => rfl
  | lchksumCalc =>
    rw [exec, exec, execLchksumCalc, execLchksumCalc, lchksumCalc_larg_same h]
    exact sameButHexLower_conclude _ _ _ fun _ _ => rfl
  | encodeReq =>
    rw [exec_encodeReq, exec_encodeReq, encodeReqWalk_same h]
    exact sameButHexLower_conclude _ _ _ fun _ _ => rfl
  | decodeResp =>
    have hsame : respHead (withHexLower false s) = respHead (withHexLower true s) := respHead_same h
    cases hhead : respHead (withHexLower true s) s.work with
    | ok rtn k =>
      rw [exec_decodeResp_of_head ((congrFun hsame s.work).trans hhead), exec_decodeResp_of_head hhead, respTail_same h]
      exact sameButHexLower_conclude .resp { s with rtnLatch := rtn } _ fun _ _ => rfl
    | err e k =>
      rw [exec_decodeResp_of_head_err ((congrFun hsame s.work).trans hhead), exec_decodeResp_of_head_err hhead]
      exact sameButHexLower_raiseErr .resp e { s with work := k }
    | fault f =>
      rw [exec_decodeResp_of_head_fault ((congrFun hsame s.work).trans hhead), exec_decodeResp_of_head_fault hhead]
      exact sameButHexLower_fault f
  | decVersion =>
    rw [exec_decVersion, exec_decVersion, versionWalk_same h]
    exact sameButHexLower_conclude _ _ _ fun _ _ => rfl
  | decSerial =>
    rw [exec_decSerial, exec_decSerial, serialWalk_same h]
    exact sameButHexLower_conclude _ _ _ fun _ _ => rfl
  | decAnalog =>
    rw [exec_decAnalog, exec_decAnalog, analogWalk_same h]
    exact sameButHexLower_conclude _ _ _ fun _ _ => rfl
  | decCapacity =>
    rw [exec_decCapacity, exec_decCapacity, capacityWalk_same h]
    exact sameButHexLower_conclude _ _ _ fun _ _ => rfl
  | decWarn =>
    rw [exec_decWarn, exec_decWarn, warnWalk_same h]
    exact sameButHexLower_conclude _ _ _ fun _ _ => rfl

end Sys2Proof.Proofs
end

section
/-! Nothing crosses operations (10_state.md R23, R27). Two runs of a part from working registers that agree on what the part reads
before it writes it end alike. -/

namespace Sys2Proof.Proofs

open Sys2Proof Sys2Proof.Machine Sys2Proof.Claims

/-- Two ends of a part: the same value from related working registers, the same error, or the same stop. -/
inductive SameEnd {α : Type} (Q : Work → Work → Prop) : Res α → Res α → Prop
  | ok (a : α) {k k' : Work} (h : Q k k') : SameEnd Q (.ok a k) (.ok a k')
  | err (e : OpError) (k k' : Work) : SameEnd Q (.err e k) (.err e k')
  | fault (f : Fault) : SameEnd Q (.fault f) (.fault f)

/-- From working registers related by `P` a part ends alike, `Q` relating what it leaves. -/
def Coupled {α : Type} (P : Work → Work → Prop) (m : Walk α) (Q : Work → Work → Prop) : Prop :=
  ∀ k k', P k k' → SameEnd Q (m k) (m k')

section
variable {α β : Type} {P P' Q Q' R : Work → Work → Prop}

theorem SameEnd.mono {r r' : Res α} (h : SameEnd Q r r') (hQ : ∀ k k', Q k k' → Q' k k') : SameEnd Q' r r' := by
  cases h with
  | ok a h => exact .ok a (hQ _ _ h)
  | err e k k' => exact .err e k k'
  | fault f => exact .fault f

theorem Coupled.andThen {m : Walk α} {f : α → Walk β} (hm : Coupled P m Q) (hf : ∀ a, Coupled Q (f a) R) :
    Coupled P (m.andThen f) R := by
  intro k k' hk
  have h := hm k k' hk
  rw [Walk.andThen_apply, Walk.andThen_apply]
  generalize m k = r at h
  generalize m k' = r' at h
  cases h with
  | ok a h => exact hf a _ _ h
  | err e k k' => exact .err e k k'
  | fault f => exact .fault f

theorem Coupled.pre {m : Walk α} (hm : Coupled P m Q) (hP : ∀ k k', P' k k' → P k k') : Coupled P' m Q :=
  fun k k' hk => hm k k' (hP k k' hk)

theorem Coupled.post {m : Walk α} (hm : Coupled P m Q) (hQ : ∀ k k', Q k k' → Q' k k') : Coupled P m Q' :=
  fun k k' hk => (hm k k' hk).mono hQ

theorem coupled_done (a : α) : Coupled P (Walk.done a) P := fun _ _ hk => .ok a hk

theorem coupled_raise (e : OpError) : Coupled P (Walk.raise e : Walk α) Q := fun k k' _ => .err e k k'

theorem coupled_set (g : Work → Work) (hg : ∀ k k', P k k' → Q (g k) (g k')) : Coupled P (Walk.set g) Q :=
  fun k k' hk => .ok () (hg k k' hk)

theorem Coupled.set_andThen {g : Work → Work} {f : Unit → Walk β} (hg : ∀ k k', P k k' → Q (g k) (g k'))
    (hf : Coupled Q (f ()) R) : Coupled P ((Walk.set g).andThen f) R :=
  (coupled_set g hg).andThen fun _ => hf

/-! Parts that read no working register. -/

theorem coupled_fetchText (b : Buffer) (s : State) (a n : Nat) : Coupled P (fetchText b s a n) P := fun k k' hk => by
  rw [fetchText, fetchText]
  cases memRead b s a n with
  | ok t => exact .ok t hk
  | error f => exact .fault f

theorem coupled_fetchRaw (s : State) (i : Nat) : Coupled P (fetchRaw s i) P := fun k k' hk => by
  rw [fetchRaw, fetchRaw]
  cases octetAt .raw s i with
  | none => exact .fault _
  | some o => exact .ok o hk

theorem coupled_ratio (s : State) (f : FieldId) (a b : Nat) : Coupled P (ratio s f a b) P := by
  unfold ratio
  split
  · exact coupled_raise _
  · exact coupled_done _

end

/-- No condition on the working registers. -/
abbrev anyWork : Work → Work → Prop := fun _ _ => True

theorem coupled_chksumCalc (t : Text) : Coupled anyWork (chksumCalc t) anyWork := by
  cases t with
  | nil => exact coupled_raise _
  | cons o t => exact fun k k' _ => by rw [chksumCalc_cons, chksumCalc_cons]; exact .ok _ trivial

theorem coupled_encodeReqWalk (s : State) : Coupled anyWork (encodeReqWalk s) anyWork := by
  unfold encodeReqWalk
  split
  · exact coupled_raise _
  · exact (coupled_fetchText .info s _ _).andThen fun _ => (coupled_chksumCalc _).andThen fun _ => coupled_done _

theorem coupled_respHead (s : State) : Coupled anyWork (respHead s) anyWork := by
  unfold respHead
  split
  · exact coupled_raise _
  · refine (coupled_fetchRaw s 0).andThen fun o => ?_
    split
    · exact coupled_raise _
    · split
      · exact coupled_raise _
      · exact (coupled_fetchRaw s 7).andThen fun _ => (coupled_fetchRaw s 8).andThen fun _ => coupled_done _

theorem coupled_respInfo (s : State) (n : Nat) : Coupled anyWork (respInfo s n) anyWork := by
  unfold respInfo
  split
  · exact coupled_raise _
  · refine (coupled_fetchText .raw s _ _).andThen fun _ => (coupled_fetchText .raw s _ _).andThen fun rx =>
      (coupled_fetchText .raw s _ _).andThen fun summed => (coupled_chksumCalc summed).andThen fun r => ?_
    split
    · exact coupled_raise _
    · exact coupled_done _

theorem coupled_respTail (s : State) (rtn : Chars2) : Coupled anyWork (respTail s rtn) anyWork := by
  unfold respTail
  split
  · exact coupled_raise _
  · refine (coupled_fetchText .raw s _ _).andThen fun lenid => ?_
    split
    · refine (coupled_fetchRaw s 9).andThen fun o => ?_
      split
      · exact coupled_raise _
      · exact coupled_respInfo s _
    · exact coupled_raise _

theorem coupled_readPairs (s : State) (a n : Nat) (f : FieldId) : Coupled anyWork (readPairs s a n f) anyWork := by
  refine (coupled_fetchText .info s a n).andThen fun t => ?_
  split
  · exact coupled_raise _
  · exact coupled_done _

theorem coupled_versionWalk (s : State) : Coupled anyWork (versionWalk s) anyWork := by
  unfold versionWalk
  split
  · exact coupled_raise _
  · exact coupled_readPairs s _ _ _

theorem coupled_serialWalk (s : State) : Coupled anyWork (serialWalk s) anyWork := by
  unfold serialWalk
  split
  · exact coupled_raise _
  · refine (coupled_readPairs s _ _ _).andThen fun b => ?_
    split
    · exact coupled_raise _
    · exact (coupled_readPairs s _ _ _).andThen fun p => coupled_done _

/-! Parts at the cursor. -/

/-- A relation that makes the cursors equal and outlasts a move of both. -/
structure OnCursor (R : Work → Work → Prop) : Prop where
  cur : ∀ {k k'}, R k k' → k.cur = k'.cur
  move : ∀ {k k'} n, R k k' → R (advance n k) (advance n k')

section
variable {s : State} {R : Work → Work → Prop} (hR : OnCursor R)
include hR

theorem coupled_peekField (w : Nat) (f : FieldId) : Coupled R (peekField s w f) R := fun k k' hk => by
  rw [peekField, peekField, ← hR.cur hk]
  split
  · exact .err _ k k'
  · cases memRead .info s k.cur.toNat w with
    | error r => exact .fault r
    | ok t =>
      dsimp only
      cases hexToInt s.cfg.hexLower t with
      | none => exact .err _ k k'
      | some v => exact .ok v hk

theorem coupled_skipField (w : Nat) (f : FieldId) : Coupled R (skipField s w f) R := fun k k' hk => by
  rw [skipField, skipField, ← hR.cur hk]
  split
  · exact .err _ k k'
  · exact .ok () (hR.move w hk)

theorem coupled_readField (w : Nat) (f : FieldId) : Coupled R (readField s w f) R :=
  (coupled_peekField hR w f).andThen fun v => (coupled_set (advance w) fun _ _ => hR.move w).andThen fun _ => coupled_done v

theorem coupled_readFields (w : Nat) (f : FieldId) (n : Nat) : Coupled R (readFields s w f n) R := by
  induction n with
  | zero => exact coupled_done _
  | succ n ih => exact (coupled_readField hR w f).andThen fun _ => ih.andThen fun _ => coupled_done _

theorem coupled_readCodes (f : FieldId) (src : FlagSrc) (n idx : Nat) : Coupled R (readCodes s f src n idx) R := by
  induction n generalizing idx with
  | zero => exact coupled_done _
  | succ n ih => exact (coupled_readField hR codeW f).andThen fun _ => (ih (idx + 1)).andThen fun _ => coupled_done _

/-- The trailing test reads `CELLS` beside the cursor. -/
theorem coupled_trailingFlag (hcells : ∀ {k k'}, R k k' → k.cells = k'.cells) : Coupled R (trailingFlag s) R :=
  fun k k' hk => by
    rw [trailingFlag, trailingFlag, ← hR.cur hk]
    split
    · refine (coupled_peekField hR countW .flag).andThen (fun v k k' hk => ?_) k k' hk
      rw [← hcells hk]
      split
      · exact coupled_skipField hR skipW .flag k k' hk
      · exact .ok () hk
    · exact .ok () hk

end

/-! The relations of the pack walks: the registers that have been written so far. -/

/-- The cursors are equal. -/
def AgreeCur (k k' : Work) : Prop := k.cur = k'.cur

/-- Before the count of a pack: `P`, and after the first pack `CELLS_PREV`. -/
def AgreeHead (k k' : Work) : Prop :=
  k.cur = k'.cur ∧ k.p = k'.p ∧ (1 < k.p.toNat → k.cellsPrev = k'.cellsPrev)

/-- In the correction of the count: `CELLS_PREV`. -/
def AgreePrev (k k' : Work) : Prop := k.cur = k'.cur ∧ k.cellsPrev = k'.cellsPrev

/-- Inside a pack: `CELLS`. -/
def AgreeCells (k k' : Work) : Prop := k.cur = k'.cur ∧ k.cells = k'.cells

/-- While the voltages of `c` cells are read: `VMIN` and `VMAX` once there has been a first. -/
def AgreeVolts (c : BitVec 8) (first : Bool) (k k' : Work) : Prop :=
  k.cur = k'.cur ∧ k.cells = c ∧ k'.cells = c ∧ (first = false → k.vmin = k'.vmin ∧ k.vmax = k'.vmax)

/-- Behind the temperature count: `TEMPS`. -/
def AgreeTemps (k k' : Work) : Prop := AgreeCells k k' ∧ k.temps = k'.temps

theorem AgreeCells.cells {k k' : Work} (h : AgreeCells k k') : k.cells = k'.cells := h.2

theorem AgreeTemps.cells {k k' : Work} (h : AgreeTemps k k') : k.cells = k'.cells := h.1.cells

theorem advance_cur_eq {k k' : Work} (h : k.cur = k'.cur) (n : Nat) : (advance n k).cur = (advance n k').cur := by
  rw [advance, advance, h]

theorem onCursor_cur : OnCursor AgreeCur := ⟨id, fun n h => advance_cur_eq h n⟩

theorem onCursor_head : OnCursor AgreeHead := ⟨fun h => h.1, fun n h => ⟨advance_cur_eq h.1 n, h.2⟩⟩

theorem onCursor_prev : OnCursor AgreePrev := ⟨fun h => h.1, fun n h => ⟨advance_cur_eq h.1 n, h.2⟩⟩

theorem onCursor_cells : OnCursor AgreeCells := ⟨fun h => h.1, fun n h => ⟨advance_cur_eq h.1 n, h.2⟩⟩

theorem onCursor_volts (c : BitVec 8) (first : Bool) : OnCursor (AgreeVolts c first) :=
  ⟨fun h => h.1, fun n h => ⟨advance_cur_eq h.1 n, h.2⟩⟩

theorem onCursor_temps : OnCursor AgreeTemps := ⟨fun h => h.1.1, fun n h => ⟨onCursor_cells.move n h.1, h.2⟩⟩

section
variable (s : State)

theorem coupled_readPackCount : Coupled anyWork (readPackCount s) AgreeCur := by
  refine Coupled.set_andThen (Q := AgreeCur) (fun _ _ _ => rfl) ?_
  refine (coupled_skipField onCursor_cur _ .lead).andThen fun _ => ?_
  refine (coupled_readField onCursor_cur countW .packs).andThen fun n => ?_
  exact Coupled.set_andThen (Q := AgreeCur) (fun _ _ h => h) (coupled_done n)

theorem coupled_capacityWalk : Coupled anyWork (capacityWalk s) AgreeCur := by
  refine Coupled.set_andThen (Q := AgreeCur) (fun _ _ _ => rfl) ?_
  refine (coupled_readField onCursor_cur valW .rem).andThen fun rem => ?_
  refine (coupled_readField onCursor_cur valW .full).andThen fun full => ?_
  refine (coupled_readField onCursor_cur valW .design).andThen fun design => ?_
  exact (coupled_ratio s .soc rem full).andThen fun _ => (coupled_ratio s .soh full design).andThen fun _ => coupled_done _

/-! `DEC_ANALOG`. -/

theorem coupled_peekCells {R : Work → Work → Prop} (hR : OnCursor R)
    (hcells : ∀ {k k'} x, R k k' → R { k with cells := x } { k' with cells := x }) :
    Coupled R (peekCells s) fun k k' => R k k' ∧ k.cells = k'.cells :=
  (coupled_peekField hR countW .cells).andThen fun _ => coupled_set _ fun _ _ h => ⟨hcells _ h, rfl⟩

/-- R203: the second look at the count, after the first pack. -/
theorem coupled_correction :
    Coupled AgreePrev ((skipField s skipW .extra).andThen fun _ => (peekCells s).andThen
      fun _ k => if k.cells ≠ k.cellsPrev then .err (.decode .cellMismatch .cells) k else .ok () k) AgreeCells := by
  refine (coupled_skipField onCursor_prev skipW .extra).andThen fun _ =>
    (coupled_peekCells s onCursor_prev fun _ h => h).andThen fun _ k k' hk => ?_
  obtain ⟨⟨hcur, hprev⟩, hcells⟩ := hk
  rw [← hprev, ← hcells]
  split
  · exact .err _ k k'
  · exact .ok () ⟨hcur, hcells⟩

/-- R203: the correction compares `CELLS_PREV` only after the first pack. -/
theorem coupled_analogHead : Coupled AgreeHead (analogHead s) AgreeCells := by
  refine (coupled_peekCells s onCursor_head fun _ h => h).andThen fun _ => Coupled.andThen (Q := AgreeCells)
    (fun k k' hk => ?_) fun _ => coupled_skipField onCursor_cells countW .cells
  obtain ⟨⟨hcur, hp, hprev⟩, hcells⟩ := hk
  have htest : (1 < k.p.toNat ∧ k.cells ≠ k.cellsPrev) ↔ (1 < k'.p.toNat ∧ k'.cells ≠ k'.cellsPrev) := by
    rw [← hp, ← hcells]
    exact and_congr_right fun h => by rw [hprev h]
  by_cases h : 1 < k.p.toNat ∧ k.cells ≠ k.cellsPrev
  · rw [if_pos h, if_pos (htest.mp h)]
    exact coupled_correction s k k' ⟨hcur, hprev h.1⟩
  · rw [if_neg h, if_neg (mt htest.mpr h)]
    exact .ok () ⟨hcur, hcells⟩

theorem agreeVolts_noteVoltage {c : BitVec 8} {first : Bool} (v : Nat) {k k' : Work} (h : AgreeVolts c first k k') :
    AgreeVolts c false (noteVoltage first v k) (noteVoltage first v k') := by
  obtain ⟨hcur, hc, hc', hvolts⟩ := h
  cases first with
  | true => exact ⟨hcur, hc, hc', fun _ => ⟨rfl, rfl⟩⟩
  | false =>
    obtain ⟨hmin, hmax⟩ := hvolts rfl
    refine ⟨hcur, hc, hc', fun _ => ?_⟩
    simp only [noteVoltage, Bool.false_eq_true, if_false, hmin, hmax, and_self]

/-- R204: the first voltage sets `VMIN` and `VMAX`, so after a voltage they are those of this pack. -/
theorem coupled_readCells (c : BitVec 8) (n : Nat) (first : Bool) :
    Coupled (AgreeVolts c first) (readCells s n first) (AgreeVolts c (first && decide (n = 0))) := by
  induction n generalizing first with
  | zero => exact (coupled_done _).post fun _ _ h => by simpa using h
  | succ n ih =>
    refine (coupled_readField (onCursor_volts c first) valW .vcell).andThen fun v => ?_
    refine Coupled.set_andThen (fun _ _ => agreeVolts_noteVoltage v) ?_
    exact (ih false).andThen fun _ => (coupled_done _).post fun _ _ h => by simpa using h

/-- R134: a pack without cells does not look at `VMIN` and `VMAX`. -/
theorem spread_eq_of_agree {c : BitVec 8} {k k' : Work} (h : AgreeVolts c (true && decide (c.toNat = 0)) k k') :
    spread k = spread k' := by
  obtain ⟨-, hc, hc', hvolts⟩ := h
  rw [spread, spread, hc, hc']
  split
  · next hpos =>
    obtain ⟨hmin, hmax⟩ := hvolts (by simpa using hpos.ne')
    rw [hmin, hmax]
  · rfl

theorem coupled_analogCells : Coupled AgreeCells (analogCells s) AgreeCells := fun k k' hk => by
  obtain ⟨hcur, hcells⟩ := hk
  have hread := coupled_readCells s k.cells k.cells.toNat true k k' ⟨hcur, rfl, hcells.symm, nofun⟩
  rw [analogCells, Walk.andThen_apply, Walk.andThen_apply, ← hcells]
  generalize readCells s k.cells.toNat true k = r at hread
  generalize readCells s k.cells.toNat true k' = r' at hread
  cases hread with
  | ok vs h =>
    dsimp only
    rw [spread_eq_of_agree h]
    exact .ok _ ⟨h.1, h.2.1.trans h.2.2.1.symm⟩
  | err e k k' => exact .err e k k'
  | fault f => exact .fault f

/-- R205. -/
theorem coupled_analogTemps : Coupled AgreeCells (analogTemps s) AgreeTemps := by
  refine (coupled_readField onCursor_cells countW .temps).andThen fun n => ?_
  refine Coupled.set_andThen (Q := AgreeTemps) (fun _ _ h => ⟨h, rfl⟩) ?_
  exact (coupled_readFields onCursor_temps valW .tcell n).andThen fun ts => coupled_done _

/-- After a pack: `CELLS_PREV`, which the next pack compares. -/
theorem coupled_analogPack : Coupled AgreeHead (analogPack s) AgreePrev := by
  have hread := fun f => coupled_readField (s := s) onCursor_temps valW f
  have hskip := fun f => coupled_skipField (s := s) onCursor_temps skipW f
  refine (coupled_analogHead s).andThen fun _ => (coupled_analogCells s).andThen fun cv =>
    (coupled_analogTemps s).andThen fun ts => (hread .ipack).andThen fun ipack => (hread .vpack).andThen fun vpack =>
    (hread .rem).andThen fun rem => (hskip .rsvd).andThen fun _ => (hread .full).andThen fun full =>
    (coupled_ratio s .soc rem full).andThen fun soc => (hread .cycles).andThen fun cycles =>
    (hread .design).andThen fun design => (coupled_ratio s .soh full design).andThen fun soh =>
    (hskip .trail).andThen fun _ => (coupled_trailingFlag onCursor_temps AgreeTemps.cells).andThen fun _ k k' hk => ?_
  obtain ⟨⟨hcur, hcells⟩, htemps⟩ := hk
  rw [← hcells, ← htemps]
  exact .ok _ ⟨hcur, rfl⟩

theorem coupled_analogPacks (n p : Nat) :
    Coupled (fun k k' => k.cur = k'.cur ∧ (1 < p → k.cellsPrev = k'.cellsPrev)) (analogPacks s n p) AgreeCur := by
  induction n generalizing p with
  | zero => exact (coupled_done _).post fun _ _ h => h.1
  | succ n ih =>
    refine Coupled.set_andThen (Q := AgreeHead) (fun k k' h => ⟨h.1, rfl, fun hp => h.2 ?_⟩) ?_
    · exact Nat.lt_of_lt_of_le hp (by simp only [BitVec.toNat_ofNat]; exact Nat.mod_le _ _)
    · refine (coupled_analogPack s).andThen fun r => ?_
      exact ((ih (p + 1)).pre fun _ _ h => ⟨h.1, fun _ => h.2⟩).andThen fun rs => coupled_done _

theorem coupled_analogWalk : Coupled anyWork (analogWalk s) AgreeCur :=
  (coupled_readPackCount s).andThen fun n =>
    ((coupled_analogPacks s n 1).pre fun _ _ h => ⟨h, fun hp => absurd hp (by decide)⟩).andThen fun _ => coupled_done _

/-! `DEC_WARN`. -/

theorem coupled_warnLists : Coupled AgreeCur (warnLists s) AgreeCells := by
  refine (coupled_readField onCursor_cur countW .cellsw).andThen fun nc => ?_
  refine Coupled.set_andThen (Q := AgreeCells) (fun _ _ h => ⟨h, rfl⟩) ?_
  refine (coupled_readCodes onCursor_cells .cellw .cell nc 1).andThen fun cs => ?_
  refine (coupled_readField onCursor_cells countW .tempsw).andThen fun nt => ?_
  refine Coupled.set_andThen (Q := AgreeCells) (fun _ _ h => h) ?_
  exact (coupled_readCodes onCursor_cells .tempw .temp nt 1).andThen fun ts => coupled_done _

theorem coupled_warnPack : Coupled AgreeCur (warnPack s) AgreeCells := by
  have hread := fun f => coupled_readField (s := s) onCursor_cells codeW f
  exact (coupled_warnLists s).andThen fun fl => (hread .chgw).andThen fun chg => (hread .vtotw).andThen fun vtot =>
    (hread .dsgw).andThen fun dsg => (hread .prot1).andThen fun prot1 => (hread .prot2).andThen fun prot2 =>
    (hread .instr).andThen fun instr => (hread .ctrl).andThen fun ctrl => (hread .fault).andThen fun fault =>
    (hread .bal1).andThen fun bal1 => (hread .bal2).andThen fun bal2 => (hread .warn1).andThen fun warn1 =>
    (hread .warn2).andThen fun warn2 => (coupled_trailingFlag onCursor_cells AgreeCells.cells).andThen fun _ => coupled_done _

theorem coupled_warnPacks (n p : Nat) : Coupled AgreeCur (warnPacks s n p) AgreeCur := by
  induction n generalizing p with
  | zero => exact coupled_done _
  | succ n ih =>
    refine Coupled.set_andThen (Q := AgreeCur) (fun _ _ h => h) ?_
    refine (coupled_warnPack s).andThen fun r => ?_
    exact ((ih (p + 1)).pre fun _ _ h => h.1).andThen fun rs => coupled_done _

theorem coupled_warnWalk : Coupled anyWork (warnWalk s) AgreeCur :=
  (coupled_readPackCount s).andThen fun n => (coupled_warnPacks s n 1).andThen fun _ => coupled_done _

end

/-! The operations. -/

/-- The second outcome has the status and the group of the first, or the same stop. -/
def SameOutcome (g : Group) (o o' : Host.Outcome State Fault Refusal) : Prop :=
  (∀ f, o = .fault f → o' = .fault f) ∧ ∀ t, o = .next t → ∃ u, o' = .next u ∧ u.status = t.status ∧ SameGroup g t u

theorem sameGroup_raiseErr (g : Group) (e : OpError) (s s' : State) : SameGroup g (raiseErr g e s) (raiseErr g e s') := by
  cases g with
  | frame | resp => exact ⟨rfl, rfl⟩
  | ck | lck | idVer | idSn | analog | cap | warn => rfl

theorem sameOutcome_raiseErr (g : Group) (e : OpError) (s s' : State) :
    SameOutcome g (.next (raiseErr g e s)) (.next (raiseErr g e s')) := by
  refine ⟨fun f hf => (by cases hf), fun t ht => ?_⟩
  cases ht
  exact ⟨_, rfl, by rw [raiseErr_status, raiseErr_status], sameGroup_raiseErr g e s s'⟩

theorem sameOutcome_fault (g : Group) (f : Fault) : SameOutcome g (.fault f) (.fault f) := by
  refine ⟨fun _ h => h, fun t ht => ?_⟩
  cases ht

/-- Two walks that end alike give outcomes that agree, when what is written on `Ok` depends on the value alone. -/
theorem sameOutcome_conclude {α : Type} {Q : Work → Work → Prop} {r r' : Res α} (h : SameEnd Q r r') (g : Group)
    (s s' : State) {c c' : α → State → State}
    (hc : ∀ a u u', u'.status = u.status → (c' a u').status = (c a u).status ∧ SameGroup g (c a u) (c' a u')) :
    SameOutcome g (conclude g s r c) (conclude g s' r' c') := by
  cases h with
  | ok a h =>
    refine ⟨fun f hf => (by cases hf), fun t ht => ?_⟩
    cases ht
    exact ⟨_, rfl, hc a _ _ rfl⟩
  | err e k k' => exact sameOutcome_raiseErr g e _ _
  | fault f => exact sameOutcome_fault g f

theorem sameReads_operandsOnly (s : State) : SameReads s (operandsOnly s) where
  leadSkip := rfl
  roundTie := rfl
  boolMap := rfl
  rawLen := rfl
  infoLen := rfl
  octet b i := by cases b <;> rfl
  digit _ _ _ _ := rfl
  header := ⟨rfl, rfl, rfl, rfl⟩
  override := ⟨rfl, rfl⟩
  larg := rfl
  operandDigit _ _ := rfl

/-- Settles O43: the operands are those the erasure keeps, so the walk is the same function, and from any two settings of the
working registers it ends alike. -/
theorem nothingCrossesOperations : Obligations.NothingCrossesOperations := by
  intro i s
  have h := sameReads_operandsOnly s
  change SameOutcome (groupOf i) _ _
  cases i with
  | chksumCalc =>
    rw [exec_chksumCalc, exec_chksumCalc, fetchText_same h]
    exact sameOutcome_conclude (((coupled_fetchText .raw _ 0 _).andThen fun u => coupled_chksumCalc u) _ _ trivial) _ _ _
      fun _ _ _ hst => ⟨hst, rfl⟩
  | lchksumCalc =>
    rw [exec, exec, execLchksumCalc, execLchksumCalc, lchksumCalc_larg_same h]
    cases lchksumCalc (operandsOnly s).cfg.hexLower (operandsOnly s).larg.toList with
    | none => exact sameOutcome_raiseErr .lck _ _ _
    | some r =>
      exact sameOutcome_conclude (coupled_done r s.work Work.reset (P := anyWork) trivial) .lck s (operandsOnly s)
        fun _ _ _ hst => ⟨hst, rfl⟩
  | encodeReq =>
    rw [exec_encodeReq, exec_encodeReq, encodeReqWalk_same h]
    exact sameOutcome_conclude (coupled_encodeReqWalk _ _ _ trivial) _ _ _ fun _ _ _ hst => ⟨hst, rfl, rfl⟩
  | decodeResp =>
    have hhead := coupled_respHead s s.work Work.reset trivial
    have hsame : respHead (operandsOnly s) (operandsOnly s).work = respHead s Work.reset := by rw [← respHead_same h]; rfl
    generalize hr : respHead s s.work = r at hhead
    generalize hr' : respHead s Work.reset = r' at hhead
    rw [hr'] at hsame
    cases hhead with
    | ok rtn _ =>
      rw [exec_decodeResp_of_head hr, exec_decodeResp_of_head hsame, respTail_same h]
      exact sameOutcome_conclude (coupled_respTail _ rtn _ _ trivial) _ _ _ fun _ _ _ hst => ⟨hst, rfl, rfl⟩
    | err e k k' =>
      rw [exec_decodeResp_of_head_err hr, exec_decodeResp_of_head_err hsame]
      exact sameOutcome_raiseErr .resp e _ _
    | fault f =>
      rw [exec_decodeResp_of_head_fault hr, exec_decodeResp_of_head_fault hsame]
      exact sameOutcome_fault .resp f
  | decVersion =>
    rw [exec_decVersion, exec_decVersion, versionWalk_same h]
    exact sameOutcome_conclude (coupled_versionWalk _ _ _ trivial) _ _ _ fun _ _ _ hst => ⟨hst, rfl⟩
  | decSerial =>
    rw [exec_decSerial, exec_decSerial, serialWalk_same h]
    exact sameOutcome_conclude (coupled_serialWalk _ _ _ trivial) _ _ _ fun _ _ _ hst => ⟨hst, rfl⟩
  | decAnalog =>
    rw [exec_decAnalog, exec_decAnalog, analogWalk_same h]
    exact sameOutcome_conclude (coupled_analogWalk _ _ _ trivial) _ _ _ fun _ _ _ hst => ⟨hst, rfl⟩
  | decCapacity =>
    rw [exec_decCapacity, exec_decCapacity, capacityWalk_same h]
    exact sameOutcome_conclude (coupled_capacityWalk _ _ _ trivial) _ _ _ fun _ _ _ hst => ⟨hst, rfl⟩
  | decWarn =>
    rw [exec_decWarn, exec_decWarn, warnWalk_same h]
    exact sameOutcome_conclude (coupled_warnWalk _ _ _ trivial) _ _ _ fun _ _ _ hst => ⟨hst, rfl⟩

end Sys2Proof.Proofs
end

section
/-! A walk along a list of fields (30_encoding.md section 3; 40_primitives_checksums.md R126 to R128). A part of a cursor walk follows
a list of fields when it passes their characters with a known value, and when it raises, under the field's identifier, the error of
the first field that the payload breaks off in or that holds no digits. -/

namespace Sys2Proof.Proofs

open Sys2Proof Sys2Proof.Machine Sys2Proof.Claims

/-- The characters of some fields. -/
abbrev charsOf (fs : List Field) : Text := fs.flatMap Field.chars

/-- From the start of a field on the payload `t` does not hold the field: it ends inside it, or it holds characters without a hex
value where the field is read (R126). -/
def BreaksIn (lower : Bool) (f : Field) (t : Text) (d : DecodeDetail) : Prop :=
  (d = .overrun ∧ t.length < f.chars.length) ∨
  (d = .badHex ∧ f.read = true ∧ ∃ x rest, t = x ++ rest ∧ x.length = f.chars.length ∧ hexToInt lower x = none)

/-- The payload `t` holds some of the fields whole and then breaks in the one whose identifier is `code`. -/
inductive Breaks (lower : Bool) : List Field → Text → DecodeDetail → BitVec 6 → Prop
  | here {f : Field} {fs : List Field} {t : Text} {d : DecodeDetail} (h : BreaksIn lower f t d) :
    Breaks lower (f :: fs) t d f.code
  | later {f : Field} {fs : List Field} {t : Text} {d : DecodeDetail} {code : BitVec 6} (h : Breaks lower fs t d code) :
    Breaks lower (f :: fs) (f.chars ++ t) d code

section
variable {lower : Bool} {fs gs : List Field} {t : Text} {d : DecodeDetail} {code : BitVec 6}

theorem breaks_cons {f : Field} (h : Breaks lower (f :: fs) t d code) :
    (BreaksIn lower f t d ∧ code = f.code) ∨ ∃ u, t = f.chars ++ u ∧ Breaks lower fs u d code := by
  cases h with
  | here h => exact .inl ⟨h, rfl⟩
  | later h => exact .inr ⟨_, rfl, h⟩

theorem breaks_append (h : Breaks lower (fs ++ gs) t d code) :
    Breaks lower fs t d code ∨ ∃ u, t = charsOf fs ++ u ∧ Breaks lower gs u d code := by
  induction fs generalizing t with
  | nil => exact .inr ⟨t, rfl, h⟩
  | cons f fs ih =>
    rcases breaks_cons h with ⟨hin, rfl⟩ | ⟨u, rfl, hu⟩
    · exact .inl (.here hin)
    · rcases ih hu with hfs | ⟨v, rfl, hv⟩
      · exact .inl (.later hfs)
      · exact .inr ⟨v, (List.append_assoc f.chars (charsOf fs) v).symm, hv⟩

theorem Breaks.behind (h : Breaks lower gs t d code) (fs : List Field) : Breaks lower (fs ++ gs) (charsOf fs ++ t) d code := by
  induction fs with
  | nil => exact h
  | cons f fs ih =>
    rw [charsOf, List.flatMap_cons, List.append_assoc]
    exact .later ih

/-- A payload cut short breaks in the field it is cut in (R265). -/
theorem breaks_of_cut {cut rest : Text} (h : cut ++ rest = charsOf fs) (hrest : rest ≠ []) :
    Breaks lower fs cut .overrun (fieldAt fs cut.length) := by
  induction fs generalizing cut with
  | nil => exact absurd (List.append_eq_nil_iff.mp h).2 hrest
  | cons f fs ih =>
    rw [charsOf, List.flatMap_cons] at h
    rw [fieldAt]
    split
    · next hshort => exact .here (.inl ⟨rfl, hshort⟩)
    · next hlong =>
      obtain ⟨u, rfl⟩ : f.chars <+: cut :=
        List.prefix_of_prefix_length_le ⟨_, rfl⟩ (h ▸ List.prefix_append cut rest) (by omega)
      rw [List.append_assoc, List.append_cancel_left_eq] at h
      rw [List.length_append, Nat.add_sub_cancel_left]
      exact .later (ih h)

end

/-- From working registers with `P` the part `m` follows the fields: it passes their characters with the value `a` and leaves `Q`;
on a payload that breaks in one of them it raises that error. -/
structure Follows {α : Type} (s : State) (fs : List Field) (P : Work → Prop) (m : Walk α) (a : α) (Q : Work → Prop) : Prop where
  whole : ∀ {k rest}, P k → At s k (charsOf fs ++ rest) → ∃ k', m k = .ok a k' ∧ At s k' rest ∧ Q k'
  broken : ∀ {k t d code}, P k → At s k t → Breaks s.cfg.hexLower fs t d code →
    ∃ f k', m k = .err (.decode d f) k' ∧ fieldCode f = code

section
variable {s : State} {α β : Type} {fs gs : List Field} {P P' Q Q' R : Work → Prop} {a : α} {b : β}

theorem Follows.andThen {m : Walk α} {f : α → Walk β} (hm : Follows s fs P m a Q) (hf : Follows s gs Q (f a) b R) :
    Follows s (fs ++ gs) P (m.andThen f) b R where
  whole hk hat := by
    rw [charsOf, List.flatMap_append, List.append_assoc] at hat
    obtain ⟨k', hok, hat', hQ⟩ := hm.whole hk hat
    rw [Walk.andThen_of_ok hok]
    exact hf.whole hQ hat'
  broken hk hat hbreaks := by
    rcases breaks_append hbreaks with hfs | ⟨u, rfl, hgs⟩
    · obtain ⟨f, k', herr, hcode⟩ := hm.broken hk hat hfs
      exact ⟨f, k', Walk.andThen_of_err herr _, hcode⟩
    · obtain ⟨k', hok, hat', hQ⟩ := hm.whole hk hat
      rw [Walk.andThen_of_ok hok]
      exact hf.broken hQ hat' hgs

/-- A value made of the part's value. -/
theorem Follows.value {m : Walk α} (hm : Follows s fs P m a Q) (g : α → β) :
    Follows s fs P (m.andThen fun x => Walk.done (g x)) (g a) Q where
  whole hk hat := by
    obtain ⟨k', hok, hat', hQ⟩ := hm.whole hk hat
    exact ⟨k', Walk.andThen_of_ok hok _, hat', hQ⟩
  broken hk hat hbreaks := by
    obtain ⟨f, k', herr, hcode⟩ := hm.broken hk hat hbreaks
    exact ⟨f, k', Walk.andThen_of_err herr _, hcode⟩

/-- One field, and then others. -/
theorem Follows.cons {g : Field} {m : Walk α} {f : α → Walk β} (hm : Follows s [g] P m a Q) (hf : Follows s fs Q (f a) b R) :
    Follows s (g :: fs) P (m.andThen f) b R :=
  hm.andThen hf

theorem Follows.mono {m : Walk α} (h : Follows s fs P m a Q) (hP : ∀ k, P' k → P k) (hQ : ∀ k, Q k → Q' k) :
    Follows s fs P' m a Q' where
  whole hk hat := by
    obtain ⟨k', hok, hat', hq⟩ := h.whole (hP _ hk) hat
    exact ⟨k', hok, hat', hQ k' hq⟩
  broken hk := h.broken (hP _ hk)

theorem follows_done (a : α) : Follows s [] P (Walk.done a) a P where
  whole hk hat := ⟨_, rfl, hat, hk⟩
  broken _ _ h := nomatch h

/-- A write of working registers other than the cursor, and then others. -/
theorem Follows.set_andThen {g : Work → Work} {f : Unit → Walk β} (hg : ∀ k, P k → (g k).cur = k.cur ∧ Q (g k))
    (hf : Follows s fs Q (f ()) b R) : Follows s fs P ((Walk.set g).andThen f) b R where
  whole hk hat := hf.whole (hg _ hk).2 (hat.congr (hg _ hk).1)
  broken hk hat := hf.broken (hg _ hk).2 (hat.congr (hg _ hk).1)

/-- A percentage whose divisor is not 0 takes no characters (R136). -/
theorem follows_ratio (f : FieldId) (a : Nat) {b : Nat} (hb : b ≠ 0) :
    Follows s [] P (ratio s f a b) (BitVec.ofNat 30 (pct s.cfg.roundTie a b)) P where
  whole hk hat := ⟨_, ratio_pos s f a b _ hb, hat, hk⟩
  broken _ _ h := nomatch h

/-! The field primitives. -/

theorem peekField_of_breaksIn {k : Work} {f : FieldId} {w : Nat} {g : Field} {t : Text} {d : DecodeDetail} (hat : At s k t)
    (hw : g.chars.length = w) (h : BreaksIn s.cfg.hexLower g t d) : peekField s w f k = .err (.decode d f) k := by
  rcases h with ⟨rfl, hshort⟩ | ⟨rfl, -, x, rest, rfl, hx, hbad⟩
  · exact peekField_overrun f hat (hw ▸ hshort)
  · exact peekField_badHex f hat (hx.trans hw) hbad

theorem breaks_singleton {lower : Bool} {g : Field} {t : Text} {d : DecodeDetail} {code : BitVec 6}
    (h : Breaks lower [g] t d code) : BreaksIn lower g t d ∧ code = g.code := by
  rcases breaks_cons h with h | ⟨u, -, hu⟩
  · exact h
  · nomatch hu

/-- R126: a field that is read. -/
theorem follows_readField (hP : NoCur P) (f : FieldId) {w v : Nat} {t : Text} (hw : t.length = w)
    (hv : hexToInt s.cfg.hexLower t = some v) : Follows s [⟨fieldCode f, true, t⟩] P (readField s w f) v P where
  whole {k rest} hk hat := by
    have hat : At s k (t ++ rest) := by simpa [charsOf] using hat
    exact ⟨_, readField_of_peek (peekField_at f hat hw hv), hat.move hw, hP k w hk⟩
  broken {k} _ _ _ _ hat h := by
    obtain ⟨hin, rfl⟩ := breaks_singleton h
    exact ⟨f, k, Walk.andThen_of_err (peekField_of_breaksIn hat hw hin) _, rfl⟩

theorem follows_readField_digits2 (hP : NoCur P) (f : FieldId) {v : Nat} (hv : v < 256) :
    Follows s [⟨fieldCode f, true, digits2 v⟩] P (readField s 2 f) v P :=
  follows_readField hP f rfl (hexToInt_digits2 _ v hv)

theorem hexToInt_digits4 (l : Bool) {v : Nat} (hv : v < 65536) : hexToInt l (digits4 v) = some v := by
  rw [digits4_eq]
  exact hexToInt_intToHex l v 4 hv

theorem follows_readField_digits4 (hP : NoCur P) (f : FieldId) {v : Nat} (hv : v < 65536) :
    Follows s [⟨fieldCode f, true, digits4 v⟩] P (readField s 4 f) v P :=
  follows_readField hP f rfl (hexToInt_digits4 _ hv)

/-- R128: a field that is passed over. -/
theorem follows_skipField (hP : NoCur P) (f : FieldId) {w : Nat} {t : Text} (hw : t.length = w) :
    Follows s [⟨fieldCode f, false, t⟩] P (skipField s w f) () P where
  whole {k rest} hk hat := by
    obtain ⟨hok, hat'⟩ := skipField_at f (show At s k (t ++ rest) by simpa [charsOf] using hat) hw
    exact ⟨_, hok, hat', hP k w hk⟩
  broken {k} _ _ _ _ hat h := by
    obtain ⟨⟨rfl, hshort⟩ | ⟨-, hread, -⟩, rfl⟩ := breaks_singleton h
    · exact ⟨f, k, skipField_overrun f hat (hw ▸ hshort), rfl⟩
    · cases hread

/-- A run of fields of one kind, each read to its value. -/
theorem follows_readFields (hP : NoCur P) (f : FieldId) {vs : List Nat} (hvs : ∀ v ∈ vs, v < 65536) :
    Follows s (vs.map fun v => ⟨fieldCode f, true, digits4 v⟩) P (readFields s 4 f vs.length) vs P := by
  induction vs with
  | nil => exact follows_done _
  | cons v vs ih =>
    obtain ⟨hv, hvs⟩ := List.forall_mem_cons.mp hvs
    exact (follows_readField_digits4 hP f hv).cons ((ih hvs).value (v :: ·))

end

/-- The head of a pack walk (R201, R232): the leading characters, then the pack count. -/
theorem follows_readPackCount {s : State} {lead : Text} {n : Nat} (hlead : lead.length = leadChars s.cfg.leadSkip)
    (hn : n < 256) :
    Follows s [⟨1, false, lead⟩, ⟨2, true, digits2 n⟩] (fun k => k.cur = 0) (readPackCount s) n fun _ => True := by
  have hT : NoCur fun _ => True := fun _ _ _ => trivial
  refine Follows.set_andThen (Q := fun _ => True) (fun k hk => ⟨hk.symm, trivial⟩) ?_
  refine (follows_skipField hT .lead hlead).cons ?_
  refine (follows_readField_digits2 hT .packs hn).cons ?_
  exact Follows.set_andThen (fun _ _ => ⟨rfl, trivial⟩) (follows_done n)

end Sys2Proof.Proofs
end

section
/-! The head of both pack walks, their loop over packs, and the trailing test (43_analog_capacity.md R201, R202, R214;
44_warnings.md R232, R233, R244). -/

namespace Sys2Proof.Proofs

open Sys2Proof Sys2Proof.Machine Sys2Proof.Claims

/-! The ends of the two operations. -/

theorem exec_decAnalog_of_err {s : State} {e : OpError} {k : Work} (hwalk : analogWalk s s.work = .err e k) :
    exec .decAnalog s = .next { s with analog := none, work := k, status := errStatus e } := by
  rw [exec_decAnalog, hwalk]
  rfl

theorem exec_decAnalog_of_ok {s : State} {g : AnalogGroup} {k : Work} (hwalk : analogWalk s s.work = .ok g k) :
    exec .decAnalog s = .next { s with analog := some g, work := k, status := okStatus } := by
  rw [exec_decAnalog, hwalk]
  rfl

theorem exec_decWarn_of_err {s : State} {e : OpError} {k : Work} (hwalk : warnWalk s s.work = .err e k) :
    exec .decWarn s = .next { s with warn := none, work := k, status := errStatus e } := by
  rw [exec_decWarn, hwalk]
  rfl

theorem exec_decWarn_of_ok {s : State} {g : WarnGroup} {k : Work} (hwalk : warnWalk s s.work = .ok g k) :
    exec .decWarn s = .next { s with warn := some g, work := k, status := okStatus } := by
  rw [exec_decWarn, hwalk]
  rfl

/-! The head. -/

/-- The walk starts with the cursor at 0, whatever it was before. -/
theorem readPackCount_cur (s : State) (k : Work) : readPackCount s k = readPackCount s { k with cur := 0 } := rfl

/-- A payload that breaks in the head. -/
theorem readPackCount_of_breaks {s : State} {lead t : Text} {n : Nat} {d : DecodeDetail} {code : BitVec 6}
    (hinfo : bufText .info s = .ok t) (hlead : lead.length = leadChars s.cfg.leadSkip) (hn : n < 256)
    (h : Breaks s.cfg.hexLower [⟨1, false, lead⟩, ⟨2, true, digits2 n⟩] t d code) (k : Work) :
    ∃ f k', readPackCount s k = .err (.decode d f) k' ∧ fieldCode f = code := by
  rw [readPackCount_cur]
  exact (follows_readPackCount hlead hn).broken rfl (At.start s _ t hinfo rfl) h

theorem analogWalk_of_head_err {s : State} {e : OpError} {k k' : Work} (h : readPackCount s k = .err e k') :
    analogWalk s k = .err e k' := by
  rw [analogWalk, Walk.andThen_of_err h]

theorem warnWalk_of_head_err {s : State} {e : OpError} {k k' : Work} (h : readPackCount s k = .err e k') :
    warnWalk s k = .err e k' := by
  rw [warnWalk, Walk.andThen_of_err h]

/-- What a `DecodeError` under a field's identifier leaves in `STATUS` (R261, R265). -/
theorem errStatus_decode {d : DecodeDetail} {f : FieldId} {code : BitVec 6} (h : fieldCode f = code) :
    errStatus (.decode d f) = ended 4 (decodeCode d) code := by
  rw [← h]
  rfl

/-- A payload that breaks in the head ends either operation with that error. -/
theorem exec_of_head_breaks {s : State} {lead t : Text} {n : Nat} {d : DecodeDetail} {code : BitVec 6} {i : Instr}
    (hinfo : bufText .info s = .ok t) (hi : i = .decAnalog ∨ i = .decWarn)
    (hlead : lead.length = leadChars s.cfg.leadSkip) (hn : n < 256)
    (h : Breaks s.cfg.hexLower [⟨1, false, lead⟩, ⟨2, true, digits2 n⟩] t d code) :
    ∃ u, exec i s = .next u ∧ u.status = ended 4 (decodeCode d) code ∧ GroupInvalid (groupOf i) u := by
  obtain ⟨f, k', herr, hcode⟩ := readPackCount_of_breaks hinfo hlead hn h s.work
  rcases hi with rfl | rfl
  · exact ⟨_, exec_decAnalog_of_err (analogWalk_of_head_err herr), errStatus_decode hcode, rfl⟩
  · exact ⟨_, exec_decWarn_of_err (warnWalk_of_head_err herr), errStatus_decode hcode, rfl⟩

/-- Settles O33: the head is two fields, and the payload breaks in the first or the second. -/
theorem packCountErrors : Obligations.PackCountErrors := by
  intro s t i hinfo hi lead
  have hfirst : lead ≤ t.length → (t.take lead).length = leadChars s.cfg.leadSkip := List.length_take_of_le
  have hpast : ∀ {d code}, Breaks s.cfg.hexLower [⟨2, true, digits2 0⟩] (t.drop lead) d code →
      Breaks s.cfg.hexLower [⟨1, false, t.take lead⟩, ⟨2, true, digits2 0⟩] t d code := fun {d code} h => by
    have hlater : Breaks s.cfg.hexLower [⟨1, false, t.take lead⟩, ⟨2, true, digits2 0⟩] (t.take lead ++ t.drop lead) d code :=
      .later h
    rwa [List.take_append_drop] at hlater
  have hdrop := List.length_drop (i := lead) (l := t)
  refine ⟨fun hshort => ?_, fun hlead hshort => ?_, fun hlong hbad => ?_⟩
  · have hchars : (List.replicate lead (0x30#8)).length = lead := List.length_replicate
    exact exec_of_head_breaks (n := 0) hinfo hi hchars (by decide) (.here (.inl ⟨rfl, by rwa [hchars]⟩))
  · have hcut : (t.drop lead).length < 2 := by omega
    exact exec_of_head_breaks hinfo hi (hfirst hlead) (by decide) (hpast (.here (.inl ⟨rfl, hcut⟩)))
  · have hpair : ((t.drop lead).take 2).length = 2 := List.length_take_of_le (by omega)
    exact exec_of_head_breaks hinfo hi (hfirst (by omega)) (by decide)
      (hpast (.here (.inr ⟨rfl, rfl, _, _, (List.take_append_drop 2 _).symm, hpair, hbad⟩)))

/-! The loop. -/

/-- `n` packs in payload order, the next being pack `p`. -/
def eachPack {α : Type} (one : Nat → Walk α) (n p : Nat) : Walk (List α) :=
  match n with
  | 0 => Walk.done []
  | n + 1 => (one p).andThen fun r => (eachPack one n (p + 1)).andThen fun rs => Walk.done (r :: rs)

/-- Pack `p` of `DEC_ANALOG`. -/
def analogOne (s : State) (p : Nat) : Walk AnalogRec :=
  (Walk.set fun k => { k with p := BitVec.ofNat 8 p }).andThen fun _ => analogPack s

/-- Pack `p` of `DEC_WARN`. -/
def warnOne (s : State) (p : Nat) : Walk WarnRec :=
  (Walk.set fun k => { k with p := BitVec.ofNat 8 p }).andThen fun _ => warnPack s

theorem analogPacks_eq (s : State) (n p : Nat) : analogPacks s n p = eachPack (analogOne s) n p := by
  induction n generalizing p with
  | zero => rfl
  | succ n ih =>
    rw [analogPacks, eachPack, ih]
    rfl

theorem warnPacks_eq (s : State) (n p : Nat) : warnPacks s n p = eachPack (warnOne s) n p := by
  induction n generalizing p with
  | zero => rfl
  | succ n ih =>
    rw [warnPacks, eachPack, ih]
    rfl

section
variable {α δ : Type} {one : Nat → Walk α}

theorem eachPack_append_err {a b p : Nat} {k k' k'' : Work} {rs : List α} {e : OpError}
    (ha : eachPack one a p k = .ok rs k') (hb : eachPack one b (p + a) k' = .err e k'') :
    eachPack one (a + b) p k = .err e k'' := by
  induction a generalizing p k rs with
  | zero =>
    cases ha
    rwa [Nat.zero_add]
  | succ a ih =>
    rw [eachPack, Walk.andThen_ok_iff] at ha
    obtain ⟨r, k1, hone, hrest⟩ := ha
    obtain ⟨rs1, k2, hrs, hdone⟩ := (Walk.andThen_ok_iff _ _ _ _ _).mp hrest
    obtain ⟨rfl, rfl⟩ : r :: rs1 = rs ∧ k2 = k' := by simpa using hdone
    have htail := ih hrs (by rwa [show p + 1 + a = p + (a + 1) by omega])
    rw [show a + 1 + b = a + b + 1 by omega, eachPack, Walk.andThen_of_ok hone, Walk.andThen_of_err htail]

theorem eachPack_err {n p : Nat} {k k' : Work} {e : OpError} (hn : 0 < n) (h : one p k = .err e k') :
    eachPack one n p k = .err e k' := by
  obtain ⟨n, rfl⟩ := Nat.exists_eq_succ_of_ne_zero hn.ne'
  rw [eachPack, Walk.andThen_of_err h]

/-- The loop over packs that are all there: each step makes one record and keeps the invariant. -/
theorem eachPack_run {Rel : α → δ → Prop} {I : Nat → List δ → Work → Prop}
    (hstep : ∀ p d ds k, I p (d :: ds) k → ∃ r k', one p k = .ok r k' ∧ Rel r d ∧ I (p + 1) ds k') {ds : List δ} {p : Nat}
    {k : Work} (hI : I p ds k) :
    ∃ rs k', eachPack one ds.length p k = .ok rs k' ∧ List.Forall₂ Rel rs ds ∧ I (p + ds.length) [] k' := by
  induction ds generalizing p k with
  | nil => exact ⟨[], k, rfl, .nil, hI⟩
  | cons d ds ih =>
    obtain ⟨r, k1, hone, hrel, hI1⟩ := hstep p d ds k hI
    obtain ⟨rs, k2, hrs, hall, hI2⟩ := ih hI1
    refine ⟨r :: rs, k2, ?_, .cons hrel hall, ?_⟩
    · rw [List.length_cons, eachPack, Walk.andThen_of_ok hone, Walk.andThen_of_ok hrs]
      rfl
    · rwa [List.length_cons, show p + (ds.length + 1) = p + 1 + ds.length by omega]

end

/-- The walk of `DEC_ANALOG` behind a whole head. -/
theorem analogWalk_of_packs_ok {s : State} {n : Nat} {k k' k'' : Work} {rs : List AnalogRec}
    (hhead : readPackCount s k = .ok n k') (hpacks : eachPack (analogOne s) n 1 k' = .ok rs k'') :
    analogWalk s k = .ok ⟨BitVec.ofNat 8 n, rs⟩ k'' := by
  rw [analogWalk, Walk.andThen_of_ok hhead, analogPacks_eq, Walk.andThen_of_ok hpacks]
  rfl

theorem analogWalk_of_packs_err {s : State} {n : Nat} {k k' k'' : Work} {e : OpError}
    (hhead : readPackCount s k = .ok n k') (hpacks : eachPack (analogOne s) n 1 k' = .err e k'') :
    analogWalk s k = .err e k'' := by
  rw [analogWalk, Walk.andThen_of_ok hhead, analogPacks_eq, Walk.andThen_of_err hpacks]

theorem warnWalk_of_packs_ok {s : State} {n : Nat} {k k' k'' : Work} {rs : List WarnRec}
    (hhead : readPackCount s k = .ok n k') (hpacks : eachPack (warnOne s) n 1 k' = .ok rs k'') :
    warnWalk s k = .ok ⟨BitVec.ofNat 8 n, rs⟩ k'' := by
  rw [warnWalk, Walk.andThen_of_ok hhead, warnPacks_eq, Walk.andThen_of_ok hpacks]
  rfl

theorem warnWalk_of_packs_err {s : State} {n : Nat} {k k' k'' : Work} {e : OpError}
    (hhead : readPackCount s k = .ok n k') (hpacks : eachPack (warnOne s) n 1 k' = .err e k'') :
    warnWalk s k = .err e k'' := by
  rw [warnWalk, Walk.andThen_of_ok hhead, warnPacks_eq, Walk.andThen_of_err hpacks]

/-! The trailing test after a pack with the count `c`. -/

/-- The text `t` behind a pack, and what the trailing test leaves of it: nothing stays nothing, a field that differs from the count
is passed over, the count stays. -/
inductive Flagged (c : Nat) : Text → Text → Prop
  | none : Flagged c [] []
  | passed {v : Nat} (hv : v < 256) (hne : v ≠ c) (rest : Text) : Flagged c (digits2 v ++ rest) rest
  | stays (rest : Text) : Flagged c (digits2 c ++ rest) (digits2 c ++ rest)

/-- R214, R244. -/
theorem trailingFlag_flagged {s : State} {k : Work} {c : Nat} {t u : Text} (hat : At s k t) (h : Flagged c t u) (hc : c < 256)
    (hcells : k.cells.toNat = c) : ∃ k', trailingFlag s k = .ok () k' ∧ At s k' u ∧ OnlyCursor k k' := by
  cases h with
  | none => exact ⟨k, trailingFlag_end hat, hat, .refl k⟩
  | passed hv hne rest =>
    obtain ⟨hok, hat'⟩ := trailingFlag_skip hat rfl (hexToInt_digits2 _ _ hv) (hcells ▸ hne)
    exact ⟨_, hok, hat', onlyCursor_advance 2 k⟩
  | stays rest =>
    exact ⟨k, trailingFlag_stay hat rfl (by rw [hcells]; exact hexToInt_digits2 _ _ hc), hat, .refl k⟩

/-- Characters behind a pack that are no field of two digits (R216, R246). -/
theorem trailingFlag_of_breaksIn {s : State} {k : Work} {t : Text} {d : DecodeDetail} {g : Field} (hat : At s k t)
    (hne : t ≠ []) (hg : g.chars.length = countW) (h : BreaksIn s.cfg.hexLower g t d) :
    trailingFlag s k = .err (.decode d .flag) k := by
  have hlen := hat.len
  have hpos := List.length_pos_iff.mpr hne
  rw [trailingFlag, if_pos (by omega), Walk.andThen_of_err (peekField_of_breaksIn hat hg h)]

end Sys2Proof.Proofs
end

section
/-! The decoders of a payload, started on an empty one (10_state.md R32; 70_reset_and_hazards.md R305). -/

namespace Sys2Proof.Proofs

open Sys2Proof Sys2Proof.Machine Sys2Proof.Claims

theorem bufText_of_bufLen_zero {b : Buffer} {s : State} (h : bufLen b s = 0) : bufText b s = .ok [] := by
  rw [bufText, h]
  rfl

section
variable {s : State} (hinfo : bufText .info s = .ok [])
include hinfo

theorem decVersion_of_empty : ∃ u, exec .decVersion s = .next u ∧ u.status = ended 0 0 0 ∧ u.idVer = some ⟨[], 0⟩ := by
  obtain ⟨k, g, hexec, hversion, hlen, -⟩ := ((decVersionDecodesWholePayload s [] hinfo).2 rfl).2 [] rfl
  have hg : g = ⟨[], 0⟩ := by
    obtain ⟨version, versionLen⟩ := g
    obtain rfl : version = [] := hversion
    obtain rfl : versionLen = 0 := BitVec.eq_of_toNat_eq hlen
    rfl
  exact ⟨_, hexec, rfl, congrArg some hg⟩

theorem decSerial_of_empty :
    ∃ u, exec .decSerial s = .next u ∧ u.status = ended 4 1 20 ∧ GroupInvalid .idSn u := by
  obtain ⟨k, hexec⟩ := (decSerialDecodesTwoRanges s [] hinfo).1 (by simp)
  exact ⟨_, hexec, rfl, rfl⟩

theorem decCapacity_of_empty :
    ∃ u, exec .decCapacity s = .next u ∧ u.status = ended 4 1 10 ∧ GroupInvalid .cap u := by
  obtain ⟨hshort, -⟩ := (decCapacityReadsThreeFields s [] hinfo).1 0 10 (by simp) (by simp) (by simp)
  obtain ⟨k, hexec⟩ := hshort (by simp)
  exact ⟨_, hexec, rfl, rfl⟩

/-- The first field of a pack walk is F_LEAD, or F_PACKS when no characters lead (R201, R232). -/
theorem packWalk_of_empty {i : Instr} (hi : i = .decAnalog ∨ i = .decWarn) :
    ∃ u, exec i s = .next u ∧ u.status = ended 4 1 (if s.cfg.leadSkip = .zero then 2 else 1) ∧
      GroupInvalid (groupOf i) u := by
  obtain ⟨hlead, hpacks, -⟩ := packCountErrors s [] i hinfo hi
  cases hskip : s.cfg.leadSkip with
  | zero => exact hpacks (by simp [hskip, leadChars]) (by simp)
  | two => exact hlead (by simp [hskip, leadChars])

end

/-- Settles O26: a rejected response leaves INFO empty (R32), and on an empty payload each decoder ends at its first field. -/
theorem rejectedPayloadCannotBeDecoded : Obligations.RejectedPayloadCannotBeDecoded := by
  intro s t hexec hkind
  obtain ⟨hlen, -⟩ : GroupInvalid .resp t := ((exec_end_of_kind hexec).2 hkind).1
  have hinfo : bufText .info t = .ok [] := bufText_of_bufLen_zero (by rw [bufLen, hlen]; rfl)
  have hdecode {d : BitVec 8} {f : BitVec 6} {i : Instr}
      (h : ∃ u, exec i t = .next u ∧ u.status = ended 4 d f ∧ GroupInvalid (groupOf i) u) :
      ∃ u, exec i t = .next u ∧ u.status.kind = 4 ∧ u.status.detail = d ∧ GroupInvalid (groupOf i) u := by
    obtain ⟨u, hu, hst, hinvalid⟩ := h
    exact ⟨u, hu, by rw [hst]; rfl, by rw [hst]; rfl, hinvalid⟩
  refine ⟨decVersion_of_empty hinfo, fun i hi => ?_⟩
  rcases hi with rfl | rfl | rfl | rfl
  · exact hdecode (decSerial_of_empty hinfo)
  · exact hdecode (packWalk_of_empty hinfo (.inl rfl))
  · exact hdecode (decCapacity_of_empty hinfo)
  · exact hdecode (packWalk_of_empty hinfo (.inr rfl))

/-- Settles O10: at reset both buffers are empty. -/
theorem outcomesStraightAfterReset : Obligations.OutcomesStraightAfterReset := by
  intro cfg s
  have hraw : bufText .raw s = .ok [] := bufText_of_bufLen_zero rfl
  have hinfo : bufText .info s = .ok [] := bufText_of_bufLen_zero rfl
  have hstatus {i : Instr} {st : Status} {P : State → Prop} (h : ∃ u, exec i s = .next u ∧ u.status = st ∧ P u) :
      ∃ u, exec i s = .next u ∧ u.status = st := by
    obtain ⟨u, hu, hst, -⟩ := h
    exact ⟨u, hu, hst⟩
  refine ⟨⟨_, exec_chksumCalc_of_nil hraw, rfl⟩, ?_, decVersion_of_empty hinfo, hstatus (decSerial_of_empty hinfo),
    hstatus (packWalk_of_empty hinfo (.inl rfl)), hstatus (decCapacity_of_empty hinfo),
    hstatus (packWalk_of_empty hinfo (.inr rfl))⟩
  obtain ⟨t, k, hexec, -, ht⟩ := (decodeRespTakesItsStepsInOrder s [] hraw).1 (by simp)
  exact ⟨t, hexec, by rw [ht]⟩

end Sys2Proof.Proofs
end

section
/-! One pack of `DEC_ANALOG` along its fields (43_analog_capacity.md R200, R203 to R214): the count, what is measured, the rest up to
the trailing field, and the trailing test. -/

namespace Sys2Proof.Proofs

open Sys2Proof Sys2Proof.Machine Sys2Proof.Claims

/-! Parts that take no characters, or that look at the working registers. -/

section
variable {s : State} {α : Type} {fs : List Field} {P Q : Work → Prop} {a : α}

/-- Then a value that the working registers give. -/
theorem Follows.result {β : Type} {m : Walk α} {f : α → Walk β} {b : β} (hm : Follows s fs P m a Q)
    (hf : ∀ k, Q k → f a k = .ok b k) : Follows s fs P (m.andThen f) b Q where
  whole hk hat := by
    obtain ⟨k', hok, hat', hQ⟩ := hm.whole hk hat
    exact ⟨k', by rw [Walk.andThen_of_ok hok, hf k' hQ], hat', hQ⟩
  broken hk hat hbreaks := by
    obtain ⟨f, k', herr, hcode⟩ := hm.broken hk hat hbreaks
    exact ⟨f, k', Walk.andThen_of_err herr _, hcode⟩

theorem Follows.congr {m m' : Walk α} (hm : Follows s fs P m a Q) (h : ∀ k, P k → m' k = m k) : Follows s fs P m' a Q where
  whole hk hat := by
    rw [h _ hk]
    exact hm.whole hk hat
  broken hk hat hbreaks := by
    rw [h _ hk]
    exact hm.broken hk hat hbreaks

end

theorem map_toNat_map_ofNat {w : Nat} {vs : List Nat} (h : ∀ v ∈ vs, v < 2 ^ w) :
    (vs.map (BitVec.ofNat w)).map BitVec.toNat = vs :=
  (List.map_map ..).trans ((List.map_congr_left fun v hv => toNat_ofNat_of_lt (h v hv)).trans (List.map_id vs))

/-! A pack and its trailing test, in either walk. -/

/-- Pack `p`: its fields, the trailing test, its record. -/
def flaggedPack {α β : Type} (s : State) (body : Walk β) (close : β → Walk α) (p : Nat) : Walk α :=
  (Walk.set fun k => { k with p := BitVec.ofNat 8 p }).andThen fun _ =>
  body.andThen fun r =>
  (trailingFlag s).andThen fun _ =>
  close r

section
variable {α β : Type} {s : State} {body : Walk β} {close : β → Walk α} {p : Nat} {k k' k'' : Work} {r : β} {e : OpError}

theorem flaggedPack_of_body_err (h : body { k with p := BitVec.ofNat 8 p } = .err e k') :
    flaggedPack s body close p k = .err e k' := by
  rw [flaggedPack, Walk.andThen_of_ok (Walk.set_apply _ k), Walk.andThen_of_err h]

theorem flaggedPack_of_flag_err (h : body { k with p := BitVec.ofNat 8 p } = .ok r k')
    (hflag : trailingFlag s k' = .err e k'') : flaggedPack s body close p k = .err e k'' := by
  rw [flaggedPack, Walk.andThen_of_ok (Walk.set_apply _ k), Walk.andThen_of_ok h, Walk.andThen_of_err hflag]

theorem flaggedPack_of_ok (h : body { k with p := BitVec.ofNat 8 p } = .ok r k')
    (hflag : trailingFlag s k' = .ok () k'') : flaggedPack s body close p k = close r k'' := by
  rw [flaggedPack, Walk.andThen_of_ok (Walk.set_apply _ k), Walk.andThen_of_ok h, Walk.andThen_of_ok hflag]

end

/-! A pack cut in parts. -/

/-- What a pack holds between its cell count and its cycles. -/
structure Measured where
  cells : List (BitVec 16) × BitVec 16
  temps : List (BitVec 17)
  ipack : Nat
  vpack : Nat
  rem   : Nat
  full  : Nat

/-- R204 to R210 up to the full capacity. -/
def analogMeasured (s : State) : Walk Measured :=
  (analogCells s).andThen fun cells =>
  (analogTemps s).andThen fun temps =>
  (readField s valW .ipack).andThen fun ipack =>
  (readField s valW .vpack).andThen fun vpack =>
  (readField s valW .rem).andThen fun rem =>
  (skipField s skipW .rsvd).andThen fun _ =>
  (readField s valW .full).andThen fun full =>
  Walk.done ⟨cells, temps, ipack, vpack, rem, full⟩

/-- The record of a pack; the two counts are those in the working registers. -/
def analogRecord (m : Measured) (cycles design : Nat) (soc soh : BitVec 30) (k : Work) : AnalogRec where
  cells := k.cells
  vcell := m.cells.1
  vdiff := m.cells.2
  temps := k.temps
  tcell := m.temps
  ipack := currentOf m.ipack
  vpack := BitVec.ofNat 16 m.vpack
  rem := capacityOf m.rem
  full := capacityOf m.full
  cycles := BitVec.ofNat 16 cycles
  design := capacityOf design
  soc := soc
  soh := soh

/-- R210 to R213. -/
def analogRest (s : State) (m : Measured) : Walk (Work → AnalogRec) :=
  (ratio s .soc m.rem m.full).andThen fun soc =>
  (readField s valW .cycles).andThen fun cycles =>
  (readField s valW .design).andThen fun design =>
  (ratio s .soh m.full design).andThen fun soh =>
  (skipField s skipW .trail).andThen fun _ =>
  Walk.done (analogRecord m cycles design soc soh)

/-- A pack without its trailing test. -/
def analogBody (s : State) : Walk (Work → AnalogRec) :=
  (analogHead s).andThen fun _ => (analogMeasured s).andThen (analogRest s)

/-- The end of a pack: its record is made and its count kept for the next. -/
def analogClose (r : Work → AnalogRec) : Walk AnalogRec := fun k => .ok (r k) { k with cellsPrev := k.cells }

theorem analogOne_eq (s : State) (p : Nat) : analogOne s p = flaggedPack s (analogBody s) analogClose p := by
  simp only [analogOne, flaggedPack, analogBody, analogMeasured, analogRest, Walk.andThen_assoc, Walk.done_andThen]
  rfl

/-! The cell count (R203). -/

section
variable {s : State} {k : Work} {t rest : Text} {d : DecodeDetail} {c y : Nat}

theorem peekCells_digits2 (hat : At s k (digits2 c ++ rest)) (hc : c < 256) :
    peekCells s k = .ok () { k with cells := BitVec.ofNat 8 c } := by
  have hpeek : peekField s countW .cells k = .ok c k := peekField_digits2 .cells hat hc
  rw [peekCells, Walk.andThen_of_ok hpeek]
  rfl

theorem peekCells_of_breaksIn {g : Field} (hat : At s k t) (hg : g.chars.length = countW)
    (h : BreaksIn s.cfg.hexLower g t d) : peekCells s k = .err (.decode d .cells) k := by
  rw [peekCells, Walk.andThen_of_err (peekField_of_breaksIn hat hg h)]

/-- The count is taken as it stands: in the first pack, and where it equals the count before. -/
theorem analogHead_count (hat : At s k (digits2 c ++ rest)) (hc : c < 256)
    (hprev : 1 < k.p.toNat → k.cellsPrev = BitVec.ofNat 8 c) :
    analogHead s k = .ok () (advance countW { k with cells := BitVec.ofNat 8 c }) := by
  have hkeep : ¬(1 < k.p.toNat ∧ BitVec.ofNat 8 c ≠ k.cellsPrev) := fun ⟨hp, hne⟩ => hne (hprev hp).symm
  obtain ⟨hskip, -⟩ := skipField_at (w := countW) .cells (hat.congr (k' := { k with cells := BitVec.ofNat 8 c }) rfl) rfl
  rw [analogHead, Walk.andThen_of_ok (peekCells_digits2 hat hc), Walk.andThen_apply, if_neg hkeep]
  exact hskip

/-- The count that follows a stray field: it must be the count before. -/
def cellsAgain (s : State) : Walk Unit :=
  (peekCells s).andThen fun _ k => if k.cells ≠ k.cellsPrev then .err (.decode .cellMismatch .cells) k else .ok () k

/-- A count that differs from the count before is passed over as a stray field. -/
theorem analogHead_stray (hat : At s k (digits2 y ++ rest)) (hy : y < 256) (hp : 1 < k.p.toNat)
    (hprev : k.cellsPrev ≠ BitVec.ofNat 8 y) :
    ∃ k', analogHead s k = ((cellsAgain s).andThen fun _ => skipField s countW .cells) k' ∧ At s k' rest ∧
      k'.cellsPrev = k.cellsPrev := by
  obtain ⟨hskip, hat'⟩ := skipField_at (w := skipW) .extra (hat.congr (k' := { k with cells := BitVec.ofNat 8 y }) rfl) rfl
  refine ⟨_, ?_, hat', rfl⟩
  rw [analogHead, Walk.andThen_of_ok (peekCells_digits2 hat hy), Walk.andThen_apply, if_pos ⟨hp, hprev.symm⟩,
    Walk.andThen_of_ok hskip]
  rfl

theorem cellsAgain_same (hat : At s k (digits2 c ++ rest)) (hc : c < 256) (hprev : k.cellsPrev = BitVec.ofNat 8 c) :
    cellsAgain s k = .ok () { k with cells := BitVec.ofNat 8 c } := by
  rw [cellsAgain, Walk.andThen_of_ok (peekCells_digits2 hat hc), if_neg (not_not.mpr hprev.symm)]

theorem cellsAgain_mismatch (hat : At s k (digits2 y ++ rest)) (hy : y < 256) (hprev : k.cellsPrev ≠ BitVec.ofNat 8 y) :
    cellsAgain s k = .err (.decode .cellMismatch .cells) { k with cells := BitVec.ofNat 8 y } := by
  rw [cellsAgain, Walk.andThen_of_ok (peekCells_digits2 hat hy), if_pos hprev.symm]

end

/-- What the trailing test can leave of the stray fields after a pack with `c` cells: at most one field, another value than `c`. -/
def StrayLeft (c : Nat) (ys : List Nat) : Prop := ys = [] ∨ ∃ y < 256, y ≠ c ∧ ys = [y]

/-- The working registers at a pack's count: a stray field stands only before a later pack, and there the count before is `c`. -/
def HeadReady (c : Nat) (ys : List Nat) (k : Work) : Prop :=
  (1 < k.p.toNat → k.cellsPrev = BitVec.ofNat 8 c) ∧ (ys ≠ [] → 1 < k.p.toNat)

/-- The fields of the head: what stands where the count is looked for, and the count. -/
def headFields (c : Nat) (ys : List Nat) : List Field :=
  ys.map (fun y => ⟨4, true, digits2 y⟩) ++ [⟨4, true, digits2 c⟩]

theorem ofNat8_ne {x y : Nat} (hx : x < 256) (hy : y < 256) (h : x ≠ y) : BitVec.ofNat 8 x ≠ BitVec.ofNat 8 y := by
  intro heq
  have htoNat := congrArg BitVec.toNat heq
  rw [toNat_ofNat_of_lt hx, toNat_ofNat_of_lt hy] at htoNat
  exact h htoNat

theorem follows_analogHead (s : State) {c : Nat} {ys : List Nat} (hc : c < 256) (hys : StrayLeft c ys) :
    Follows s (headFields c ys) (HeadReady c ys) (analogHead s) () fun k => k.cells = BitVec.ofNat 8 c := by
  rcases hys with rfl | ⟨y, hy, hyc, rfl⟩
  · refine ⟨fun {k rest} hk hat => ?_, fun {k t d code} hk hat hbreaks => ?_⟩
    · exact ⟨_, analogHead_count hat hc hk.1, hat.move rfl, rfl⟩
    · obtain ⟨hin, rfl⟩ := breaks_singleton hbreaks
      exact ⟨.cells, k, by rw [analogHead, Walk.andThen_of_err (peekCells_of_breaksIn hat rfl hin)], rfl⟩
  · have hstray {k : Work} {rest : Text} (hk : HeadReady c [y] k) (hat : At s k (digits2 y ++ rest)) :
        ∃ k', analogHead s k = ((cellsAgain s).andThen fun _ => skipField s countW .cells) k' ∧ At s k' rest ∧
          k'.cellsPrev = BitVec.ofNat 8 c := by
      have hp := hk.2 (List.cons_ne_nil _ _)
      have hprev := hk.1 hp
      rw [← hprev]
      exact analogHead_stray hat hy hp (hprev ▸ ofNat8_ne hc hy hyc.symm)
    refine ⟨fun {k rest} hk hat => ?_, fun {k t d code} hk hat hbreaks => ?_⟩
    · obtain ⟨k', hhead, hat', hprev⟩ := hstray (rest := digits2 c ++ rest) hk hat
      obtain ⟨hskip, hend⟩ := skipField_at (w := countW) .cells (hat'.congr (k' := { k' with cells := BitVec.ofNat 8 c }) rfl) rfl
      exact ⟨_, by rw [hhead, Walk.andThen_of_ok (cellsAgain_same hat' hc hprev), hskip], hend, rfl⟩
    · rcases breaks_cons hbreaks with ⟨hin, rfl⟩ | ⟨u, rfl, hu⟩
      · exact ⟨.cells, k, by rw [analogHead, Walk.andThen_of_err (peekCells_of_breaksIn hat rfl hin)], rfl⟩
      · obtain ⟨hin, rfl⟩ := breaks_singleton hu
        obtain ⟨k', hhead, hat', -⟩ := hstray hk hat
        refine ⟨.cells, k', ?_, rfl⟩
        rw [hhead, cellsAgain, Walk.andThen_assoc, Walk.andThen_of_err (peekCells_of_breaksIn hat' rfl hin)]

/-! The cell voltages (R204, R134). -/

/-- `CELLS` and the least and greatest voltage so far. -/
def Spans (c : BitVec 8) (lo hi : Nat) (k : Work) : Prop := k.cells = c ∧ k.vmin.toNat = lo ∧ k.vmax.toNat = hi

theorem noteVoltage_spans {c : BitVec 8} {lo hi v : Nat} (hv : v < 65536) {k : Work} (hk : Spans c lo hi k) :
    Spans c (min lo v) (max hi v) (noteVoltage false v k) := by
  obtain ⟨hcells, rfl, rfl⟩ := hk
  have hmax := k.vmax.isLt
  exact ⟨hcells, toNat_ofNat_of_lt (by omega), toNat_ofNat_of_lt (by omega)⟩

theorem noteVoltage_spans_first {c : BitVec 8} {v : Nat} (hv : v < 65536) {k : Work} (hk : k.cells = c) :
    Spans c v v (noteVoltage true v k) :=
  ⟨hk, toNat_ofNat_of_lt hv, toNat_ofNat_of_lt hv⟩

theorem noteVoltage_cur (first : Bool) (v : Nat) (k : Work) : (noteVoltage first v k).cur = k.cur := by cases first <;> rfl

theorem follows_readCells (s : State) (c : BitVec 8) {vs : List Nat} (hvs : ∀ v ∈ vs, v < 65536) {lo hi : Nat} :
    Follows s (vs.map fun v => ⟨5, true, digits4 v⟩) (Spans c lo hi) (readCells s vs.length false)
      (vs.map (BitVec.ofNat 16)) (Spans c (vs.foldl min lo) (vs.foldl max hi)) := by
  induction vs generalizing lo hi with
  | nil => exact follows_done _
  | cons v vs ih =>
    obtain ⟨hv, hvs⟩ := List.forall_mem_cons.mp hvs
    refine (follows_readField_digits4 (fun _ _ h => h) .vcell hv).cons ?_
    exact Follows.set_andThen (fun k hk => ⟨noteVoltage_cur false v k, noteVoltage_spans hv hk⟩)
      ((ih hvs).value (BitVec.ofNat 16 v :: ·))

/-- The spread of the cell voltages. -/
def spreadOf (vs : List Nat) : BitVec 16 :=
  match vs with
  | [] => 0
  | v :: vs => BitVec.ofNat 16 (vs.foldl max v - vs.foldl min v)

theorem follows_analogCells (s : State) {vs : List Nat} (hlen : vs.length < 256) (hvs : ∀ v ∈ vs, v < 65536) :
    Follows s (vs.map fun v => ⟨5, true, digits4 v⟩) (fun k => k.cells = BitVec.ofNat 8 vs.length) (analogCells s)
      (vs.map (BitVec.ofNat 16), spreadOf vs) fun k => k.cells = BitVec.ofNat 8 vs.length := by
  have hcount : ∀ k : Work, k.cells = BitVec.ofNat 8 vs.length →
      analogCells s k = ((readCells s vs.length true).andThen fun vs k => .ok (vs, spread k) k) k := fun k hk => by
    rw [analogCells, Walk.andThen_apply, Walk.andThen_apply, hk, toNat_ofNat_of_lt hlen]
  refine Follows.congr ?_ hcount
  cases vs with
  | nil =>
    refine (follows_done []).result fun k hk => ?_
    rw [spread, hk]
    rfl
  | cons v vs =>
    obtain ⟨hv, hvs⟩ := List.forall_mem_cons.mp hvs
    refine Follows.mono (Q := Spans (BitVec.ofNat 8 (v :: vs).length) (vs.foldl min v) (vs.foldl max v)) ?_ (fun _ hk => hk)
      fun _ hk => hk.1
    refine Follows.result (a := (v :: vs).map (BitVec.ofNat 16)) ?_ fun k ⟨hcells, hmin, hmax⟩ => ?_
    · refine (follows_readField_digits4 (fun _ _ h => h) .vcell hv).cons ?_
      exact Follows.set_andThen (fun k hk => ⟨noteVoltage_cur true v k, noteVoltage_spans_first hv hk⟩)
        ((follows_readCells s _ hvs).value (BitVec.ofNat 16 v :: ·))
    · have hpos : 0 < (v :: vs).length := Nat.succ_pos _
      rw [spread, hcells, toNat_ofNat_of_lt hlen, if_pos hpos, hmin, hmax]
      rfl

/-! The rest of a pack. -/

/-- Both counts are in the working registers. -/
def Counted (c : BitVec 8) (n : Nat) (k : Work) : Prop := k.cells = c ∧ k.temps = BitVec.ofNat 8 n

theorem noCur_counted (c : BitVec 8) (n : Nat) : NoCur (Counted c n) := fun _ _ h => h

theorem follows_analogTemps (s : State) (c : BitVec 8) {ts : List Nat} (hlen : ts.length < 256) (hts : ∀ v ∈ ts, v < 65536) :
    Follows s (⟨6, true, digits2 ts.length⟩ :: ts.map fun v => ⟨7, true, digits4 v⟩) (fun k => k.cells = c) (analogTemps s)
      (ts.map tempOf) (Counted c ts.length) := by
  refine (follows_readField_digits2 (fun _ _ h => h) .temps hlen).cons ?_
  exact Follows.set_andThen (fun k hk => ⟨rfl, hk, rfl⟩)
    ((follows_readFields (noCur_counted c ts.length) .tcell hts).value (·.map tempOf))

/-- The fields of a pack from its first voltage to its full capacity. -/
def measuredFields (p : PackData) : List Field :=
  p.volts.map (fun v => ⟨5, true, digits4 v⟩) ++ (⟨6, true, digits2 p.temps.length⟩ :: p.temps.map fun v => ⟨7, true, digits4 v⟩) ++
    [⟨8, true, digits4 p.ipack⟩, ⟨9, true, digits4 p.vpack⟩, ⟨10, true, digits4 p.rem⟩, ⟨11, false, p.rsvd⟩,
      ⟨12, true, digits4 p.full⟩]

/-- Those behind it. -/
def restFields (p : PackData) : List Field :=
  [⟨14, true, digits4 p.cycles⟩, ⟨15, true, digits4 p.design⟩, ⟨17, false, p.trail⟩]

theorem fields_eq (p : PackData) : p.fields = ⟨4, true, digits2 p.volts.length⟩ :: (measuredFields p ++ restFields p) := by
  simp [PackData.fields, measuredFields, restFields]

theorem chars_measuredFields (p : PackData) : digits2 p.volts.length ++ charsOf (measuredFields p) = p.textToFull := by
  simp [charsOf, measuredFields, PackData.textToFull, flatMap_chars_map]

def measuredOf (p : PackData) : Measured :=
  ⟨(p.volts.map (BitVec.ofNat 16), spreadOf p.volts), p.temps.map tempOf, p.ipack, p.vpack, p.rem, p.full⟩

/-- The record of a pack. -/
def packRecord (tie : RoundTie) (p : PackData) : Work → AnalogRec :=
  analogRecord (measuredOf p) p.cycles p.design (BitVec.ofNat 30 (pct tie p.rem p.full))
    (BitVec.ofNat 30 (pct tie p.full p.design))

/-- The working registers behind a pack's count. -/
abbrev CountRead (p : PackData) (k : Work) : Prop := k.cells = BitVec.ofNat 8 p.volts.length

/-- The working registers behind a pack. -/
abbrev PackRead (p : PackData) : Work → Prop := Counted (BitVec.ofNat 8 p.volts.length) p.temps.length

section
variable (s : State) {p : PackData} (hp : p.Fits)
include hp

/-- The values up to the full capacity are read whatever that capacity is. -/
theorem follows_analogMeasured {full : Nat} (hfull : full < 65536) :
    Follows s (measuredFields { p with full := full }) (CountRead p) (analogMeasured s) (measuredOf { p with full := full })
      (PackRead p) := by
  have hcounted := noCur_counted (BitVec.ofNat 8 p.volts.length) p.temps.length
  rw [measuredFields, List.append_assoc]
  refine (follows_analogCells s hp.volts hp.volt).andThen ?_
  refine (follows_analogTemps s _ hp.temps hp.temp).andThen ?_
  refine (follows_readField_digits4 hcounted .ipack hp.ipack).cons ?_
  refine (follows_readField_digits4 hcounted .vpack hp.vpack).cons ?_
  refine (follows_readField_digits4 hcounted .rem hp.rem).cons ?_
  refine (follows_skipField hcounted .rsvd hp.rsvd).cons ?_
  exact (follows_readField_digits4 hcounted .full hfull).cons (follows_done _)

theorem follows_analogRest :
    Follows s (restFields p) (PackRead p) (analogRest s (measuredOf p)) (packRecord s.cfg.roundTie p) (PackRead p) := by
  have hcounted := noCur_counted (BitVec.ofNat 8 p.volts.length) p.temps.length
  refine (follows_ratio .soc p.rem hp.full0).andThen ?_
  refine (follows_readField_digits4 hcounted .cycles hp.cycles).cons ?_
  refine (follows_readField_digits4 hcounted .design hp.design).cons ?_
  refine (follows_ratio .soh p.full hp.design0).andThen ?_
  exact (follows_skipField hcounted .trail hp.trail).cons (follows_done _)

/-- A whole pack, from what may stand before its count to its trailing field. -/
theorem follows_analogBody {ys : List Nat} (hys : StrayLeft p.volts.length ys) :
    Follows s (headFields p.volts.length ys ++ (measuredFields p ++ restFields p)) (HeadReady p.volts.length ys) (analogBody s)
      (packRecord s.cfg.roundTie p) (PackRead p) :=
  (follows_analogHead s hp.volts hys).andThen ((follows_analogMeasured s hp hp.full).andThen (follows_analogRest s hp))

omit s

/-! What the record holds. -/

omit hp in
/-- The spread is the greatest voltage less the least (R134). -/
theorem spreadOf_spans {vs : List Nat} (hvs : ∀ v ∈ vs, v < 65536) :
    (vs = [] ∧ spreadOf vs = 0) ∨
      ∃ lo ∈ vs, ∃ hi ∈ vs, (∀ v ∈ vs, lo ≤ v ∧ v ≤ hi) ∧ (spreadOf vs).toNat = hi - lo := by
  cases vs with
  | nil => exact .inl ⟨rfl, rfl⟩
  | cons v vs =>
    obtain ⟨hlo, hmin⟩ := List.min?_eq_some_iff.mp (List.min?_cons' (x := v) (xs := vs))
    obtain ⟨hhi, hmax⟩ := List.max?_eq_some_iff.mp (List.max?_cons' (x := v) (xs := vs))
    have hlt := hvs _ hhi
    exact .inr ⟨_, hlo, _, hhi, fun u hu => ⟨hmin u hu, hmax u hu⟩, toNat_ofNat_of_lt (by omega)⟩

theorem recordOf_packRecord (tie : RoundTie) {k : Work} (hk : PackRead p k) : RecordOf tie (packRecord tie p k) p := by
  obtain ⟨hcells, htemps⟩ := hk
  have hscaled {raw : Nat} (h : raw < 65536) : (capacityOf raw).toNat = 10 * raw :=
    (capacityOf_toNat raw h).trans (Nat.mul_comm _ _)
  refine ⟨?_, ?_, spreadOf_spans hp.volt, ?_, ?_, currentOf_toInt _ hp.ipack, toNat_ofNat_of_lt hp.vpack, hscaled hp.rem,
    hscaled hp.full, toNat_ofNat_of_lt hp.cycles, hscaled hp.design, pct_register _ _ _ hp.rem (Nat.pos_of_ne_zero hp.full0),
    pct_register _ _ _ hp.full (Nat.pos_of_ne_zero hp.design0)⟩
  · exact (congrArg BitVec.toNat hcells).trans (toNat_ofNat_of_lt hp.volts)
  · exact map_toNat_map_ofNat hp.volt
  · exact (congrArg BitVec.toNat htemps).trans (toNat_ofNat_of_lt hp.temps)
  · exact (List.map_map ..).trans (List.map_congr_left fun v hv => tempOf_toInt v (hp.temp v hv))

end

end Sys2Proof.Proofs
end

section
/-! `DEC_ANALOG` over packs whose stray fields the two heuristics absorb, and what ends the operation behind them
(43_analog_capacity.md R202, R203, R210 to R216). -/

namespace Sys2Proof.Proofs

open Sys2Proof Sys2Proof.Machine Sys2Proof.Claims

/-! The text behind a pack. -/

theorem packsText_cons (q : PackData × List Nat) (ps : List (PackData × List Nat)) :
    packsText (q :: ps) = q.1.text ++ q.2.flatMap digits2 ++ packsText ps :=
  List.flatMap_cons

theorem text_eq (p : PackData) : p.text = digits2 p.volts.length ++ charsOf (measuredFields p ++ restFields p) := by
  rw [← PackData.flatMap_chars_fields, fields_eq, List.flatMap_cons]

/-- A pack's fields behind what may stand before its count. -/
theorem charsOf_packFields (p : PackData) (ys : List Nat) :
    charsOf (headFields p.volts.length ys ++ (measuredFields p ++ restFields p)) = ys.flatMap digits2 ++ p.text := by
  simp [text_eq, charsOf, headFields, flatMap_chars_map]

/-- The trailing test lets the text stand, or passes the stray field that the last pack ends with. -/
def TailKept (c : Nat) (ps : List (PackData × List Nat)) (tail : Text) : Prop :=
  Flagged c tail tail ∨ ∀ q ∈ ps.getLast?, q.2 ≠ []

section
variable {c : Nat} {p : PackData} {xs : List Nat} {ps : List (PackData × List Nat)} {tail : Text}

theorem TailKept.of_cons (h : TailKept c ((p, xs) :: ps) tail) : TailKept c ps tail := by
  rcases h with hflag | hlast
  · exact .inl hflag
  · refine .inr fun q hq => hlast q ?_
    cases ps with
    | nil => nomatch hq
    | cons q' ps => rwa [List.getLast?_cons_cons]

/-- Behind a pack without stray fields the trailing test lets the text stand. -/
theorem flagged_of_tailKept (habs : Absorbed c ((p, []) :: ps)) (htail : TailKept c ((p, []) :: ps) tail) :
    Flagged c (packsText ps ++ tail) (packsText ps ++ tail) := by
  cases ps with
  | nil =>
    rcases htail with hflag | hlast
    · exact hflag
    · exact absurd rfl (hlast (p, []) rfl)
  | cons q ps =>
    obtain ⟨-, hq⟩ := List.forall_mem_cons.mp habs
    obtain ⟨-, hcount, -⟩ := hq q List.mem_cons_self
    rw [packsText_cons, text_eq, hcount]
    simp only [List.append_assoc]
    exact .stays _

/-- The trailing test passes the first stray field behind a pack. -/
theorem flagged_of_absorbed (habs : Absorbed c ((p, xs) :: ps)) (htail : TailKept c ((p, xs) :: ps) tail) :
    ∃ ys, StrayLeft c ys ∧
      Flagged c (xs.flatMap digits2 ++ (packsText ps ++ tail)) (ys.flatMap digits2 ++ (packsText ps ++ tail)) := by
  obtain ⟨-, -, hlen, hxs⟩ := habs (p, xs) List.mem_cons_self
  match xs, hlen, hxs with
  | [], _, _ => exact ⟨[], .inl rfl, flagged_of_tailKept habs htail⟩
  | [x], _, hxs =>
    obtain ⟨hx, hxc⟩ := hxs x (by simp)
    exact ⟨[], .inl rfl, .passed hx hxc _⟩
  | [x, y], _, hxs =>
    obtain ⟨hx, hxc⟩ := hxs x (by simp)
    obtain ⟨hy, hyc⟩ := hxs y (by simp)
    exact ⟨[y], .inr ⟨y, hy, hyc, rfl⟩, .passed hx hxc _⟩
  | _ :: _ :: _ :: _, hlen, _ => exact absurd hlen (by simp)

end

/-! The loop over whole packs. -/

/-- Before pack `p`, with the packs `ps` and then `tail` to come, at most one stray field of the pack before is left. -/
structure AnalogReady (s : State) (c : Nat) (tail : Text) (p : Nat) (ps : List (PackData × List Nat)) (k : Work) : Prop where
  absorbed : Absorbed c ps
  tailKept : TailKept c ps tail
  first : 1 ≤ p
  index : p + ps.length ≤ 256
  prev : 1 < p → k.cellsPrev = BitVec.ofNat 8 c
  text : ∃ ys, StrayLeft c ys ∧ (ys ≠ [] → 1 < p) ∧ At s k (ys.flatMap digits2 ++ (packsText ps ++ tail))

/-- The head of pack `p` can start. -/
theorem AnalogReady.head {s : State} {c p : Nat} {tail : Text} {ps : List (PackData × List Nat)} {k : Work}
    (h : AnalogReady s c tail p ps k) (hp : p < 256) :
    ∃ ys, StrayLeft c ys ∧ HeadReady c ys { k with p := BitVec.ofNat 8 p } ∧
      At s { k with p := BitVec.ofNat 8 p } (ys.flatMap digits2 ++ (packsText ps ++ tail)) := by
  obtain ⟨ys, hys, hlater, hat⟩ := h.text
  refine ⟨ys, hys, ?_, hat.congr rfl⟩
  have hindex : (BitVec.ofNat 8 p).toNat = p := toNat_ofNat_of_lt hp
  exact ⟨fun hlt => h.prev (hindex ▸ hlt), fun hne => hindex.symm ▸ hlater hne⟩

/-- A whole pack whose stray fields are absorbed gives its record. -/
theorem analogOne_step {s : State} {c : Nat} {tail : Text} (p : Nat) (q : PackData × List Nat)
    (ps : List (PackData × List Nat)) (k : Work) (h : AnalogReady s c tail p (q :: ps) k) :
    ∃ r k', analogOne s p k = .ok r k' ∧ RecordOf s.cfg.roundTie r q.1 ∧ AnalogReady s c tail (p + 1) ps k' := by
  obtain ⟨d, xs⟩ := q
  obtain ⟨hfits, hcount, -⟩ := h.absorbed (d, xs) List.mem_cons_self
  have hindex := h.index
  rw [List.length_cons] at hindex
  obtain ⟨ys, hys, hready, hat⟩ := h.head (by omega)
  obtain rfl : d.volts.length = c := hcount
  have htext : ys.flatMap digits2 ++ (packsText ((d, xs) :: ps) ++ tail) =
      charsOf (headFields d.volts.length ys ++ (measuredFields d ++ restFields d)) ++
        (xs.flatMap digits2 ++ (packsText ps ++ tail)) := by
    simp only [charsOf_packFields, packsText_cons, List.append_assoc]
  rw [htext] at hat
  obtain ⟨k1, hbody, hat1, hread⟩ := (follows_analogBody s hfits hys).whole hready hat
  obtain ⟨ys', hys', hflagged⟩ := flagged_of_absorbed h.absorbed h.tailKept
  have hcells : k1.cells.toNat = d.volts.length := (congrArg BitVec.toNat hread.1).trans (toNat_ofNat_of_lt hfits.volts)
  obtain ⟨k2, hflag, hat2, honly⟩ := trailingFlag_flagged hat1 hflagged hfits.volts hcells
  have hread2 : PackRead d k2 := ⟨honly.cells.trans hread.1, honly.temps.trans hread.2⟩
  refine ⟨_, _, by rw [analogOne_eq, flaggedPack_of_ok hbody hflag, analogClose], recordOf_packRecord hfits _ hread2, ?_⟩
  exact ⟨fun q hq => h.absorbed q (List.mem_cons_of_mem _ hq), h.tailKept.of_cons, by omega, by omega, fun _ => hread2.1,
    ys', hys', fun _ => by have := h.first; omega, hat2.congr rfl⟩

section
variable {s : State} {lead tail : Text} {n c : Nat} {ps : List (PackData × List Nat)}
  (hinfo : bufText .info s = .ok (lead ++ digits2 n ++ packsText ps ++ tail)) (hlead : lead.length = leadChars s.cfg.leadSkip)
  (hlen : ps.length ≤ n) (hn : n < 256) (habs : Absorbed c ps) (htail : TailKept c ps tail)
include hinfo hlead hlen hn habs htail

/-- The head and the whole packs are walked, and the next pack can start. -/
theorem analog_run (k : Work) : ∃ k1 rs k2, readPackCount s k = .ok n k1 ∧ eachPack (analogOne s) ps.length 1 k1 = .ok rs k2 ∧
    List.Forall₂ (fun r q => RecordOf s.cfg.roundTie r q.1) rs ps ∧ AnalogReady s c tail (1 + ps.length) [] k2 := by
  rw [List.append_assoc] at hinfo
  obtain ⟨k1, hhead, hat⟩ := readPackCount_digits2 k hinfo hlead hn
  have hready : AnalogReady s c tail 1 ps k1 :=
    ⟨habs, htail, le_rfl, by omega, fun h => absurd h (lt_irrefl 1), [], .inl rfl, fun h => absurd rfl h, hat⟩
  obtain ⟨rs, k2, hpacks, hrecs, hend⟩ := eachPack_run analogOne_step hready
  exact ⟨k1, rs, k2, hhead, hpacks, hrecs, hend⟩

/-- What the next pack raises ends the operation. -/
theorem decAnalog_fails {d : DecodeDetail} {code : BitVec 6} (hmore : ps.length < n)
    (hfail : ∀ k, AnalogReady s c tail (1 + ps.length) [] k →
      ∃ f k', analogOne s (1 + ps.length) k = .err (.decode d f) k' ∧ fieldCode f = code) :
    ∃ k, exec .decAnalog s = .next { s with analog := none, work := k, status := ended 4 (decodeCode d) code } := by
  obtain ⟨k1, rs, k2, hhead, hpacks, -, hready⟩ := analog_run hinfo hlead hlen hn habs htail s.work
  obtain ⟨f, k3, herr, hcode⟩ := hfail k2 hready
  have hrest := eachPack_append_err hpacks (eachPack_err (show 0 < n - ps.length by omega) herr)
  rw [Nat.add_sub_cancel' hlen] at hrest
  exact ⟨k3, by rw [exec_decAnalog_of_err (analogWalk_of_packs_err hhead hrest), errStatus_decode hcode]⟩

end

/-! What comes behind whole packs. -/

section
variable {s : State} {c p : Nat} {tail : Text} {k : Work}

/-- A pack that breaks in one of its fields, behind what is left of the pack before. -/
theorem analogOne_of_breaks {q : PackData} {d : DecodeDetail} {code : BitVec 6}
    (h : AnalogReady s q.volts.length tail p [] k) (hp : p < 256) (hfits : q.Fits)
    (hbreaks : Breaks s.cfg.hexLower q.fields tail d code) :
    ∃ f k', analogOne s p k = .err (.decode d f) k' ∧ fieldCode f = code := by
  obtain ⟨ys, hys, hready, hat⟩ := h.head hp
  have hall := hbreaks.behind (ys.map fun y => ⟨4, true, digits2 y⟩)
  rw [charsOf, flatMap_chars_map, fields_eq, ← List.singleton_append, ← List.append_assoc] at hall
  obtain ⟨f, k', herr, hcode⟩ := (follows_analogBody s hfits hys).broken hready hat hall
  exact ⟨f, k', by rw [analogOne_eq, flaggedPack_of_body_err herr], hcode⟩

/-- A whole pack whose trailing test meets no field. -/
theorem analogOne_of_flagBreaks {q : PackData} {rest : Text} {d : DecodeDetail} {g : Field}
    (h : AnalogReady s q.volts.length (q.text ++ rest) p [] k) (hp : p < 256) (hfits : q.Fits) (hne : rest ≠ [])
    (hg : g.chars.length = countW) (hbreaks : BreaksIn s.cfg.hexLower g rest d) :
    ∃ k', analogOne s p k = .err (.decode d .flag) k' := by
  obtain ⟨ys, hys, hready, hat⟩ := h.head hp
  have htext : ys.flatMap digits2 ++ (packsText [] ++ (q.text ++ rest)) =
      charsOf (headFields q.volts.length ys ++ (measuredFields q ++ restFields q)) ++ rest := by
    rw [charsOf_packFields, List.append_assoc]
    rfl
  rw [htext] at hat
  obtain ⟨k1, hbody, hat1, -⟩ := (follows_analogBody s hfits hys).whole hready hat
  exact ⟨k1, by rw [analogOne_eq, flaggedPack_of_flag_err hbody (trailingFlag_of_breaksIn hat1 hne hg hbreaks)]⟩

end

/-- A pack's own text, where a count is looked for, stands for the trailing test. -/
theorem flagged_text (p : PackData) (rest : Text) : Flagged p.volts.length (p.text ++ rest) (p.text ++ rest) := by
  rw [text_eq, List.append_assoc]
  exact .stays _

/-- A first field that differs from the count is a stray field of the last pack. -/
theorem absorbed_leftover {c : Nat} {ps : List (PackData × List Nat)} {rest : Text} (habs : Absorbed c ps)
    (h : ps = [] ∨ Leftover rest) : ∃ qs tail, qs.map Prod.fst = ps.map Prod.fst ∧ packsText qs ++ tail = packsText ps ++ rest ∧
      Absorbed c qs ∧ TailKept c qs tail := by
  rcases List.eq_nil_or_concat ps with rfl | ⟨init, ⟨p, xs⟩, rfl⟩
  · exact ⟨[], rest, rfl, rfl, habs, .inr fun _ hq => nomatch hq⟩
  have hkept {tail : Text} (hflag : Flagged c tail tail) (htail : tail = rest) :
      ∃ qs tail, qs.map Prod.fst = (init.concat (p, xs)).map Prod.fst ∧
        packsText qs ++ tail = packsText (init.concat (p, xs)) ++ rest ∧ Absorbed c qs ∧ TailKept c qs tail :=
    ⟨_, tail, rfl, htail ▸ rfl, habs, .inl hflag⟩
  obtain ⟨hinit, hlast⟩ : Absorbed c init ∧ Absorbed c [(p, xs)] := by
    rw [List.concat_eq_append] at habs
    exact List.forall_mem_append.mp habs
  by_cases hxs : xs = []
  · subst hxs
    rcases h with h | rfl | ⟨v, hv, r, rfl⟩
    · exact absurd h (by simp)
    · exact hkept .none rfl
    · by_cases hvc : v = c
      · subst hvc
        exact hkept (.stays r) rfl
      · obtain ⟨hfits, hcount, -⟩ := hlast (p, []) List.mem_cons_self
        refine ⟨init ++ [(p, [v])], r, by simp, by simp [packsText], List.forall_mem_append.mpr ⟨hinit, ?_⟩, .inr ?_⟩
        · exact List.forall_mem_singleton.mpr ⟨hfits, hcount, by simp, by simpa using ⟨hv, hvc⟩⟩
        · simp
  · exact ⟨_, rest, rfl, rfl, habs, .inr (by simpa using hxs)⟩

/-- Settles O29: the loop over whole packs reaches the end of the payload's packs, and each step makes its pack's record. -/
theorem decAnalogDecodesMultiPackPayload : Obligations.DecAnalogDecodesMultiPackPayload := by
  intro s lead rest ps c hinfo hlead hlen habs hleft
  obtain ⟨qs, tail, hfst, htext, habs', htail⟩ := absorbed_leftover habs hleft
  have hcount : qs.length = ps.length := by simpa using congrArg List.length hfst
  rw [List.append_assoc, ← htext, ← List.append_assoc] at hinfo
  obtain ⟨k1, rs, k2, hhead, hpacks, hrecs, -⟩ := analog_run hinfo hlead hcount.le hlen habs' htail s.work
  rw [hcount] at hpacks
  refine ⟨k2, _, exec_decAnalog_of_ok (analogWalk_of_packs_ok hhead hpacks), toNat_ofNat_of_lt hlen, ?_⟩
  rw [← hfst]
  exact List.forall₂_map_right_iff.mpr hrecs

/-- Behind a pack with `c` cells two fields that differ from `c` leave no count (R203). -/
theorem analogHead_mismatch {s : State} {c y z : Nat} {rest : Text} {k : Work} (hy : y < 256) (hz : z < 256) (hc : c < 256)
    (hyc : y ≠ c) (hzc : z ≠ c) (hp : 1 < k.p.toNat) (hprev : k.cellsPrev = BitVec.ofNat 8 c)
    (hat : At s k (digits2 y ++ (digits2 z ++ rest))) :
    ∃ k', analogHead s k = .err (.decode .cellMismatch .cells) k' := by
  obtain ⟨k1, hhead, hat1, hprev1⟩ := analogHead_stray hat hy hp (hprev ▸ ofNat8_ne hc hy hyc.symm)
  have hagain := cellsAgain_mismatch hat1 hz (hprev1.trans hprev ▸ ofNat8_ne hc hz hzc.symm)
  exact ⟨_, by rw [hhead, Walk.andThen_of_err hagain]⟩

/-- Settles O30: the trailing test passes the first stray field and the correction one more; the next is no count either. -/
theorem threeStrayFieldsFailWithCellMismatch : Obligations.ThreeStrayFieldsFailWithCellMismatch := by
  intro s lead rest n p x y z hinfo hlead hmore hn hp hx hy hz hxc hyc hzc
  have hpayload : lead ++ digits2 n ++ p.text ++ digits2 x ++ digits2 y ++ digits2 z ++ rest =
      lead ++ digits2 n ++ packsText [(p, [x])] ++ (digits2 y ++ (digits2 z ++ rest)) := by
    simp [packsText]
  rw [hpayload] at hinfo
  have habs : Absorbed p.volts.length [(p, [x])] :=
    List.forall_mem_singleton.mpr ⟨hp, rfl, by simp, by simpa using ⟨hx, hxc⟩⟩
  refine decAnalog_fails (d := .cellMismatch) hinfo hlead (Nat.le_of_lt hmore) hn habs (.inr (by simp)) hmore fun k hready => ?_
  obtain ⟨ys, hys, ⟨hprev, -⟩, hat⟩ := hready.head (p := 2) (by decide)
  have hsecond : 1 < (BitVec.ofNat 8 2).toNat := by decide
  have hmismatch : ∃ k', analogHead s { k with p := BitVec.ofNat 8 2 } = .err (.decode .cellMismatch .cells) k' := by
    rcases hys with rfl | ⟨v, hv, hvc, rfl⟩
    · exact analogHead_mismatch hy hz hp.volts hyc hzc hsecond (hprev hsecond) hat
    · exact analogHead_mismatch hv hy hp.volts hvc hyc hsecond (hprev hsecond) hat
  obtain ⟨k', herr⟩ := hmismatch
  rw [analogOne_eq]
  exact ⟨.cells, k', flaggedPack_of_body_err (Walk.andThen_of_err herr _), rfl⟩

/-- A first pack up to its full capacity, whatever that is. -/
theorem analogBody_measured {s : State} {p : PackData} {full : Nat} {rest : Text} {k : Work} (hp : p.Fits)
    (hfull : full < 65536) (hready : HeadReady p.volts.length [] k)
    (hat : At s k ({ p with full := full }.textToFull ++ rest)) :
    ∃ k', analogBody s k = analogRest s (measuredOf { p with full := full }) k' ∧ At s k' rest := by
  rw [← chars_measuredFields] at hat
  have hfront := (follows_analogHead s hp.volts (.inl rfl)).andThen (f := fun _ => analogMeasured s)
    (follows_analogMeasured s hp hfull)
  obtain ⟨k', hok, hat', -⟩ := hfront.whole hready hat
  exact ⟨k', by rw [analogBody, ← Walk.andThen_assoc, Walk.andThen_of_ok hok], hat'⟩

/-- What the rest of a first pack raises behind the full capacity ends the operation. -/
theorem decAnalog_fails_behind_full {s : State} {lead rest : Text} {n full : Nat} {p : PackData} {d : DecodeDetail} {f : FieldId}
    (hinfo : bufText .info s = .ok (lead ++ digits2 n ++ ({ p with full := full }.textToFull ++ rest))) (hp : p.Fits)
    (hlead : lead.length = leadChars s.cfg.leadSkip) (hpos : 1 ≤ n) (hn : n < 256) (hfull : full < 65536)
    (hrest : ∀ k, At s k rest → ∃ k', analogRest s (measuredOf { p with full := full }) k = .err (.decode d f) k') :
    ∃ k, exec .decAnalog s =
      .next { s with analog := none, work := k, status := ended 4 (decodeCode d) (fieldCode f) } := by
  rw [← List.append_nil (lead ++ digits2 n)] at hinfo
  refine decAnalog_fails (c := p.volts.length) (ps := []) hinfo hlead (Nat.zero_le n) hn (fun _ hq => nomatch hq)
    (.inr fun _ hq => nomatch hq) hpos fun k hready => ?_
  obtain ⟨ys, -, hhead, hat⟩ := hready.head (p := 1) (by decide)
  obtain rfl : ys = [] := not_not.mp fun hne => absurd (hhead.2 hne) (show ¬1 < (BitVec.ofNat 8 1).toNat by decide)
  obtain ⟨k1, hbody, hat1⟩ := analogBody_measured hp hfull hhead hat
  obtain ⟨k2, herr⟩ := hrest k1 hat1
  rw [analogOne_eq]
  exact ⟨f, k2, flaggedPack_of_body_err (hbody.trans herr), rfl⟩

/-- R212: a design capacity 0, behind the cycles. -/
theorem analogRest_sohDivZero {s : State} {m : Measured} {cycles : Nat} {rest : Text} {k : Work}
    (hat : At s k (digits4 cycles ++ (digits4 0 ++ rest))) (hfull : m.full ≠ 0) (hcycles : cycles < 65536) :
    ∃ k', analogRest s m k = .err (.decode .divZero .soh) k' := by
  obtain ⟨hread, hat1⟩ := readField_digits4 .cycles hat hcycles
  obtain ⟨hdesign, -⟩ := readField_digits4 .design hat1 (by decide)
  rw [analogRest, Walk.andThen_of_ok (ratio_pos s .soc m.rem m.full k hfull), valW, Walk.andThen_of_ok hread,
    Walk.andThen_of_ok hdesign]
  exact ⟨_, Walk.andThen_of_err (ratio_zero s .soh _ _) _⟩

/-- Settles O31: the two percentages of a first pack are derived straight after their divisors. -/
theorem zeroCapacityIsReportedAtOnce : Obligations.ZeroCapacityIsReportedAtOnce := by
  rintro s lead rest n p _ hp rfl hlead hpos hn
  refine ⟨fun hinfo => ?_, fun hinfo => ?_⟩
  · rw [List.append_assoc] at hinfo
    exact decAnalog_fails_behind_full (d := .divZero) (f := .soc) hinfo hp hlead hpos hn (by decide) fun k _ =>
      ⟨k, Walk.andThen_of_err (ratio_zero s .soc p.rem k) _⟩
  · simp only [List.append_assoc] at hinfo
    rw [← List.append_assoc lead] at hinfo
    refine decAnalog_fails_behind_full (d := .divZero) (f := .soh) hinfo hp hlead hpos hn hp.full fun k hat => ?_
    exact analogRest_sohDivZero (m := measuredOf p) hat hp.full0 hp.cycles

/-- Settles O32: the cut falls in the head or in a field of the pack. -/
theorem shortAnalogPayloadIsOverrun : Obligations.ShortAnalogPayloadIsOverrun := by
  intro s lead cut rest p hcut hrest hinfo hlead hp
  have hfields : cut ++ rest = charsOf ([⟨1, false, lead⟩, ⟨2, true, digits2 1⟩] ++ p.fields) := by
    rw [hcut, charsOf, List.flatMap_append, PackData.flatMap_chars_fields]
    simp
  rcases breaks_append (breaks_of_cut (lower := s.cfg.hexLower) hfields hrest) with hhead | ⟨u, htext, hpack⟩
  · obtain ⟨f, k', herr, hcode⟩ := readPackCount_of_breaks hinfo hlead (by decide) hhead s.work
    exact ⟨k', by rw [exec_decAnalog_of_err (analogWalk_of_head_err herr), errStatus_decode hcode]; rfl⟩
  · have hpayload : bufText .info s = .ok (lead ++ digits2 1 ++ packsText [] ++ u) := by
      rw [hinfo, htext]
      simp [charsOf, packsText]
    exact decAnalog_fails (d := .overrun) hpayload hlead (by decide) (by decide) (fun _ hq => nomatch hq)
      (.inr fun _ hq => nomatch hq) (by decide) fun k hready => analogOne_of_breaks hready (by decide) hp hpack

/-- Settles O47: the whole packs are walked, and the next pack breaks in the field. -/
theorem brokenAnalogFieldIsNamed : Obligations.BrokenAnalogFieldIsNamed := by
  rintro s lead x rest n _ ps p fs gs f hinfo hlead hmore hn habs hp rfl hfields hcount
  have hkept : TailKept p.volts.length ps (charsOf fs ++ (x ++ rest)) := by
    cases fs with
    | nil => exact .inr (hcount rfl)
    | cons g fs =>
      rw [fields_eq, List.cons_append, List.cons.injEq] at hfields
      obtain ⟨rfl, -⟩ := hfields
      rw [charsOf, List.flatMap_cons, List.append_assoc]
      exact .inl (.stays _)
  simp only [List.append_assoc] at hinfo
  rw [← List.append_assoc lead, ← List.append_assoc (lead ++ digits2 n)] at hinfo
  have hfails {d : DecodeDetail} (hin : BreaksIn s.cfg.hexLower f (x ++ rest) d) :
      ∃ k, exec .decAnalog s = .next { s with analog := none, work := k, status := ended 4 (decodeCode d) f.code } :=
    decAnalog_fails hinfo hlead hmore.le hn habs hkept hmore fun k hready =>
      analogOne_of_breaks hready (by omega) hp (hfields ▸ (Breaks.here hin).behind fs)
  refine ⟨fun hshort hend => ?_, fun hlen hread hbad => ?_⟩
  · exact hfails (d := .overrun) (.inl ⟨rfl, by rwa [hend, List.append_nil]⟩)
  · exact hfails (d := .badHex) (.inr ⟨rfl, hread, x, rest, rfl, hlen, hbad⟩)

/-- Where the trailing test looks for a field of two digits. -/
def flagField : Field := ⟨18, true, digits2 0⟩

theorem flagField_breaks_of_short {lower : Bool} {rest : Text} (h : rest.length = 1) :
    BreaksIn lower flagField rest .overrun :=
  .inl ⟨rfl, h ▸ Nat.one_lt_two⟩

theorem flagField_breaks_of_badHex {lower : Bool} {rest : Text} (hlen : 2 ≤ rest.length)
    (hbad : hexToInt lower (rest.take 2) = none) : BreaksIn lower flagField rest .badHex :=
  .inr ⟨rfl, rfl, rest.take 2, rest.drop 2, (List.take_append_drop 2 rest).symm, List.length_take_of_le hlen, hbad⟩

/-- Settles O48: the packs before the last are walked, and the last pack's trailing test fails; or all are walked and the next
pack has no count. -/
theorem analogLeftoverErrors : Obligations.AnalogLeftoverErrors := by
  intro s lead rest n c ps p hinfo hlead hmore hn habs
  obtain ⟨hps, hlast⟩ : Absorbed c ps ∧ Absorbed c [(p, [])] := List.forall_mem_append.mp habs
  obtain ⟨hp, hcount, -⟩ := hlast (p, []) List.mem_cons_self
  obtain rfl : p.volts.length = c := hcount
  have hinfo' : bufText .info s = .ok (lead ++ digits2 n ++ packsText ps ++ (p.text ++ rest)) := by
    simpa [packsText] using hinfo
  have hflag {d : DecodeDetail} (hne : rest ≠ []) (hin : BreaksIn s.cfg.hexLower flagField rest d) :
      ∃ k, exec .decAnalog s = .next { s with analog := none, work := k, status := ended 4 (decodeCode d) 18 } :=
    decAnalog_fails hinfo' hlead hmore.le hn hps (.inl (flagged_text p rest)) hmore fun k hready => by
      obtain ⟨k', herr⟩ := analogOne_of_flagBreaks hready (by omega) hp hne rfl hin
      exact ⟨.flag, k', herr, rfl⟩
  refine ⟨fun hone => ?_, fun htwo hbad => ?_, fun hnone hmore' => ?_⟩
  · exact hflag (List.ne_nil_of_length_pos (by omega)) (flagField_breaks_of_short hone)
  · exact hflag (List.ne_nil_of_length_pos (by omega)) (flagField_breaks_of_badHex htwo hbad)
  · subst hnone
    have hlen : (ps ++ [(p, [])]).length = ps.length + 1 := List.length_append
    refine decAnalog_fails (d := .overrun) (code := 4) hinfo hlead (by omega) hn habs (.inl .none) (by omega)
      fun k hready => analogOne_of_breaks hready (by omega) hp ?_
    rw [fields_eq]
    exact .here (.inl ⟨rfl, Nat.two_pos⟩)

end Sys2Proof.Proofs
end

section
/-! One pack of `DEC_WARN` along its fields (44_warnings.md R231, R234 to R244). -/

namespace Sys2Proof.Proofs

open Sys2Proof Sys2Proof.Machine Sys2Proof.Claims

/-- The record of a pack whose two counted lists gave the entries `es`; of `d` only the single fields count. -/
def warnRecord (m : BoolMap) (es : List FlagEntry) (d : WarnData) : WarnRec where
  flags :=
    es ++ codeEntry .chg 0 d.chg ++ codeEntry .vtot 0 d.vtot ++ codeEntry .dsg 0 d.dsg ++ bitEntries .prot1 d.prot1 ++
      bitEntries .prot2 d.prot2 ++ bitEntries .instr d.instr ++ bitEntries .ctrl d.ctrl ++ bitEntries .fault d.fault ++
      bitEntries .warn1 d.warn1 ++ bitEntries .warn2 d.warn2
  chg := BitVec.ofNat 8 d.chg
  vtot := BitVec.ofNat 8 d.vtot
  dsg := BitVec.ofNat 8 d.dsg
  prot1 := BitVec.ofNat 8 d.prot1
  prot2 := BitVec.ofNat 8 d.prot2
  instr := BitVec.ofNat 8 d.instr
  ctrl := BitVec.ofNat 8 d.ctrl
  fault := BitVec.ofNat 8 d.fault
  bal1 := BitVec.ofNat 8 d.bal1
  bal2 := BitVec.ofNat 8 d.bal2
  warn1 := BitVec.ofNat 8 d.warn1
  warn2 := BitVec.ofNat 8 d.warn2
  bools := warnBools m d.prot1 d.prot2 d.instr

/-- A pack without its trailing test. -/
def warnBody (s : State) : Walk WarnRec :=
  (warnLists s).andThen fun es =>
  (readField s codeW .chgw).andThen fun chg =>
  (readField s codeW .vtotw).andThen fun vtot =>
  (readField s codeW .dsgw).andThen fun dsg =>
  (readField s codeW .prot1).andThen fun prot1 =>
  (readField s codeW .prot2).andThen fun prot2 =>
  (readField s codeW .instr).andThen fun instr =>
  (readField s codeW .ctrl).andThen fun ctrl =>
  (readField s codeW .fault).andThen fun fault =>
  (readField s codeW .bal1).andThen fun bal1 =>
  (readField s codeW .bal2).andThen fun bal2 =>
  (readField s codeW .warn1).andThen fun warn1 =>
  (readField s codeW .warn2).andThen fun warn2 =>
  Walk.done (warnRecord s.cfg.boolMap es
    ⟨[], [], chg, vtot, dsg, prot1, prot2, instr, ctrl, fault, bal1, bal2, warn1, warn2⟩)

theorem warnOne_eq (s : State) (p : Nat) : warnOne s p = flaggedPack s (warnBody s) Walk.done p := by
  simp only [warnOne, flaggedPack, warnBody, Walk.andThen_assoc, Walk.done_andThen]
  rfl

/-! The two counted lists (R234, R235). -/

/-- The entries of a list of codes, the first at position `idx`. -/
def codeEntries (src : FlagSrc) (cs : List Nat) (idx : Nat) : List FlagEntry :=
  (cs.zipIdx idx).flatMap fun c => codeEntry src c.2 c.1

theorem follows_readCodes (s : State) {P : Work → Prop} (hP : NoCur P) (f : FieldId) (src : FlagSrc) {cs : List Nat}
    (hcs : ∀ v ∈ cs, v < 256) (idx : Nat) :
    Follows s (cs.map fun v => ⟨fieldCode f, true, digits2 v⟩) P (readCodes s f src cs.length idx) (codeEntries src cs idx) P := by
  induction cs generalizing idx with
  | nil => exact follows_done _
  | cons c cs ih =>
    obtain ⟨hc, hcs⟩ := List.forall_mem_cons.mp hcs
    exact (follows_readField_digits2 hP f hc).cons ((ih hcs (idx + 1)).value (codeEntry src idx c ++ ·))

/-- The working registers from a pack's cell-warning count on. -/
abbrev WarnCounted (d : WarnData) (k : Work) : Prop := k.cells = BitVec.ofNat 8 d.cellCodes.length

theorem noCur_warnCounted (d : WarnData) : NoCur (WarnCounted d) := fun _ _ h => h

/-- The entries of the two lists. -/
def listEntries (d : WarnData) : List FlagEntry := codeEntries .cell d.cellCodes 1 ++ codeEntries .temp d.tempCodes 1

/-- The fields of the two lists. -/
def listFields (d : WarnData) : List Field :=
  (⟨22, true, digits2 d.cellCodes.length⟩ :: d.cellCodes.map fun v => ⟨23, true, digits2 v⟩) ++
    (⟨24, true, digits2 d.tempCodes.length⟩ :: d.tempCodes.map fun v => ⟨25, true, digits2 v⟩)

section
variable (s : State) {d : WarnData} (hd : d.Fits)
include hd

theorem follows_warnLists :
    Follows s (listFields d) (fun _ => True) (warnLists s) (listEntries d) (WarnCounted d) := by
  obtain ⟨hcells, htemps, hcell, htemp, -⟩ := hd
  have hcounted := noCur_warnCounted d
  rw [listFields, List.cons_append]
  refine (follows_readField_digits2 (fun _ _ h => h) .cellsw hcells).cons ?_
  refine Follows.set_andThen (Q := WarnCounted d) (fun _ _ => ⟨rfl, rfl⟩) ?_
  refine (follows_readCodes s hcounted .cellw .cell hcell 1).andThen ?_
  refine (follows_readField_digits2 hcounted .tempsw htemps).cons ?_
  exact Follows.set_andThen (fun _ hk => ⟨rfl, hk⟩) ((follows_readCodes s hcounted .tempw .temp htemp 1).value _)

/-- A whole pack. -/
theorem follows_warnBody :
    Follows s d.fields (fun _ => True) (warnBody s) (warnRecord s.cfg.boolMap (listEntries d) d) (WarnCounted d) := by
  have hcounted := noCur_warnCounted d
  have hlists := follows_warnLists s hd
  obtain ⟨-, -, -, -, hsingles⟩ := hd
  simp only [WarnData.singles, List.forall_mem_cons] at hsingles
  obtain ⟨hchg, hvtot, hdsg, hprot1, hprot2, hinstr, hctrl, hfault, hbal1, hbal2, hwarn1, hwarn2, -⟩ := hsingles
  refine hlists.andThen ?_
  refine (follows_readField_digits2 hcounted .chgw hchg).cons ?_
  refine (follows_readField_digits2 hcounted .vtotw hvtot).cons ?_
  refine (follows_readField_digits2 hcounted .dsgw hdsg).cons ?_
  refine (follows_readField_digits2 hcounted .prot1 hprot1).cons ?_
  refine (follows_readField_digits2 hcounted .prot2 hprot2).cons ?_
  refine (follows_readField_digits2 hcounted .instr hinstr).cons ?_
  refine (follows_readField_digits2 hcounted .ctrl hctrl).cons ?_
  refine (follows_readField_digits2 hcounted .fault hfault).cons ?_
  refine (follows_readField_digits2 hcounted .bal1 hbal1).cons ?_
  refine (follows_readField_digits2 hcounted .bal2 hbal2).cons ?_
  refine (follows_readField_digits2 hcounted .warn1 hwarn1).cons ?_
  exact (follows_readField_digits2 hcounted .warn2 hwarn2).cons (follows_done _)

end

/-! What the record holds. -/

/-- An entry as the flag list of a pack has it. -/
abbrev entryView (e : FlagEntry) : FlagSrc × Nat × Nat := (e.src, e.idx.toNat, e.code.toNat)

theorem codeEntry_view (src : FlagSrc) {idx c : Nat} (hidx : idx < 256) (hc : c < 256) :
    (codeEntry src idx c).map entryView = if c = 0 then [] else [(src, idx, c)] := by
  rw [codeEntry]
  by_cases hzero : c = 0
  · simp [hzero]
  · simp [hzero, entryView, toNat_ofNat_of_lt (w := 8) hidx, toNat_ofNat_of_lt (w := 8) hc]

theorem codeEntries_view (src : FlagSrc) {cs : List Nat} (hcs : ∀ v ∈ cs, v < 256) {idx : Nat} (hidx : idx + cs.length ≤ 256) :
    (codeEntries src cs idx).map entryView =
      (cs.zipIdx idx).filterMap fun c => if c.1 = 0 then none else some (src, c.2, c.1) := by
  induction cs generalizing idx with
  | nil => rfl
  | cons c cs ih =>
    obtain ⟨hc, hcs⟩ := List.forall_mem_cons.mp hcs
    rw [List.length_cons] at hidx
    have hrest := ih hcs (idx := idx + 1) (by omega)
    rw [codeEntries] at hrest ⊢
    rw [List.zipIdx_cons, List.flatMap_cons, List.map_append, codeEntry_view src (by omega) hc, hrest, List.filterMap_cons]
    by_cases hzero : c = 0
    · simp [hzero]
    · simp [hzero]

theorem singleEntry_view (src : FlagSrc) {c : Nat} (hc : c < 256) : (codeEntry src 0 c).map entryView = singleFlag src c :=
  codeEntry_view src (by decide) hc

theorem bitEntries_view (src : FlagSrc) (v : Nat) : (bitEntries src v).map entryView = bitFlags src v := by
  have hrange : [0, 1, 2, 3, 4, 5, 6, 7] = List.range 8 := rfl
  rw [bitEntries, bitFlags, hrange, List.map_flatMap, List.filterMap_eq_flatMap_toList]
  refine List.flatMap_congr fun x hx => ?_
  have hx : x < 8 := List.mem_range.mp hx
  by_cases hbit : v.testBit x = true
  · simp [and_bit_ne_zero, hbit, entryView, Nat.mod_eq_of_lt (show x + 1 < 256 by omega)]
  · simp [and_bit_ne_zero, hbit]

theorem warnRecordOf_warnRecord (m : BoolMap) {d : WarnData} (hd : d.Fits) : WarnRecordOf m (warnRecord m (listEntries d) d) d := by
  obtain ⟨hcells, htemps, hcell, htemp, hsingles⟩ := hd
  have hraw : (d.singles.map (BitVec.ofNat 8)).map BitVec.toNat = d.singles := map_toNat_map_ofNat hsingles
  refine ⟨?_, hraw, ?_⟩
  · simp only [WarnData.singles, List.forall_mem_cons] at hsingles
    obtain ⟨hchg, hvtot, hdsg, -⟩ := hsingles
    have hcellView : (codeEntries .cell d.cellCodes 1).map entryView = codeFlags .cell d.cellCodes :=
      codeEntries_view .cell hcell (by omega)
    have htempView : (codeEntries .temp d.tempCodes 1).map entryView = codeFlags .temp d.tempCodes :=
      codeEntries_view .temp htemp (by omega)
    simp only [warnRecord, listEntries, List.map_append, hcellView, htempView, singleEntry_view _ hchg,
      singleEntry_view _ hvtot, singleEntry_view _ hdsg, bitEntries_view, WarnData.flags]
  · simp only [warnRecord, warnBools, boolAt_eq_bit]

end Sys2Proof.Proofs
end

section
/-! `DEC_WARN` over packs that the trailing test separates, and what ends the operation behind them (44_warnings.md R233, R244 to
R246). -/

namespace Sys2Proof.Proofs

open Sys2Proof Sys2Proof.Machine Sys2Proof.Claims

/-! The text behind a pack. -/

theorem warnsText_cons (q : WarnData × Option Nat) (ps : List (WarnData × Option Nat)) :
    warnsText (q :: ps) = q.1.text ++ q.2.toList.flatMap digits2 ++ warnsText ps :=
  List.flatMap_cons

/-- The fields of a pack behind its count. -/
theorem warnFields_eq (d : WarnData) : ∃ fs, d.fields = ⟨22, true, digits2 d.cellCodes.length⟩ :: fs :=
  ⟨_, rfl⟩

/-- A pack's own text, where a count is looked for, stands for the trailing test. -/
theorem flagged_warnText (d : WarnData) (rest : Text) : Flagged d.cellCodes.length (d.text ++ rest) (d.text ++ rest) := by
  obtain ⟨fs, hfs⟩ := warnFields_eq d
  rw [← WarnData.flatMap_chars_fields, hfs, List.flatMap_cons, List.append_assoc]
  exact .stays _

/-- The flag of a pack is one that its trailing test passes. -/
abbrev FlagFits (q : WarnData × Option Nat) : Prop := ∀ v ∈ q.2, v < 256 ∧ v ≠ q.1.cellCodes.length

/-- Where no flag stands the count that follows is the pack's own. -/
abbrev SameCount (q : WarnData × Option Nat) (c : Nat) : Prop := q.2 = none → c = q.1.cellCodes.length

theorem separated_cons_iff (p q : WarnData × Option Nat) (ps : List (WarnData × Option Nat)) :
    Separated (p :: q :: ps) ↔ (FlagFits p ∧ SameCount p q.1.cellCodes.length) ∧ Separated (q :: ps) := by
  obtain ⟨d, flag⟩ := p
  cases flag with
  | none => simp [Separated, FlagFits]
  | some v => simp [Separated, FlagFits]

theorem separated_singleton_iff (e : WarnData × Option Nat) : Separated [e] ↔ FlagFits e := .rfl

theorem separated_concat_iff (ps : List (WarnData × Option Nat)) (e : WarnData × Option Nat) :
    Separated (ps ++ [e]) ↔ Separated ps ∧ (∀ q ∈ ps.getLast?, SameCount q e.1.cellCodes.length) ∧ FlagFits e := by
  induction ps with
  | nil => simp [separated_singleton_iff, show Separated [] from trivial]
  | cons p ps ih =>
    cases ps with
    | nil =>
      rw [List.cons_append, List.nil_append, separated_cons_iff]
      simp [separated_singleton_iff, and_assoc]
    | cons q ps =>
      rw [List.cons_append, List.cons_append, separated_cons_iff, separated_cons_iff, ← List.cons_append, ih,
        List.getLast?_cons_cons]
      simp only [and_assoc]

/-- Behind a last pack without its flag the trailing test lets the text stand. -/
def WarnTailKept (ps : List (WarnData × Option Nat)) (tail : Text) : Prop :=
  ∀ q ∈ ps.getLast?, q.2 = none → Flagged q.1.cellCodes.length tail tail

section
variable {q : WarnData × Option Nat} {ps : List (WarnData × Option Nat)} {tail : Text}

theorem separated_of_cons (h : Separated (q :: ps)) : FlagFits q ∧ Separated ps := by
  cases ps with
  | nil => exact ⟨h, trivial⟩
  | cons q' ps =>
    obtain ⟨⟨hflag, -⟩, hrest⟩ := (separated_cons_iff q q' ps).mp h
    exact ⟨hflag, hrest⟩

theorem WarnTailKept.of_cons (h : WarnTailKept (q :: ps) tail) : WarnTailKept ps tail := fun q' hq' => by
  refine h q' ?_
  cases ps with
  | nil => nomatch hq'
  | cons q'' ps => rwa [List.getLast?_cons_cons]

/-- The trailing test behind a pack passes its flag, if it has one, and nothing else. -/
theorem flagged_of_separated (hsep : Separated (q :: ps)) (htail : WarnTailKept (q :: ps) tail) :
    Flagged q.1.cellCodes.length (q.2.toList.flatMap digits2 ++ (warnsText ps ++ tail)) (warnsText ps ++ tail) := by
  obtain ⟨d, flag⟩ := q
  cases flag with
  | some v =>
    obtain ⟨hv, hne⟩ := (separated_of_cons hsep).1 v rfl
    exact .passed hv hne _
  | none =>
    cases ps with
    | nil => exact htail (d, none) rfl rfl
    | cons q ps =>
      obtain ⟨⟨-, hcount⟩, -⟩ := (separated_cons_iff (d, none) q ps).mp hsep
      rw [← hcount rfl, warnsText_cons, List.append_assoc, List.append_assoc]
      exact flagged_warnText q.1 _

end

/-! The loop over whole packs. -/

/-- The packs `ps` and then `tail` are to come. -/
structure WarnReady (s : State) (tail : Text) (ps : List (WarnData × Option Nat)) (k : Work) : Prop where
  fits : ∀ q ∈ ps, q.1.Fits
  separated : Separated ps
  tailKept : WarnTailKept ps tail
  text : At s k (warnsText ps ++ tail)

/-- A whole pack with its flag gives its record. -/
theorem warnOne_step {s : State} {tail : Text} (p : Nat) (q : WarnData × Option Nat) (ps : List (WarnData × Option Nat))
    (k : Work) (h : WarnReady s tail (q :: ps) k) :
    ∃ r k', warnOne s p k = .ok r k' ∧ WarnRecordOf s.cfg.boolMap r q.1 ∧ WarnReady s tail ps k' := by
  obtain ⟨hfits, hrest⟩ := List.forall_mem_cons.mp h.fits
  have hat := h.text.congr (k' := { k with p := BitVec.ofNat 8 p }) rfl
  rw [warnsText_cons, ← WarnData.flatMap_chars_fields, List.append_assoc, List.append_assoc] at hat
  obtain ⟨k1, hbody, hat1, hcounted⟩ := (follows_warnBody s hfits).whole trivial hat
  have hcells : k1.cells.toNat = q.1.cellCodes.length := (congrArg BitVec.toNat hcounted).trans (toNat_ofNat_of_lt hfits.1)
  obtain ⟨k2, hflag, hat2, -⟩ := trailingFlag_flagged hat1 (flagged_of_separated h.separated h.tailKept) hfits.1 hcells
  exact ⟨_, _, by rw [warnOne_eq, flaggedPack_of_ok hbody hflag, Walk.done_apply], warnRecordOf_warnRecord _ hfits,
    hrest, (separated_of_cons h.separated).2, h.tailKept.of_cons, hat2⟩

section
variable {s : State} {lead tail : Text} {n : Nat} {ps : List (WarnData × Option Nat)}
  (hinfo : bufText .info s = .ok (lead ++ digits2 n ++ warnsText ps ++ tail)) (hlead : lead.length = leadChars s.cfg.leadSkip)
  (hn : n < 256) (hfits : ∀ q ∈ ps, q.1.Fits) (hsep : Separated ps) (htail : WarnTailKept ps tail)
include hinfo hlead hn hfits hsep htail

/-- The head and the whole packs are walked. -/
theorem warn_run (k : Work) : ∃ k1 rs k2, readPackCount s k = .ok n k1 ∧ eachPack (warnOne s) ps.length 1 k1 = .ok rs k2 ∧
    List.Forall₂ (fun r q => WarnRecordOf s.cfg.boolMap r q.1) rs ps ∧ At s k2 tail := by
  rw [List.append_assoc] at hinfo
  obtain ⟨k1, hhead, hat⟩ := readPackCount_digits2 k hinfo hlead hn
  obtain ⟨rs, k2, hpacks, hrecs, hend⟩ := eachPack_run (I := fun _ => WarnReady s tail) warnOne_step (p := 1)
    ⟨hfits, hsep, htail, hat⟩
  exact ⟨k1, rs, k2, hhead, hpacks, hrecs, hend.text⟩

/-- What the next pack raises ends the operation. -/
theorem decWarn_fails {d : DecodeDetail} {code : BitVec 6} (hmore : ps.length < n)
    (hfail : ∀ p k, At s k tail → ∃ f k', warnOne s p k = .err (.decode d f) k' ∧ fieldCode f = code) :
    ∃ k, exec .decWarn s = .next { s with warn := none, work := k, status := ended 4 (decodeCode d) code } := by
  obtain ⟨k1, rs, k2, hhead, hpacks, -, hat⟩ := warn_run hinfo hlead hn hfits hsep htail s.work
  obtain ⟨f, k3, herr, hcode⟩ := hfail (1 + ps.length) k2 hat
  have hrest := eachPack_append_err hpacks (eachPack_err (show 0 < n - ps.length by omega) herr)
  rw [Nat.add_sub_cancel' hmore.le] at hrest
  exact ⟨k3, by rw [exec_decWarn_of_err (warnWalk_of_packs_err hhead hrest), errStatus_decode hcode]⟩

end

/-! What comes behind whole packs. -/

section
variable {s : State} {p : Nat} {k : Work} {q : WarnData} {d : DecodeDetail}

/-- A pack that breaks in one of its fields. -/
theorem warnOne_of_breaks {t : Text} {code : BitVec 6} (hat : At s k t) (hfits : q.Fits)
    (hbreaks : Breaks s.cfg.hexLower q.fields t d code) :
    ∃ f k', warnOne s p k = .err (.decode d f) k' ∧ fieldCode f = code := by
  have hat := hat.congr (k' := { k with p := BitVec.ofNat 8 p }) rfl
  obtain ⟨f, k', herr, hcode⟩ := (follows_warnBody s hfits).broken trivial hat hbreaks
  exact ⟨f, k', by rw [warnOne_eq, flaggedPack_of_body_err herr], hcode⟩

/-- A whole pack whose trailing test meets no field. -/
theorem warnOne_of_flagBreaks {rest : Text} (hat : At s k (q.text ++ rest)) (hfits : q.Fits) (hne : rest ≠ [])
    (hbreaks : BreaksIn s.cfg.hexLower flagField rest d) : ∃ k', warnOne s p k = .err (.decode d .flag) k' := by
  have hat := hat.congr (k' := { k with p := BitVec.ofNat 8 p }) rfl
  rw [← WarnData.flatMap_chars_fields] at hat
  obtain ⟨k1, hbody, hat1, -⟩ := (follows_warnBody s hfits).whole trivial hat
  exact ⟨k1, by rw [warnOne_eq, flaggedPack_of_flag_err hbody (trailingFlag_of_breaksIn hat1 hne rfl hbreaks)]⟩

end

/-- A first field that differs from the last pack's count is its flag. -/
theorem separated_leftover {ps : List (WarnData × Option Nat)} {rest : Text} (hfits : ∀ p ∈ ps, p.1.Fits) (hsep : Separated ps)
    (h : ps = [] ∨ Leftover rest) : ∃ qs tail, qs.map Prod.fst = ps.map Prod.fst ∧
      warnsText qs ++ tail = warnsText ps ++ rest ∧ (∀ q ∈ qs, q.1.Fits) ∧ Separated qs ∧ WarnTailKept qs tail := by
  have hkept (htail : WarnTailKept ps rest) : ∃ qs tail, qs.map Prod.fst = ps.map Prod.fst ∧
      warnsText qs ++ tail = warnsText ps ++ rest ∧ (∀ q ∈ qs, q.1.Fits) ∧ Separated qs ∧ WarnTailKept qs tail :=
    ⟨ps, rest, rfl, rfl, hfits, hsep, htail⟩
  rcases List.eq_nil_or_concat' ps with rfl | ⟨init, ⟨d, flag⟩, rfl⟩
  · exact hkept fun _ hq => nomatch hq
  have hlast {tail : Text} (hflag : flag = none → Flagged d.cellCodes.length tail tail) :
      WarnTailKept (init ++ [(d, flag)]) tail := by
    simpa [WarnTailKept] using hflag
  cases flag with
  | some v => exact hkept (hlast fun hnone => nomatch hnone)
  | none =>
    rcases h with h | rfl | ⟨v, hv, r, rfl⟩
    · exact absurd h (by simp)
    · exact hkept (hlast fun _ => .none)
    · by_cases hvc : v = d.cellCodes.length
      · exact hkept (hlast fun _ => hvc ▸ .stays r)
      · obtain ⟨hinit, hcount, -⟩ := (separated_concat_iff init (d, none)).mp hsep
        obtain ⟨hinitFits, hd⟩ := List.forall_mem_append.mp hfits
        refine ⟨init ++ [(d, some v)], r, by simp, by simp [warnsText], List.forall_mem_append.mpr ⟨hinitFits, ?_⟩,
          (separated_concat_iff init (d, some v)).mpr ⟨hinit, hcount, ?_⟩, ?_⟩
        · exact List.forall_mem_singleton.mpr (hd (d, none) List.mem_cons_self)
        · simpa [FlagFits] using And.intro hv hvc
        · simp [WarnTailKept]

/-- Settles O35: the loop over whole packs reaches the end of the payload's packs, and each step makes its pack's record. -/
theorem decWarnDecodesMultiPackPayload : Obligations.DecWarnDecodesMultiPackPayload := by
  intro s lead rest ps hinfo hlead hlen hfits hsep hleft
  obtain ⟨qs, tail, hfst, htext, hfits', hsep', htail⟩ := separated_leftover hfits hsep hleft
  have hcount : qs.length = ps.length := by simpa using congrArg List.length hfst
  rw [List.append_assoc, ← htext, ← List.append_assoc] at hinfo
  obtain ⟨k1, rs, k2, hhead, hpacks, hrecs, -⟩ := warn_run hinfo hlead hlen hfits' hsep' htail s.work
  rw [hcount] at hpacks
  refine ⟨k2, _, exec_decWarn_of_ok (warnWalk_of_packs_ok hhead hpacks), toNat_ofNat_of_lt hlen, ?_⟩
  rw [← hfst]
  exact List.forall₂_map_right_iff.mpr hrecs

/-- Settles O36: the cut falls in the head or in a field of the pack. -/
theorem shortWarnPayloadIsOverrun : Obligations.ShortWarnPayloadIsOverrun := by
  intro s lead cut rest d hcut hrest hinfo hlead hd
  have hfields : cut ++ rest = charsOf ([⟨1, false, lead⟩, ⟨2, true, digits2 1⟩] ++ d.fields) := by
    rw [hcut, charsOf, List.flatMap_append, WarnData.flatMap_chars_fields]
    simp
  rcases breaks_append (breaks_of_cut (lower := s.cfg.hexLower) hfields hrest) with hhead | ⟨u, htext, hpack⟩
  · obtain ⟨f, k', herr, hcode⟩ := readPackCount_of_breaks hinfo hlead (by decide) hhead s.work
    exact ⟨k', by rw [exec_decWarn_of_err (warnWalk_of_head_err herr), errStatus_decode hcode]; rfl⟩
  · have hpayload : bufText .info s = .ok (lead ++ digits2 1 ++ warnsText [] ++ u) := by
      rw [hinfo, htext]
      simp [charsOf, warnsText]
    exact decWarn_fails (d := .overrun) hpayload hlead (by decide) (fun _ hq => nomatch hq) trivial
      (fun _ hq => nomatch hq) (by decide) fun p k hat => warnOne_of_breaks hat hd hpack

/-- Settles O49: the whole packs are walked, and the next pack breaks in the field. -/
theorem brokenWarnFieldIsNamed : Obligations.BrokenWarnFieldIsNamed := by
  intro s lead x rest n ps d fs gs f hinfo hlead hmore hn hps hd hsep hfields hlast
  obtain ⟨hsep, hcount, -⟩ := (separated_concat_iff ps (d, none)).mp hsep
  have hkept : WarnTailKept ps (charsOf fs ++ (x ++ rest)) := fun q hq hnone => by
    cases fs with
    | nil => exact absurd hnone (hlast rfl q hq)
    | cons g fs =>
      obtain ⟨gs', hgs'⟩ := warnFields_eq d
      rw [hgs', List.cons_append, List.cons.injEq] at hfields
      obtain ⟨rfl, -⟩ := hfields
      rw [charsOf, List.flatMap_cons, List.append_assoc, ← hcount q hq hnone]
      exact .stays _
  simp only [List.append_assoc] at hinfo
  rw [← List.append_assoc lead, ← List.append_assoc (lead ++ digits2 n)] at hinfo
  have hfails {e : DecodeDetail} (hin : BreaksIn s.cfg.hexLower f (x ++ rest) e) :
      ∃ k, exec .decWarn s = .next { s with warn := none, work := k, status := ended 4 (decodeCode e) f.code } :=
    decWarn_fails hinfo hlead hn hps hsep hkept hmore fun p k hat =>
      warnOne_of_breaks hat hd (hfields ▸ (Breaks.here hin).behind fs)
  have hread : f.read = true := by
    have hall : ∀ g ∈ d.fields, g.read = true := by simp [WarnData.fields, or_imp, forall_and]
    exact hall f (hfields ▸ by simp)
  refine ⟨fun hshort hend => ?_, fun hlen hbad => ?_⟩
  · exact hfails (e := .overrun) (.inl ⟨rfl, by rwa [hend, List.append_nil]⟩)
  · exact hfails (e := .badHex) (.inr ⟨rfl, hread, x, rest, rfl, hlen, hbad⟩)

/-- Settles O50: the packs before the last are walked, and the last pack's trailing test fails; or all are walked and the next
pack has no count. -/
theorem warnLeftoverErrors : Obligations.WarnLeftoverErrors := by
  intro s lead rest n ps d hinfo hlead hmore hn hps hd hsep
  obtain ⟨hsepInit, hcount, -⟩ := (separated_concat_iff ps (d, none)).mp hsep
  have hinfo' : bufText .info s = .ok (lead ++ digits2 n ++ warnsText ps ++ (d.text ++ rest)) := by
    simpa [warnsText] using hinfo
  have hflag {e : DecodeDetail} (hne : rest ≠ []) (hin : BreaksIn s.cfg.hexLower flagField rest e) :
      ∃ k, exec .decWarn s = .next { s with warn := none, work := k, status := ended 4 (decodeCode e) 18 } :=
    decWarn_fails hinfo' hlead hn hps hsepInit (fun q hq hnone => hcount q hq hnone ▸ flagged_warnText d rest) hmore
      fun p k hat => by
        obtain ⟨k', herr⟩ := warnOne_of_flagBreaks hat hd hne hin
        exact ⟨.flag, k', herr, rfl⟩
  refine ⟨fun hone => ?_, fun htwo hbad => ?_, fun hnone hmore' => ?_⟩
  · exact hflag (List.ne_nil_of_length_pos (by omega)) (flagField_breaks_of_short hone)
  · exact hflag (List.ne_nil_of_length_pos (by omega)) (flagField_breaks_of_badHex htwo hbad)
  · subst hnone
    have hlen : (ps ++ [(d, none)]).length = ps.length + 1 := List.length_append
    have hall : ∀ q ∈ ps ++ [(d, none)], q.1.Fits :=
      List.forall_mem_append.mpr ⟨hps, List.forall_mem_singleton.mpr hd⟩
    obtain ⟨fs, hfs⟩ := warnFields_eq d
    refine decWarn_fails (d := .overrun) (code := 22) hinfo hlead hn hall hsep ?_ (by omega)
      fun p k hat => warnOne_of_breaks hat hd (hfs ▸ .here (.inl ⟨rfl, Nat.two_pos⟩))
    exact fun _ _ _ => .none

end Sys2Proof.Proofs
end
